-- ==== Sys2Proof/Word.lean ====
section
/-! DEFINITION. The widths the block works with (R9, R60) and the seven events it acts by (R12). -/

namespace Sys2Proof

/-- A command word, and every register the host reads as 32 bits (R27, R59). -/
abbrev Word := BitVec 32

/-- A cartridge address (R14, R37). -/
abbrev Addr := BitVec 12

/-- A data sample: bit `i` is the level of data line `i` (R42). -/
abbrev Byte := BitVec 8

/-- A length in bytes, wide enough for 4096 (R60, R61). -/
abbrev Len := BitVec 13

/-- The level of one line: `true` is 1 (high), `false` is 0 (low). -/
abbrev Level := Bool

/-- The bus-direction control line (R20): code 0 is `toHost`, code 1 is `toCart`. -/
inductive BusDir where
  | toHost
  | toCart
  deriving DecidableEq, Repr

/-- One primitive action of the block on the outside world (R12, R39 to R47). -/
inductive Event where
  /-- `CS(l)`: drive the chip-select line, low is asserted (R39). -/
  | cs (l : Level)
  /-- `WA(a)`: present an address (R40). -/
  | wa (a : Addr)
  /-- `DLY`: wait one settle delay (R41). -/
  | dly
  /-- `RD -> b`: sample the data lines; the environment answered `b` (R42). -/
  | rd (b : Byte)
  /-- `D5V(v)`: set the value for data line 5 (R43). -/
  | d5v (v : Level)
  /-- `D5D(d)`: drive (1) or release (0) data line 5 (R44). -/
  | d5d (d : Level)
  /-- `EMIT(b)`: append a byte to the output stream (R47). -/
  | emit (b : Byte)
  deriving DecidableEq, Repr

end Sys2Proof
end

