-- ==== Sys2Proof/Config.lean ====
section
/-! DEFINITION. The constants of R9 and R10, and the one free value: what the data lines carry. -/

namespace Sys2Proof.Config

/-- HOTSPOT_LO: the first address of the "control" region a hotspot lies in (R9, R14). -/
def hotspotLo : Addr := 0xFE0#12

/-- HOTSPOT_HI: the last address of that region (R9, R14). -/
def hotspotHi : Addr := 0xFFF#12

/-- NCOMPARES: bytes in every comparison window (R9). -/
def nCompares : Nat := 128

/-- BUFCAP: bytes one compare buffer can hold (R10). -/
def bufCap : Nat := 128

/-- RANGE_MAX: the largest LEN of a RDRANGE command (R10). -/
def rangeMax : Nat := 0x1000

/-- E0_S1B0: the hotspot of "slot-1 bank 0" in isE0 (R10, R87; PRESUMED by the spec, log 9). -/
def e0Slot1Bank0 : Addr := 0xFE8#12

/-- E0_S1B7: the hotspot of "slot-1 bank 7" in isE0 (R10, R87; PRESUMED by the spec, log 9). -/
def e0Slot1Bank7 : Addr := 0xFEF#12

/-- E7_B0: the hotspot of "bank 0" in isE7 (R10, R88; log 10). -/
def e7Bank0 : Addr := 0xFE0#12

/-- E7_B1: the hotspot of "bank 1" in isE7 (R10, R88; log 10). -/
def e7Bank1 : Addr := 0xFE1#12

/-- E7_WIN: the window "at offset 512" of isE7 (R10, R88; log 10). -/
def e7Window : Addr := 0x200#12

/-- FREE VALUE (log 1). The byte the environment answers to a sample for which the state lists no answer,
given how many samples were taken since power-on, the events since reset, newest first, and the events of every
earlier session, newest session first (R46: the answer is the environment's, a function of its own state and of what
it saw on the lines; R136: a reset of the block leaves the environment's state). Nothing constrains it. -/
opaque dataLines : Nat → List Event → List (List Event) → Byte

end Sys2Proof.Config
end

