-- ==== Sys2Proof/Syntax.lean ====
section
/-! DEFINITION. The 22 operations of R62, one constructor per row of the opcode table, with their operands. -/

namespace Sys2Proof

/-- A compare buffer's name (R18). -/
inductive BufId where
  | b0
  | b1
  | b2
  | b3
  deriving DecidableEq, Repr

/-- The destination of a range read: a compare buffer or the output stream (R65, R78). -/
inductive Dest where
  | buf (k : BufId)
  | out
  deriving DecidableEq, Repr

/-- The eight Mapper kinds (R3, R63); `k4` is "4K-or-unknown". -/
inductive MapperKind where
  | e0
  | e7
  | f4
  | f6
  | f8
  | fe
  | k2
  | k4
  deriving DecidableEq, Repr

/-- A command (R62). -/
inductive Instr where
  | hotspot (addr : Addr)
  | rdbyte (addr : Addr)
  | rdrange (dst : Dest) (addr : Addr) (len : Len)
  | bufeq (a b : BufId) (len : Len)
  | fetrig (p : Level)
  | ise0
  | ise7
  | isf4
  | isf6
  | isf8
  | is2k
  | isfe
  | classify
  | dump
  | dumpkE0
  | dumpkE7
  | dumpkF4
  | dumpkF6
  | dumpkF8
  | dumpkFE
  | dumpk2K
  | dumpk4K
  deriving DecidableEq, Repr

end Sys2Proof
end

