-- ==== Sys2Proof/Decode.lean ====
section
/-! DEFINITION. The decoder of R70, total on every 32-bit word and rejecting by name, and the encoder of R62. -/

namespace Sys2Proof

/-- The field that makes a word illegal (R68). The spec has one fault for all of them; the name is the model's
(log 23). -/
inductive Reject where
  /-- OP is 0 or 10 to 15. Safe: the block raises ERR_BADCMD. -/
  | op
  /-- SEL is no code of this OP. Safe: the block raises ERR_BADCMD. -/
  | sel
  /-- LEN is not zero where it must be, or above 4096 in RDRANGE. Safe: the block raises ERR_BADCMD. -/
  | len
  /-- ADDR has a bit set that must be zero. Safe: the block raises ERR_BADCMD. -/
  | addr
  deriving DecidableEq, Repr

/-- What the decoder answers: an operation with its operands, or `illegal` with the offending field (R70). -/
inductive Decoded where
  | command (i : Instr)
  | illegal (r : Reject)
  deriving DecidableEq, Repr

/-- OP, bits 31:28 (R60). -/
def opField (w : Word) : BitVec 4 := w.extractLsb' 28 4

/-- SEL, bits 27:25 (R60). -/
def selField (w : Word) : BitVec 3 := w.extractLsb' 25 3

/-- LEN, bits 24:12 (R60). -/
def lenField (w : Word) : Len := w.extractLsb' 12 13

/-- ADDR, bits 11:0 (R60). -/
def addrField (w : Word) : Addr := w.extractLsb' 0 12

/-- The word with these four fields (R60). -/
def packWord (op : BitVec 4) (sel : BitVec 3) (len : Len) (addr : Addr) : Word :=
  op ++ sel ++ len ++ addr

/-- The two-bit index of a buffer (R65). -/
def BufId.code : BufId → BitVec 2
  | .b0 => 0#2
  | .b1 => 1#2
  | .b2 => 2#2
  | .b3 => 3#2

/-- The buffer with this index (R65). -/
def BufId.ofCode (c : BitVec 2) : BufId :=
  match c.toNat with
  | 0 => .b0
  | 1 => .b1
  | 2 => .b2
  | _ => .b3

/-- The destination code of R65. -/
def Dest.code : Dest → BitVec 3
  | .buf k => 0#1 ++ k.code
  | .out => 4#3

/-- The destination with this code; codes 5 to 7 name none (R65). -/
def Dest.ofCode (c : BitVec 3) : Option Dest :=
  match c.toNat with
  | 0 => some (.buf .b0)
  | 1 => some (.buf .b1)
  | 2 => some (.buf .b2)
  | 3 => some (.buf .b3)
  | 4 => some .out
  | _ => none

/-- The Mapper kind code of R63. -/
def MapperKind.code : MapperKind → BitVec 3
  | .e0 => 0#3
  | .e7 => 1#3
  | .f4 => 2#3
  | .f6 => 3#3
  | .f8 => 4#3
  | .fe => 5#3
  | .k2 => 6#3
  | .k4 => 7#3

/-- DUMPK of a kind (R62, R111). -/
def Instr.dumpk : MapperKind → Instr
  | .e0 => .dumpkE0
  | .e7 => .dumpkE7
  | .f4 => .dumpkF4
  | .f6 => .dumpkF6
  | .f8 => .dumpkF8
  | .fe => .dumpkFE
  | .k2 => .dumpk2K
  | .k4 => .dumpk4K

/-- The kind with this code; every code is one (R63). -/
def MapperKind.ofCode (c : BitVec 3) : MapperKind :=
  match c.toNat with
  | 0 => .e0
  | 1 => .e7
  | 2 => .f4
  | 3 => .f6
  | 4 => .f8
  | 5 => .fe
  | 6 => .k2
  | _ => .k4

/-- The predicate command with this code; code 7 is none (R64). -/
def Instr.ofPredicateCode (c : BitVec 3) : Option Instr :=
  match c.toNat with
  | 0 => some .ise0
  | 1 => some .ise7
  | 2 => some .isf4
  | 3 => some .isf6
  | 4 => some .isf8
  | 5 => some .is2k
  | 6 => some .isfe
  | _ => none

/-- `i`, where LEN and ADDR must both be zero and are (R67). -/
def noLenNoAddr (len : Len) (addr : Addr) (i : Instr) : Decoded :=
  if len ≠ 0#13 then .illegal .len
  else if addr ≠ 0#12 then .illegal .addr
  else .command i

/-- The decoder of R70. -/
def decode (w : Word) : Decoded :=
  let sel := selField w
  let len := lenField w
  let addr := addrField w
  match (opField w).toNat with
  | 1 =>
    if sel ≠ 0#3 then .illegal .sel
    else if len ≠ 0#13 then .illegal .len
    else .command (.hotspot addr)
  | 2 =>
    if sel ≠ 0#3 then .illegal .sel
    else if len ≠ 0#13 then .illegal .len
    else .command (.rdbyte addr)
  | 3 =>
    match Dest.ofCode sel with
    | none => .illegal .sel
    | some dst => if len.toNat ≤ Config.rangeMax then .command (.rdrange dst addr len) else .illegal .len
  | 4 =>
    if sel.getLsbD 2 then .illegal .sel
    else if addr.extractLsb' 2 10 ≠ 0#10 then .illegal .addr
    else .command (.bufeq (BufId.ofCode (sel.extractLsb' 0 2)) (BufId.ofCode (addr.extractLsb' 0 2)) len)
  | 5 =>
    if sel.extractLsb' 1 2 ≠ 0#2 then .illegal .sel
    else noLenNoAddr len addr (.fetrig (sel.getLsbD 0))
  | 6 =>
    match Instr.ofPredicateCode sel with
    | none => .illegal .sel
    | some i => noLenNoAddr len addr i
  | 7 => if sel ≠ 0#3 then .illegal .sel else noLenNoAddr len addr .classify
  | 8 => if sel ≠ 0#3 then .illegal .sel else noLenNoAddr len addr .dump
  | 9 => noLenNoAddr len addr (Instr.dumpk (MapperKind.ofCode sel))
  | _ => .illegal .op

/-- The word of a command (R62, R71). -/
def encode : Instr → Word
  | .hotspot addr => packWord 1#4 0#3 0#13 addr
  | .rdbyte addr => packWord 2#4 0#3 0#13 addr
  | .rdrange dst addr len => packWord 3#4 dst.code len addr
  | .bufeq a b len => packWord 4#4 (0#1 ++ a.code) len (0#10 ++ b.code)
  | .fetrig p => packWord 5#4 (0#2 ++ BitVec.ofBool p) 0#13 0#12
  | .ise0 => packWord 6#4 0#3 0#13 0#12
  | .ise7 => packWord 6#4 1#3 0#13 0#12
  | .isf4 => packWord 6#4 2#3 0#13 0#12
  | .isf6 => packWord 6#4 3#3 0#13 0#12
  | .isf8 => packWord 6#4 4#3 0#13 0#12
  | .is2k => packWord 6#4 5#3 0#13 0#12
  | .isfe => packWord 6#4 6#3 0#13 0#12
  | .classify => packWord 7#4 0#3 0#13 0#12
  | .dump => packWord 8#4 0#3 0#13 0#12
  | .dumpkE0 => packWord 9#4 0#3 0#13 0#12
  | .dumpkE7 => packWord 9#4 1#3 0#13 0#12
  | .dumpkF4 => packWord 9#4 2#3 0#13 0#12
  | .dumpkF6 => packWord 9#4 3#3 0#13 0#12
  | .dumpkF8 => packWord 9#4 4#3 0#13 0#12
  | .dumpkFE => packWord 9#4 5#3 0#13 0#12
  | .dumpk2K => packWord 9#4 6#3 0#13 0#12
  | .dumpk4K => packWord 9#4 7#3 0#13 0#12

/-- The command of a table word: the table's bits are numbered as R60 numbers them, and every command is the
one word of 32 bits (R59, R69). -/
def decodeTableWord (nbits w : Nat) : Option Instr :=
  if nbits ≤ 32 ∧ w < 2 ^ nbits then
    match decode (BitVec.ofNat 32 w) with
    | .command i => some i
    | .illegal _ => none
  else none

end Sys2Proof
end

