-- ==== Sys2Proof/Machine/State.lean ====
section
/-! DEFINITION. Everything the spec gives the block to hold (R15), the observer's record (R31), and, as plain
data, what stands at the block's inputs (R15, R46, R47, R72, R134), with their values after reset (R33). -/

namespace Sys2Proof.Machine

/-- The fault codes of R117 by name; the code 0, no fault, is not one of them. -/
inductive ErrCode where
  /-- Any command word that is illegal (R119). -/
  | badCmd
  /-- DUMP, DUMPK and RDRANGE to OUT with no destination (R118). -/
  | noDest
  /-- DUMP with no verdict (R120). -/
  | noKind
  /-- CLASSIFY with a verdict (R121). -/
  | reclassify
  /-- BUFEQ and RDRANGE to a buffer with a length that does not fit (R122). -/
  | bufLen
  deriving DecidableEq, Repr

/-- A compare buffer: its 128 cells `BUF[k]` and its length `BUFLEN[k]` (R18). Cells at and above the length
hold no value of the spec's, and no rule reads them. -/
structure Buffer where
  cells : Vector Byte 128
  len : BitVec 8
  deriving DecidableEq, Repr

/-- A buffer as reset leaves it: not allocated (R33). The cells' zeros are the model's own (log 5). -/
def Buffer.empty : Buffer := { cells := Vector.replicate 128 0#8, len := 0#8 }

/-- The block, the observer's record, and the block's inputs. -/
@[ext]
structure State where
  -- verdict and result
  /-- KIND_VALID and KIND as one optional kind (R16). -/
  kind : Option MapperKind
  /-- RES (R17). -/
  res : Byte
  -- compare buffers (R18)
  b0 : Buffer
  b1 : Buffer
  b2 : Buffer
  b3 : Buffer
  -- bus output registers (R20)
  /-- A, the address presented. -/
  a : Addr
  /-- CS_N; 0 is asserted. -/
  csN : Level
  /-- D5_OE; 1 while the block drives data line 5. -/
  d5Oe : Level
  /-- D5_OUT, the level driven on data line 5 while D5_OE is 1. -/
  d5Out : Level
  /-- BUS_DIR. -/
  busDir : BusDir
  -- sequencer position (R21, R22)
  busy : Bool
  /-- CUR_CMD, meaningful while BUSY is 1. -/
  curCmd : Word
  /-- SEQ_POS, the events the current command has issued. -/
  seqPos : BitVec 32
  /-- The bytes the current command has sampled so far, newest first: the third part of the position (R21). -/
  sampled : List Byte
  /-- HS_CUR, the hotspot of the bank being read. -/
  hsCur : Addr
  /-- A_CUR, the address of the next byte of the range in progress. -/
  aCur : Addr
  /-- N_LEFT, the bytes of that range still to read. -/
  nLeft : BitVec 13
  /-- STAGE, the Probe Engine call in progress inside a predicate or a plan. -/
  stage : BitVec 4
  -- output cursor (R24)
  outCursor : BitVec 32
  -- fault registers (R26)
  faulted : Bool
  err : BitVec 4
  faultCmd : Word
  -- the command port's completion pulse (R72; log 15)
  done : Bool
  -- observer (R31)
  /-- TRACE, the events issued since reset, newest first. -/
  traceRev : List Event
  -- inputs: the host and the environment
  /-- The reset input (R134). -/
  rst : Bool
  /-- The command words the host holds at the command port, next first (R72). -/
  cmds : List Word
  /-- `out_avail` (R47). -/
  outAvail : Bool
  /-- The bytes the environment answers to the next samples, next first (R46; log 1). -/
  answers : List Byte
  /-- How many samples were taken since power-on: an argument of the free value (log 1). -/
  samplesTaken : Nat
  /-- The events of the sessions that a reset has ended, each newest event first, newest session first: an argument of
  the free value, since the environment keeps what it saw over a reset (R136; log 1). -/
  earlierSessions : List (List Event)
  /-- OUT, the bytes presented on the output port, newest first (R47). -/
  outRev : List Byte
  deriving DecidableEq, Repr

/-- The machine right after reset (R33, R34, R135), nothing presented by the host and nothing yet answered by the
environment; `out_avail` is 1, the start state of 95_test_vectors.md (log 2). -/
def State.reset : State where
  kind := none
  res := 0x00#8
  b0 := Buffer.empty
  b1 := Buffer.empty
  b2 := Buffer.empty
  b3 := Buffer.empty
  a := 0x000#12
  csN := true
  d5Oe := false
  d5Out := false
  busDir := .toHost
  busy := false
  curCmd := 0#32
  seqPos := 0#32
  sampled := []
  hsCur := 0#12
  aCur := 0#12
  nLeft := 0#13
  stage := 0#4
  outCursor := 0#32
  faulted := false
  err := 0#4
  faultCmd := 0#32
  done := false
  traceRev := []
  rst := false
  cmds := []
  outAvail := true
  answers := []
  samplesTaken := 0
  earlierSessions := []
  outRev := []

/-- Why a step has no next state. The five faults of the spec (R117) are NOT here: the block takes them, and the
machine goes on to a next state with FAULTED set (R124). -/
inductive Fault where
  /-- Raised by `step` and by `tick`, never by a command: BUSY is 1 and CUR_CMD, SEQ_POS and KIND name no place in
  the course of any command, a state no run reaches (R21, R23; log 16). Safe: the machine stops where the spec
  describes no state. -/
  | noPosition
  deriving DecidableEq, Repr

/-- Why a command has no meaning in the model. -/
inductive Refusal where
  /-- Raised by an arm of `exec` for a command without a meaning yet; no arm raises it now. Safe. -/
  | notModelled (mnemonic : String)
  deriving DecidableEq, Repr

end Sys2Proof.Machine
end

