-- ==== Sys2Proof/Machine/Ops.lean ====
section
/-! DEFINITION. The operations every command is made of: the seven events (R39 to R47), the compare buffers (R18,
R19), accepting a command (R72), ending one, taking a fault (R124), and reset (R134). -/

namespace Sys2Proof.Machine

/-- A level as a bit (R11, R20): 1 is high. -/
def levelBit (l : Level) : BitVec 1 := BitVec.ofBool l

/-- The code of the bus direction (R20). -/
def dirLevel : BusDir → Level
  | .toHost => false
  | .toCart => true

/-- The code of a fault (R117). -/
def ErrCode.code : ErrCode → BitVec 4
  | .badCmd => 1#4
  | .noDest => 2#4
  | .noKind => 3#4
  | .reclassify => 4#4
  | .bufLen => 5#4

/-! ### Views -/

/-- TRACE, oldest event first (R31). -/
def State.trace (s : State) : List Event := s.traceRev.reverse

/-- OUT, oldest byte first (R47). -/
def State.out (s : State) : List Byte := s.outRev.reverse

/-- `cmd_ready` (R72). -/
def State.cmdReady (s : State) : Bool := !s.busy && !s.faulted

/-! ### Compare buffers -/

/-- Buffer `k` (R18). -/
def State.buffer (s : State) : BufId → Buffer
  | .b0 => s.b0
  | .b1 => s.b1
  | .b2 => s.b2
  | .b3 => s.b3

/-- Replace buffer `k`. -/
def State.setBuffer (k : BufId) (b : Buffer) (s : State) : State :=
  match k with
  | .b0 => { s with b0 := b }
  | .b1 => { s with b1 := b }
  | .b2 => { s with b2 := b }
  | .b3 => { s with b3 := b }

/-- `BUF[k][i] <- b` (R78). -/
def Buffer.store (i : Nat) (b : Byte) (x : Buffer) : Buffer := { x with cells := x.cells.setIfInBounds i b }

/-- `BUFLEN[k] <- n` (R78, R86). -/
def Buffer.setLen (n : Nat) (x : Buffer) : Buffer := { x with len := BitVec.ofNat 8 n }

/-- `BUFLEN[k] <- 0`: buffer `k` is released (R19, R86). -/
def State.release (k : BufId) (s : State) : State := s.setBuffer k ((s.buffer k).setLen 0)

/-! ### The seven events -/

/-- Every event adds 1 to SEQ_POS and is seen by the observer (R21, R31). -/
def State.log (e : Event) (s : State) : State :=
  { s with seqPos := s.seqPos + 1#32, traceRev := e :: s.traceRev }

/-- `CS(l)` (R39). -/
def State.evCS (l : Level) (s : State) : State := State.log (.cs l) { s with csN := l }

/-- `WA(a)` (R40). -/
def State.evWA (a : Addr) (s : State) : State := State.log (.wa a) { s with a := a }

/-- `DLY` (R41). -/
def State.evDLY (s : State) : State := State.log .dly s

/-- `D5V(v)` (R43). -/
def State.evD5V (v : Level) (s : State) : State := State.log (.d5v v) { s with d5Out := v }

/-- `D5D(d)` (R44). -/
def State.evD5D (d : Level) (s : State) : State := State.log (.d5d d) { s with d5Oe := d }

/-- The byte the environment answers now (R46): the next listed answer, or, where none is listed, the free value
(log 1). -/
def State.lineByte (s : State) : Byte :=
  match s.answers with
  | b :: _ => b
  | [] => Config.dataLines s.samplesTaken s.traceRev s.earlierSessions

/-- `RD -> b` (R42): no register and no line changes; the byte joins the bytes sampled so far (R21). -/
def State.evRD (s : State) : State :=
  State.log (.rd s.lineByte)
    { s with
      sampled := s.lineByte :: s.sampled
      answers := s.answers.tail
      samplesTaken := s.samplesTaken + 1 }

/-- `EMIT(b)` (R47). -/
def State.evEMIT (b : Byte) (s : State) : State :=
  State.log (.emit b) { s with outCursor := s.outCursor + 1#32, outRev := b :: s.outRev }

/-- The byte the pseudocode calls `b`: the last one sampled. Every command that uses it has just sampled one (R77,
R78); in a state that no run reaches, where none was, it is the free value (log 20). -/
def State.lastSample (s : State) : Byte :=
  match s.sampled with
  | b :: _ => b
  | [] => Config.dataLines s.samplesTaken s.traceRev s.earlierSessions

/-! ### Beginning and ending a command -/

/-- A word is accepted (R72): it leaves the port, BUSY <- 1, CUR_CMD <- cmd, SEQ_POS <- 0; nothing is sampled yet. -/
def State.accept (w : Word) (s : State) : State :=
  { s with busy := true, curCmd := w, seqPos := 0#32, sampled := [], done := false, cmds := s.cmds.tail }

/-- The command has ended: BUSY <- 0, with the `done` pulse (R72). -/
def State.complete (s : State) : State := { s with busy := false, done := true }

/-- `raise Fault(code)` (R124), seen by the host with the `done` pulse. -/
def State.raise (e : ErrCode) (s : State) : State :=
  { s with faulted := true, err := e.code, faultCmd := s.curCmd, busy := false, done := true }

/-- A step in which the block does nothing: no `done` pulse (log 15). -/
def State.idle (s : State) : State := { s with done := false }

/-! ### Reset -/

/-- `rst` (R134): every register of the block takes its value of R33 and the observer's record since reset is
empty; what belongs to the host and the environment stays, what the environment saw in the session that ends among it
(R136). -/
def State.resetBlock (s : State) : State :=
  { State.reset with
    rst := s.rst
    cmds := s.cmds
    outAvail := s.outAvail
    answers := s.answers
    samplesTaken := s.samplesTaken
    earlierSessions := s.traceRev :: s.earlierSessions
    outRev := s.outRev }

end Sys2Proof.Machine
end

