-- ==== Sys2Proof/Machine/Flags.lean ====
section
/-! DEFINITION. The one-bit conditions (R25): the comparator's EQ (R80), the booleans that reach RES (R17), and the
registers the host reads (R27). -/

namespace Sys2Proof.Machine

/-- Compare `n` cells from index `i` on, stopping at the first mismatch (R80). -/
def cellsEqual (x y : Vector Byte 128) (i : Nat) : Nat → Bool
  | 0 => true
  | n + 1 => if x[i]? = y[i]? then cellsEqual x y (i + 1) n else false

/-- `buffersEqual(a, b, length)`, the comparator output EQ (R80). -/
def State.buffersEqual (s : State) (a b : BufId) (n : Nat) : Bool :=
  cellsEqual (s.buffer a).cells (s.buffer b).cells 0 n

/-- A boolean as RES holds it (R17): 0x01 is true, 0x00 false. -/
def boolByte (b : Bool) : Byte := if b then 0x01#8 else 0x00#8

/-- A kind as RES holds it after CLASSIFY (R17, R95): its code, zero-extended. -/
def kindByte (k : MapperKind) : Byte := k.code.zeroExtend 8

/-- KIND_VALID (R16). -/
def State.kindValid (s : State) : Bool := s.kind.isSome

/-- KIND as STATUS shows it (R27): 0 while there is no verdict. -/
def State.kindBits (s : State) : BitVec 3 :=
  match s.kind with
  | some k => k.code
  | none => 0#3

/-- STATUS (R27): bits 31:18 and upwards in the order of the table, RES 17:10, ERR 9:6, KIND 5:3, KIND_VALID 2,
FAULTED 1, BUSY 0. -/
def State.status (s : State) : Word :=
  0#14 ++ s.res ++ s.err ++ s.kindBits ++ levelBit s.kindValid ++ levelBit s.faulted ++ levelBit s.busy

/-- The host's read port (R27). A read changes nothing. -/
def State.hostReg (s : State) (regSel : BitVec 2) : Word :=
  match regSel.toNat with
  | 0 => s.status
  | 1 => s.faultCmd
  | 2 => s.outCursor
  | _ => 0#32

end Sys2Proof.Machine
end

