-- ==== Sys2Proof/Machine/Operands.lean ====
section
/-! DEFINITION. What a command's operands mean: where a sample goes (R65, R78) and the checks of R125 on operands and
destination. An address needs no assembly: it is 12 bits wide, and the sum that walks a range is modulo 4096 by its
type (R13, R61). -/

namespace Sys2Proof.Machine

/-- Where the byte of one sample goes besides the position's list: nowhere (RDBYTE keeps it for RES, a range read
to OUT for its EMIT), or into cell `i` of buffer `k` as one of `n` (R78). -/
inductive Intake where
  | hold
  | cell (k : BufId) (i n : Nat)
  deriving DecidableEq, Repr

/-- Store a sampled byte: `BUF[k][i] <- b`, and after the last of the `n` cells `BUFLEN[k] <- n` (R78). -/
def State.takeIn (into : Intake) (b : Byte) (s : State) : State :=
  match into with
  | .hold => s
  | .cell k i n =>
    if i + 1 = n then s.setBuffer k (((s.buffer k).store i b).setLen n)
    else s.setBuffer k ((s.buffer k).store i b)

/-- RDRANGE check 1 (R79): a buffer cannot hold `len` bytes. -/
def overCapacity (dst : Dest) (len : Len) : Bool :=
  match dst with
  | .buf _ => decide (Config.bufCap < len.toNat)
  | .out => false

/-- The destination check (R118, R125): a command that emits needs `out_avail`. -/
def destMissing (dst : Dest) (s : State) : Bool :=
  match dst with
  | .buf _ => false
  | .out => !s.outAvail

/-- BUFEQ's check (R81): `len` exceeds either buffer's length. -/
def tooLong (a b : BufId) (len : Len) (s : State) : Bool :=
  decide ((s.buffer a).len.toNat < len.toNat) || decide ((s.buffer b).len.toNat < len.toNat)

end Sys2Proof.Machine
end

