-- ==== Sys2Proof/Machine/Sequencer.lean ====
section
/-! DEFINITION. The sequencer: a command's course as data (its events in their fixed order, the comparisons
between them, its last writes, R21, R23), running a whole course (R23), and finding one's place in it (R21). -/

namespace Sys2Proof.Machine

/-- One event a course calls for; the bytes are not known before the environment answers (R12). -/
inductive Action where
  | cs (l : Level)
  | wa (a : Addr)
  | dly
  | rd (into : Intake)
  | d5v (v : Level)
  | d5d (d : Level)
  /-- EMIT of the byte just sampled (R78). -/
  | emit
  deriving DecidableEq, Repr

/-- An action with the values the named cursors have once it is issued (R22); `none` leaves a cursor as it is
(log 7). -/
structure Micro where
  act : Action
  stage : Option (BitVec 4) := none
  hotspot : Option Addr := none
  range : Option (Addr × BitVec 13) := none
  deriving DecidableEq, Repr

/-- The seven predicates of R87 to R93. -/
inductive Predicate where
  | isE0
  | isE7
  | isF4
  | isF6
  | isF8
  | is2K
  | isFE
  deriving DecidableEq, Repr

/-- What a command writes when its events are over, before BUSY <- 0 (R72). -/
inductive WriteBack where
  /-- Operations that return nothing (R17). -/
  | nothing
  /-- `RES <- b`, the byte sampled (R77). -/
  | sample
  /-- `RES <- r`, a predicate's boolean (R94). -/
  | bool (r : Bool)
  /-- `RES <- buffersEqual(a, b, len)` (R81). -/
  | equal (a b : BufId) (n : Nat)
  /-- `BUFLEN[k] <- n` (R78); it matters only for `n` = 0, where no sample sets it. -/
  | length (k : BufId) (n : Nat)
  /-- `KIND <- k; KIND_VALID <- 1; RES <- zext_8(code(k))` (R95). -/
  | verdict (k : MapperKind)
  deriving DecidableEq, Repr

/-- A command's course. -/
inductive Routine where
  /-- No event is left. -/
  | finish (w : WriteBack)
  /-- The next event. -/
  | event (m : Micro) (k : Routine)
  /-- A predicate's comparisons and the release of its buffers (R86), which issue no event. -/
  | test (p : Predicate) (yes no : Routine)
  deriving DecidableEq, Repr

/-! ### One event -/

/-- Set the named cursors (R22). -/
def State.point (m : Micro) (s : State) : State :=
  { s with
    stage := m.stage.getD s.stage
    hsCur := m.hotspot.getD s.hsCur
    aCur := (m.range.map Prod.fst).getD s.aCur
    nLeft := (m.range.map Prod.snd).getD s.nLeft }

/-- The event an action is (R39 to R47). -/
def State.act (s : State) : Action → State
  | .cs l => s.evCS l
  | .wa a => s.evWA a
  | .dly => s.evDLY
  | .rd into => s.evRD.takeIn into s.lineByte
  | .d5v v => s.evD5V v
  | .d5d d => s.evD5D d
  | .emit => s.evEMIT s.lastSample

/-- Issue one event (R23). -/
def State.issue (m : Micro) (s : State) : State := (s.point m).act m.act

/-- Issue events in order (R23, R55). -/
def State.issueAll : List Micro → State → State
  | [], s => s
  | m :: ms, s => State.issueAll ms (s.issue m)

/-! ### Comparisons and last writes -/

/-- The windows that must differ, for every predicate but is2K (R87 to R91, R93). -/
def State.windowsDiffer (s : State) (a b : BufId) : Bool := !s.buffersEqual a b Config.nCompares

/-- What each predicate's comparisons answer (R87 to R93). -/
def Predicate.holds (p : Predicate) (s : State) : Bool :=
  match p with
  | .isE0 => s.windowsDiffer .b0 .b2 && s.buffersEqual .b1 .b3 Config.nCompares
  | .isE7 => s.windowsDiffer .b0 .b2 && s.buffersEqual .b1 .b3 Config.nCompares
  | .isF4 => s.windowsDiffer .b0 .b1
  | .isF6 => s.windowsDiffer .b0 .b1
  | .isF8 => s.windowsDiffer .b0 .b1
  | .is2K => s.buffersEqual .b0 .b1 Config.nCompares
  | .isFE => s.windowsDiffer .b0 .b1

/-- Release two buffers (R86, R89 to R93). -/
def State.releaseTwo (s : State) : State := (s.release .b0).release .b1

/-- Release four buffers (R86 to R88). -/
def State.releaseFour (s : State) : State := (s.releaseTwo.release .b2).release .b3

/-- Each predicate releases every buffer it filled (R86). -/
def Predicate.releaseAll (p : Predicate) (s : State) : State :=
  match p with
  | .isE0 => s.releaseFour
  | .isE7 => s.releaseFour
  | .isF4 => s.releaseTwo
  | .isF6 => s.releaseTwo
  | .isF8 => s.releaseTwo
  | .is2K => s.releaseTwo
  | .isFE => s.releaseTwo

/-- A command's last writes. -/
def State.writeBack (w : WriteBack) (s : State) : State :=
  match w with
  | .nothing => s
  | .sample => { s with res := s.lastSample }
  | .bool r => { s with res := boolByte r }
  | .equal a b n => { s with res := boolByte (s.buffersEqual a b n) }
  | .length k n => s.setBuffer k ((s.buffer k).setLen n)
  | .verdict k => { s with kind := some k, res := kindByte k }

/-! ### Courses -/

/-- A course that begins with these events. -/
def Routine.events : List Micro → Routine → Routine
  | [], k => k
  | m :: ms, k => .event m (Routine.events ms k)

/-- Run a course to its end (R23: a command runs to completion as one function). -/
def Routine.run : Routine → State → State
  | .finish w, s => (s.writeBack w).complete
  | .event m k, s => k.run (s.issue m)
  | .test p yes no, s =>
    if p.holds s then yes.run (p.releaseAll s) else no.run (p.releaseAll s)

/-- Take the steps that issue no event: up to the next event, or to the end of the command. -/
def Routine.settle : Routine → State → State
  | .finish w, s => (s.writeBack w).complete
  | .event _ _, s => s
  | .test p yes no, s =>
    if p.holds s then yes.settle (p.releaseAll s) else no.settle (p.releaseAll s)

/-- The next event after `n` of them, and the course after it. Every course ends at a comparison that answers true,
so one that goes on had it answer false (R95, R96). -/
def Routine.place : Routine → Nat → Option (Micro × Routine)
  | .finish _, _ => none
  | .event m k, 0 => some (m, k)
  | .event _ k, n + 1 => k.place n
  | .test _ _ no, n => no.place n

/-- An accepted command: its first failing check, if any, is the fault (R125, R126); else it runs. -/
def State.conduct (check : Option ErrCode) (r : Routine) (s : State) : State :=
  match check with
  | some e => s.raise e
  | none => r.run s

end Sys2Proof.Machine
end

