-- ==== Sys2Proof/Machine/ProbeEngine.lean ====
section
/-! DEFINITION. The Probe Engine (R75 to R84): the procedures as event lists, and the commands HOTSPOT, RDBYTE,
RDRANGE, BUFEQ, FETRIG. -/

namespace Sys2Proof.Machine

/-- An event that moves no named cursor. -/
def Micro.plain (act : Action) : Micro := { act := act }

/-- The same event in the turn of a range read that begins with `left` bytes to read, the first of them at `a`: its
sample moves A_CUR and N_LEFT past that byte (R22, log 7). -/
def Micro.inTurn (a : Addr) (left : Nat) (m : Micro) : Micro :=
  match m.act with
  | .rd _ | .emit => { m with range := some (a + 1#12, BitVec.ofNat 13 (left - 1)) }
  | _ => { m with range := some (a, BitVec.ofNat 13 left) }

/-- `assertHotspot(addr)` (R76). -/
def assertHotspot (addr : Addr) : List Micro :=
  [.plain (.cs false), .plain (.wa addr), .plain .dly, .plain (.cs true), .plain .dly]

/-- `readByte(addr)` (R77). -/
def readByte (addr : Addr) (into : Intake) : List Micro :=
  [.plain (.wa addr), .plain .dly, .plain (.rd into)]

/-- One turn of `readRange`'s loop (R78): the byte is read and, for OUT, emitted at once. -/
def rangeTurn (dst : Dest) (addr : Addr) (i n : Nat) : List Micro :=
  match dst with
  | .buf k => readByte addr (.cell k i n)
  | .out => readByte addr .hold ++ [.plain .emit]

/-- The turns of `readRange` that are left: `left` of `n` (R78). -/
def rangeTurns (dst : Dest) (n : Nat) : Addr → Nat → List Micro
  | _, 0 => []
  | a, left + 1 =>
    (rangeTurn dst a (n - (left + 1)) n).map (Micro.inTurn a (left + 1)) ++ rangeTurns dst n (a + 1#12) left

/-- `readRange(addr, length, dst)` (R78). -/
def readRange (addr : Addr) (n : Nat) (dst : Dest) : List Micro := rangeTurns dst n addr n

/-- `feTrigger(p)` (R82; the order is the spec's decision D19, log 11). -/
def feTrigger (p : Level) : List Micro :=
  [.plain (.cs false), .plain (.d5v p), .plain (.d5d true),
   .plain (.wa 0x1F1#12), .plain .dly,
   .plain (.wa 0x1FE#12), .plain .dly,
   .plain (.wa 0x1FF#12), .plain .dly,
   .plain (.d5d false), .plain (.cs true), .plain .dly]

/-! ### Courses -/

/-- The course of HOTSPOT (R76). -/
def hotspotRoutine (addr : Addr) : Routine := Routine.events (assertHotspot addr) (.finish .nothing)

/-- The course of RDBYTE (R77). -/
def rdbyteRoutine (addr : Addr) : Routine := Routine.events (readByte addr .hold) (.finish .sample)

/-- RDRANGE's last write (R78, R79): BUFLEN for a buffer, nothing for OUT. -/
def rdrangeWriteBack (dst : Dest) (len : Len) : WriteBack :=
  match dst with
  | .buf k => .length k len.toNat
  | .out => .nothing

/-- The course of RDRANGE (R79). -/
def rdrangeRoutine (dst : Dest) (addr : Addr) (len : Len) : Routine :=
  Routine.events (readRange addr len.toNat dst) (.finish (rdrangeWriteBack dst len))

/-- The course of BUFEQ: no event (R81). -/
def bufeqRoutine (a b : BufId) (len : Len) : Routine := .finish (.equal a b len.toNat)

/-- The course of FETRIG (R82). -/
def fetrigRoutine (p : Level) : Routine := Routine.events (feTrigger p) (.finish .nothing)

/-! ### Checks -/

/-- RDRANGE's checks, in the order of R79. -/
def rdrangeCheck (dst : Dest) (len : Len) (s : State) : Option ErrCode :=
  if overCapacity dst len then some .bufLen
  else if destMissing dst s then some .noDest
  else none

/-- BUFEQ's check (R81). -/
def bufeqCheck (a b : BufId) (len : Len) (s : State) : Option ErrCode :=
  if tooLong a b len s then some .bufLen else none

/-! ### Meanings -/

/-- HOTSPOT (R76). -/
def execHotspot (addr : Addr) (s : State) : Host.Outcome State Fault Refusal :=
  .next ((hotspotRoutine addr).run s)

/-- RDBYTE (R77). -/
def execRdbyte (addr : Addr) (s : State) : Host.Outcome State Fault Refusal :=
  .next ((rdbyteRoutine addr).run s)

/-- RDRANGE (R79). -/
def execRdrange (dst : Dest) (addr : Addr) (len : Len) (s : State) : Host.Outcome State Fault Refusal :=
  .next (s.conduct (rdrangeCheck dst len s) (rdrangeRoutine dst addr len))

/-- BUFEQ (R81). -/
def execBufeq (a b : BufId) (len : Len) (s : State) : Host.Outcome State Fault Refusal :=
  .next (s.conduct (bufeqCheck a b len s) (bufeqRoutine a b len))

/-- FETRIG (R82). -/
def execFetrig (p : Level) (s : State) : Host.Outcome State Fault Refusal :=
  .next ((fetrigRoutine p).run s)

end Sys2Proof.Machine
end

