-- ==== Sys2Proof/Machine/Classifier.lean ====
section
/-! DEFINITION. The Mapper Classifier (R85 to R99): the seven predicates, their commands, and CLASSIFY. -/

namespace Sys2Proof.Machine

/-- The same event as part of the `n`-th Probe Engine call of a predicate or plan (R22, log 8). -/
def Micro.inStage (n : Nat) (m : Micro) : Micro := { m with stage := some (BitVec.ofNat 4 n) }

/-- Probe Engine calls one after another, numbered from `n` on in STAGE (R22). -/
def numberCalls : Nat → List (List Micro) → List Micro
  | _, [] => []
  | n, c :: cs => c.map (Micro.inStage n) ++ numberCalls (n + 1) cs

/-- One comparison window, read into a buffer (R85). -/
def window (start : Addr) (k : BufId) : List Micro := readRange start Config.nCompares (.buf k)

/-- isE0's bank switches and reads (R87). -/
def isE0Calls : List (List Micro) :=
  [assertHotspot Config.e0Slot1Bank0, window 0x400#12 .b0, window 0xC00#12 .b1,
   assertHotspot Config.e0Slot1Bank7, window 0x400#12 .b2, window 0xC00#12 .b3]

/-- isE7's bank switches and reads (R88). -/
def isE7Calls : List (List Micro) :=
  [assertHotspot Config.e7Bank0, window Config.e7Window .b0, window 0x800#12 .b1,
   assertHotspot Config.e7Bank1, window Config.e7Window .b2, window 0x800#12 .b3]

/-- isF4's bank switches and reads (R89). -/
def isF4Calls : List (List Micro) :=
  [assertHotspot 0xFF4#12, window 0x000#12 .b0, assertHotspot 0xFF5#12, window 0x000#12 .b1]

/-- isF6's bank switches and reads (R90). -/
def isF6Calls : List (List Micro) :=
  [assertHotspot 0xFF6#12, window 0x000#12 .b0, assertHotspot 0xFF7#12, window 0x000#12 .b1]

/-- isF8's bank switches and reads (R91). -/
def isF8Calls : List (List Micro) :=
  [assertHotspot 0xFF8#12, window 0x000#12 .b0, assertHotspot 0xFF9#12, window 0x000#12 .b1]

/-- is2K's reads (R92). -/
def is2KCalls : List (List Micro) := [window 0x000#12 .b0, window 0x800#12 .b1]

/-- isFE's triggers and reads (R93). -/
def isFECalls : List (List Micro) :=
  [feTrigger true, window 0x000#12 .b0, feTrigger false, window 0x000#12 .b1]

/-- The events of each predicate, all of them before its comparisons (R85). -/
def Predicate.micros : Predicate → List Micro
  | .isE0 => numberCalls 0 isE0Calls
  | .isE7 => numberCalls 0 isE7Calls
  | .isF4 => numberCalls 0 isF4Calls
  | .isF6 => numberCalls 0 isF6Calls
  | .isF8 => numberCalls 0 isF8Calls
  | .is2K => numberCalls 0 is2KCalls
  | .isFE => numberCalls 0 isFECalls

/-- Run a predicate, compare, release, and go on by its boolean (R85, R86). -/
def Predicate.ask (p : Predicate) (yes no : Routine) : Routine := Routine.events p.micros (.test p yes no)

/-- The course of a predicate command (R94). -/
def predicateRoutine (p : Predicate) : Routine := p.ask (.finish (.bool true)) (.finish (.bool false))

/-- The decision procedure, first match wins, isF4 not in the chain (R95 to R97). -/
def classifyRoutine : Routine :=
  Predicate.isE0.ask (.finish (.verdict .e0))
    (Predicate.isE7.ask (.finish (.verdict .e7))
      (Predicate.isF6.ask (.finish (.verdict .f6))
        (Predicate.isF8.ask (.finish (.verdict .f8))
          (Predicate.isFE.ask (.finish (.verdict .fe))
            (Predicate.is2K.ask (.finish (.verdict .k2)) (.finish (.verdict .k4)))))))

/-- CLASSIFY's check (R95): the kind is computed once. -/
def classifyCheck (s : State) : Option ErrCode := if s.kindValid then some .reclassify else none

/-! ### Meanings -/

/-- ISE0 (R87). -/
def execIse0 (s : State) : Host.Outcome State Fault Refusal := .next ((predicateRoutine .isE0).run s)

/-- ISE7 (R88). -/
def execIse7 (s : State) : Host.Outcome State Fault Refusal := .next ((predicateRoutine .isE7).run s)

/-- ISF4 (R89). -/
def execIsf4 (s : State) : Host.Outcome State Fault Refusal := .next ((predicateRoutine .isF4).run s)

/-- ISF6 (R90). -/
def execIsf6 (s : State) : Host.Outcome State Fault Refusal := .next ((predicateRoutine .isF6).run s)

/-- ISF8 (R91). -/
def execIsf8 (s : State) : Host.Outcome State Fault Refusal := .next ((predicateRoutine .isF8).run s)

/-- IS2K (R92). -/
def execIs2k (s : State) : Host.Outcome State Fault Refusal := .next ((predicateRoutine .is2K).run s)

/-- ISFE (R93). -/
def execIsfe (s : State) : Host.Outcome State Fault Refusal := .next ((predicateRoutine .isFE).run s)

/-- CLASSIFY (R95). -/
def execClassify (s : State) : Host.Outcome State Fault Refusal :=
  .next (s.conduct (classifyCheck s) classifyRoutine)

end Sys2Proof.Machine
end

