-- ==== Sys2Proof/Machine/DumpDriver.lean ====
section
/-! DEFINITION. The Dump Driver (R100 to R115): the eight enumeration plans, DUMP and DUMPK. -/

namespace Sys2Proof.Machine

/-- The same event while the bank of hotspot `h` is being selected or read (HS_CUR, R22). -/
def Micro.inBank (h : Addr) (m : Micro) : Micro := { m with hotspot := some h }

/-- One bank: its hotspot, then `n` bytes from address 0 to the output stream (R104 to R108). -/
def bankCalls (n : Nat) (h : Addr) : List (List Micro) :=
  [(assertHotspot h).map (Micro.inBank h), (readRange 0x000#12 n .out).map (Micro.inBank h)]

/-- `count` banks of `n` bytes, from hotspot `h` in rising order (R104 to R108). -/
def banksFrom (n : Nat) : Addr → Nat → List (List Micro)
  | _, 0 => []
  | h, count + 1 => bankCalls n h ++ banksFrom n (h + 1#12) count

/-- plan_2K (R102). -/
def plan2K : List (List Micro) := [readRange 0x000#12 0x800 .out]

/-- plan_4K (R103). -/
def plan4K : List (List Micro) := [readRange 0x000#12 0x1000 .out]

/-- plan_E0 (R104): hotspots 0xFE0..0xFE7. -/
def planE0 : List (List Micro) := banksFrom 0x400 0xFE0#12 8

/-- plan_E7 (R105): hotspots 0xFE0..0xFE6, then the static range once. -/
def planE7 : List (List Micro) := banksFrom 0x800 0xFE0#12 7 ++ [readRange 0x800#12 0x800 .out]

/-- plan_F4 (R106): hotspots 0xFF4..0xFFB. -/
def planF4 : List (List Micro) := banksFrom 0x1000 0xFF4#12 8

/-- plan_F6 (R107): hotspots 0xFF6..0xFF9. -/
def planF6 : List (List Micro) := banksFrom 0x1000 0xFF6#12 4

/-- plan_F8 (R108): hotspots 0xFF8..0xFF9. -/
def planF8 : List (List Micro) := banksFrom 0x1000 0xFF8#12 2

/-- plan_FE (R109): the high trigger's bytes, then the low trigger's. -/
def planFE : List (List Micro) :=
  [feTrigger true, readRange 0x000#12 0x1000 .out, feTrigger false, readRange 0x000#12 0x1000 .out]

/-- The plan of a kind (R101). -/
def planOf : MapperKind → List (List Micro)
  | .e0 => planE0
  | .e7 => planE7
  | .f4 => planF4
  | .f6 => planF6
  | .f8 => planF8
  | .fe => planFE
  | .k2 => plan2K
  | .k4 => plan4K

/-- The events of a kind's plan, its calls numbered in STAGE (R22, R100). -/
def planMicros (k : MapperKind) : List Micro := numberCalls 0 (planOf k)

/-- The course of a dump of kind `k`: no data-dependent branch, and nothing written at the end (R100, R101). -/
def dumpRoutine (k : MapperKind) : Routine := Routine.events (planMicros k) (.finish .nothing)

/-- DUMPK's check (R111). -/
def dumpkCheck (s : State) : Option ErrCode := if destMissing .out s then some .noDest else none

/-- The common part of the eight DUMPK commands (R111). -/
def State.dumpKind (k : MapperKind) (s : State) : State := s.conduct (dumpkCheck s) (dumpRoutine k)

/-! ### Meanings -/

/-- DUMP (R101): the verdict first, then the destination (R125). -/
def execDump (s : State) : Host.Outcome State Fault Refusal :=
  .next (match s.kind with
    | none => s.raise .noKind
    | some k => s.dumpKind k)

/-- DUMPK.E0 (R104). -/
def execDumpkE0 (s : State) : Host.Outcome State Fault Refusal := .next (s.dumpKind .e0)

/-- DUMPK.E7 (R105). -/
def execDumpkE7 (s : State) : Host.Outcome State Fault Refusal := .next (s.dumpKind .e7)

/-- DUMPK.F4 (R106). -/
def execDumpkF4 (s : State) : Host.Outcome State Fault Refusal := .next (s.dumpKind .f4)

/-- DUMPK.F6 (R107). -/
def execDumpkF6 (s : State) : Host.Outcome State Fault Refusal := .next (s.dumpKind .f6)

/-- DUMPK.F8 (R108). -/
def execDumpkF8 (s : State) : Host.Outcome State Fault Refusal := .next (s.dumpKind .f8)

/-- DUMPK.FE (R109). -/
def execDumpkFE (s : State) : Host.Outcome State Fault Refusal := .next (s.dumpKind .fe)

/-- DUMPK.2K (R102). -/
def execDumpk2K (s : State) : Host.Outcome State Fault Refusal := .next (s.dumpKind .k2)

/-- DUMPK.4K (R103). -/
def execDumpk4K (s : State) : Host.Outcome State Fault Refusal := .next (s.dumpKind .k4)

end Sys2Proof.Machine
end

