-- ==== Sys2Proof/Machine/Dispatch.lean ====
section
/-! DEFINITION. What each command does once it is accepted, arm by arm. -/

namespace Sys2Proof.Machine

/-- Execute one accepted command (R62, R72). -/
def exec (i : Instr) (s : State) : Host.Outcome State Fault Refusal :=
  match i with
  | .hotspot addr => Sys2Proof.Machine.execHotspot addr s
  | .rdbyte addr => Sys2Proof.Machine.execRdbyte addr s
  | .rdrange dst addr len => Sys2Proof.Machine.execRdrange dst addr len s
  | .bufeq a b len => Sys2Proof.Machine.execBufeq a b len s
  | .fetrig p => Sys2Proof.Machine.execFetrig p s
  | .ise0 => Sys2Proof.Machine.execIse0 s
  | .ise7 => Sys2Proof.Machine.execIse7 s
  | .isf4 => Sys2Proof.Machine.execIsf4 s
  | .isf6 => Sys2Proof.Machine.execIsf6 s
  | .isf8 => Sys2Proof.Machine.execIsf8 s
  | .is2k => Sys2Proof.Machine.execIs2k s
  | .isfe => Sys2Proof.Machine.execIsfe s
  | .classify => Sys2Proof.Machine.execClassify s
  | .dump => Sys2Proof.Machine.execDump s
  | .dumpkE0 => Sys2Proof.Machine.execDumpkE0 s
  | .dumpkE7 => Sys2Proof.Machine.execDumpkE7 s
  | .dumpkF4 => Sys2Proof.Machine.execDumpkF4 s
  | .dumpkF6 => Sys2Proof.Machine.execDumpkF6 s
  | .dumpkF8 => Sys2Proof.Machine.execDumpkF8 s
  | .dumpkFE => Sys2Proof.Machine.execDumpkFE s
  | .dumpk2K => Sys2Proof.Machine.execDumpk2K s
  | .dumpk4K => Sys2Proof.Machine.execDumpk4K s

end Sys2Proof.Machine
end

