-- ==== Sys2Proof/Machine/Port.lean ====
section
/-! DEFINITION. The command port (R72) and the course of every command, for the two machines that read it: `step`,
which runs a command as one function, and `tick`, which issues one event (R23). -/

namespace Sys2Proof.Machine

/-- The course of an accepted command; DUMP's is the plan of KIND (R101). -/
def routineOf (i : Instr) (kind : Option MapperKind) : Option Routine :=
  match i with
  | .hotspot addr => some (hotspotRoutine addr)
  | .rdbyte addr => some (rdbyteRoutine addr)
  | .rdrange dst addr len => some (rdrangeRoutine dst addr len)
  | .bufeq a b len => some (bufeqRoutine a b len)
  | .fetrig p => some (fetrigRoutine p)
  | .ise0 => some (predicateRoutine .isE0)
  | .ise7 => some (predicateRoutine .isE7)
  | .isf4 => some (predicateRoutine .isF4)
  | .isf6 => some (predicateRoutine .isF6)
  | .isf8 => some (predicateRoutine .isF8)
  | .is2k => some (predicateRoutine .is2K)
  | .isfe => some (predicateRoutine .isFE)
  | .classify => some classifyRoutine
  | .dump => kind.map dumpRoutine
  | .dumpkE0 => some (dumpRoutine .e0)
  | .dumpkE7 => some (dumpRoutine .e7)
  | .dumpkF4 => some (dumpRoutine .f4)
  | .dumpkF6 => some (dumpRoutine .f6)
  | .dumpkF8 => some (dumpRoutine .f8)
  | .dumpkFE => some (dumpRoutine .fe)
  | .dumpk2K => some (dumpRoutine .k2)
  | .dumpk4K => some (dumpRoutine .k4)

/-- The check of R125 that an accepted command fails, if any. -/
def checkOf (i : Instr) (s : State) : Option ErrCode :=
  match i with
  | .rdrange dst _ len => rdrangeCheck dst len s
  | .bufeq a b len => bufeqCheck a b len s
  | .classify => classifyCheck s
  | .dump => if s.kindValid then dumpkCheck s else some .noKind
  | .dumpkE0 | .dumpkE7 | .dumpkF4 | .dumpkF6 | .dumpkF8 | .dumpkFE | .dumpk2K | .dumpk4K => dumpkCheck s
  | .hotspot _ | .rdbyte _ | .fetrig _ => none
  | .ise0 | .ise7 | .isf4 | .isf6 | .isf8 | .is2k | .isfe => none

/-- The event the command in progress issues next, and its course after it: a function of CUR_CMD, KIND and SEQ_POS
(R21). -/
def State.nextEvent (s : State) : Option (Micro × Routine) :=
  match decode s.curCmd with
  | .illegal _ => none
  | .command i =>
    match routineOf i s.kind with
    | none => none
    | some r => r.place s.seqPos.toNat

/-- Present words at the command port, after those already waiting (R72). -/
def State.present (ws : List Word) (s : State) : State := { s with cmds := s.cmds ++ ws }

/-- The pseudo-operation SESSION (R73). -/
def session : List Word := [encode .classify, encode .dump]

/-- The pseudo-operation QUERY (R74). -/
def query (addr : Addr) : List Word := [encode (.hotspot addr), encode (.rdbyte addr)]

/-- Go on with the command in progress to its end (R23: nothing but reset changes its course). -/
def State.resume (s : State) : Host.Outcome State Fault Refusal :=
  match s.nextEvent with
  | none => .fault .noPosition
  | some (m, k) => .next (k.run (s.issue m))

/-- Take a word from the port and run it to its end, or raise ERR_BADCMD (R72, R119). -/
def State.takeCommand (w : Word) (s : State) : Host.Outcome State Fault Refusal :=
  match decode w with
  | .illegal _ => .next ((s.accept w).raise .badCmd)
  | .command i => exec i (s.accept w)

/-- What `step` does (R72, R127, R134): reset while `rst` is asserted; a command in progress goes on; a block that
is faulted, or for which no word waits, does nothing; else the next word is accepted and run. -/
def State.advance (s : State) : Host.Outcome State Fault Refusal :=
  if s.rst then .next s.resetBlock
  else if s.busy then s.resume
  else if s.faulted then .next s.idle
  else
    match s.cmds with
    | [] => .next s.idle
    | w :: _ => s.takeCommand w

/-- Put a word where the next step takes its command from: first at the port (R72). -/
def State.placeWord (w : Word) (s : State) : State := { s with cmds := w :: s.cmds.tail }

end Sys2Proof.Machine
end

