-- ==== Sys2Proof/Machine/Step.lean ====
section
/-! DEFINITION. One step of the machine, a whole command (R23; log 3), and where its next command stands. -/

namespace Sys2Proof.Machine

/-- One step (R23, R72). -/
def step (s : State) : Host.Outcome State Fault Refusal := s.advance

/-- The state with the table word `w` first at the command port, so that a block that is ready takes it in the next
step (R72; log 4). -/
def State.withFetchWord (s : State) (_nbits w : Nat) : State := s.placeWord (BitVec.ofNat 32 w)

end Sys2Proof.Machine
end

