-- ==== Sys2Proof/Machine/Tick.lean ====
section
/-! DEFINITION. The event-level machine: one tick is one event (R21, R23). Its states between two events of a command
are the ones a reset may find (R134) and the host may read STATUS in (R27). -/

namespace Sys2Proof.Machine

/-- Take a word from the port up to its first event: decode and check (R125), and, where the command issues no
event, its end. -/
def State.beginCommand (w : Word) (s : State) : State :=
  match decode w with
  | .illegal _ => (s.accept w).raise .badCmd
  | .command i =>
    match checkOf i (s.accept w), routineOf i s.kind with
    | some e, _ => (s.accept w).raise e
    | none, some r => r.settle (s.accept w)
    | none, none => (s.accept w).raise .noKind

/-- One tick: as a step, but a command in progress issues one event, and a new one none yet (R23). -/
def tick (s : State) : Host.Outcome State Fault Refusal :=
  if s.rst then .next s.resetBlock
  else if s.busy then
    match s.nextEvent with
    | none => .fault .noPosition
    | some (m, k) => .next (k.settle (s.issue m))
  else if s.faulted then .next s.idle
  else
    match s.cmds with
    | [] => .next s.idle
    | w :: _ => .next (s.beginCommand w)

/-- `n` ticks. -/
def ticks : Nat → State → Host.Outcome State Fault Refusal
  | 0, s => .next s
  | n + 1, s =>
    match tick s with
    | .next t => ticks n t
    | .fault f => .fault f
    | .refused r => .refused r

end Sys2Proof.Machine
end

