-- ==== Sys2Proof/Safety.lean ====
section
/-! DEFINITION. The terms claims are stated in: what an observer at the pins sees of each operation, written from the
rules' own event lists and not from the model's courses; what a command leaves unchanged; the invariants of R32; a
safe bus; the end of a run (R115). -/

namespace Sys2Proof.Machine

/-! ### What an observer sees -/

/-- The events of `assertHotspot(addr)` (R76). -/
def hotspotTrace (addr : Addr) : List Event := [.cs false, .wa addr, .dly, .cs true, .dly]

/-- The events of a range read to a buffer, from `a` on, that sampled these bytes (R78). -/
def readTrace (a : Addr) : List Byte → List Event
  | [] => []
  | b :: bs => .wa a :: .dly :: .rd b :: readTrace (a + 1#12) bs

/-- The events of a range read to OUT, from `a` on, that sampled these bytes (R78). -/
def dumpTrace (a : Addr) : List Byte → List Event
  | [] => []
  | b :: bs => .wa a :: .dly :: .rd b :: .emit b :: dumpTrace (a + 1#12) bs

/-- The events of `feTrigger(p)` (R82). -/
def feTrace (p : Level) : List Event :=
  [.cs false, .d5v p, .d5d true, .wa 0x1F1#12, .dly, .wa 0x1FE#12, .dly, .wa 0x1FF#12, .dly, .d5d false, .cs true, .dly]

/-- The banks of a bank-switched plan, in rising hotspot order from `h` (R104 to R108, R112). -/
def bankTrace (h : Addr) : List (List Byte) → List Event
  | [] => []
  | bs :: rest => hotspotTrace h ++ dumpTrace 0x000#12 bs ++ bankTrace (h + 1#12) rest

/-- The windows a predicate read, in the order it read them (R86); a predicate with two has no `w2` and `w3`. -/
structure Windows where
  w0 : List Byte
  w1 : List Byte
  w2 : List Byte
  w3 : List Byte
  deriving DecidableEq, Repr

/-- How many windows a predicate reads (R86). -/
def Predicate.windowCount : Predicate → Nat
  | .isE0 | .isE7 => 4
  | .isF4 | .isF6 | .isF8 | .is2K | .isFE => 2

/-- The windows have the size the predicate reads (R85): 128 bytes each, and none it does not read. -/
def Predicate.fits (p : Predicate) (w : Windows) : Prop :=
  w.w0.length = 128 ∧ w.w1.length = 128 ∧
    (if p.windowCount = 4 then w.w2.length = 128 ∧ w.w3.length = 128 else w.w2 = [] ∧ w.w3 = [])

/-- The events of each predicate that read these windows (R87 to R93). -/
def Predicate.seen (p : Predicate) (w : Windows) : List Event :=
  match p with
  | .isE0 =>
    hotspotTrace 0xFE8#12 ++ readTrace 0x400#12 w.w0 ++ readTrace 0xC00#12 w.w1 ++
      hotspotTrace 0xFEF#12 ++ readTrace 0x400#12 w.w2 ++ readTrace 0xC00#12 w.w3
  | .isE7 =>
    hotspotTrace 0xFE0#12 ++ readTrace 0x200#12 w.w0 ++ readTrace 0x800#12 w.w1 ++
      hotspotTrace 0xFE1#12 ++ readTrace 0x200#12 w.w2 ++ readTrace 0x800#12 w.w3
  | .isF4 =>
    hotspotTrace 0xFF4#12 ++ readTrace 0x000#12 w.w0 ++ hotspotTrace 0xFF5#12 ++ readTrace 0x000#12 w.w1
  | .isF6 =>
    hotspotTrace 0xFF6#12 ++ readTrace 0x000#12 w.w0 ++ hotspotTrace 0xFF7#12 ++ readTrace 0x000#12 w.w1
  | .isF8 =>
    hotspotTrace 0xFF8#12 ++ readTrace 0x000#12 w.w0 ++ hotspotTrace 0xFF9#12 ++ readTrace 0x000#12 w.w1
  | .is2K => readTrace 0x000#12 w.w0 ++ readTrace 0x800#12 w.w1
  | .isFE => feTrace true ++ readTrace 0x000#12 w.w0 ++ feTrace false ++ readTrace 0x000#12 w.w1

/-- When each predicate is true of its windows (R87 to R93). -/
def Predicate.truth (p : Predicate) (w : Windows) : Bool :=
  match p with
  | .isE0 | .isE7 => decide (w.w0 ≠ w.w2) && decide (w.w1 = w.w3)
  | .isF4 | .isF6 | .isF8 | .isFE => decide (w.w0 ≠ w.w1)
  | .is2K => decide (w.w0 = w.w1)

/-- The bytes sampled in a list of events, in order. -/
def samplesOf : List Event → List Byte
  | [] => []
  | .rd b :: es => b :: samplesOf es
  | .cs _ :: es | .wa _ :: es | .dly :: es | .d5v _ :: es | .d5d _ :: es | .emit _ :: es => samplesOf es

/-- The bytes emitted in a list of events, in order. -/
def emittedOf : List Event → List Byte
  | [] => []
  | .emit b :: es => b :: emittedOf es
  | .cs _ :: es | .wa _ :: es | .dly :: es | .d5v _ :: es | .d5d _ :: es | .rd _ :: es => emittedOf es

/-- The settle delays in a list of events (R148). -/
def delaysOf : List Event → Nat
  | [] => 0
  | .dly :: es => delaysOf es + 1
  | .cs _ :: es | .wa _ :: es | .rd _ :: es | .d5v _ :: es | .d5d _ :: es | .emit _ :: es => delaysOf es

/-- An event without the byte it carries: what the block itself chose (R46). -/
def eventShape : Event → Event
  | .rd _ => .rd 0#8
  | .emit _ => .emit 0#8
  | .cs l => .cs l
  | .wa a => .wa a
  | .dly => .dly
  | .d5v v => .d5v v
  | .d5d d => .d5d d

/-- From `s` to `t` the block issued exactly the events `es`: the record, SEQ_POS, the bytes sampled, OUT and
OUT_CURSOR grew by them, and the environment's listed answers were used up in order, the rest of the samples being
free (R21, R24, R31, R46, R47). -/
def State.issued (s t : State) (es : List Event) : Prop :=
  t.trace = s.trace ++ es ∧
  t.seqPos = s.seqPos + BitVec.ofNat 32 es.length ∧
  t.sampled = (samplesOf es).reverse ++ s.sampled ∧
  s.answers.take (samplesOf es).length <+: samplesOf es ∧
  t.answers = s.answers.drop (samplesOf es).length ∧
  t.samplesTaken = s.samplesTaken + (samplesOf es).length ∧
  t.outRev = (emittedOf es).reverse ++ s.outRev ∧
  t.outCursor = s.outCursor + BitVec.ofNat 32 (emittedOf es).length

/-! ### What a command leaves unchanged -/

/-- `s` idle after a command, with the count of events, the samples, the record and the answers left of `t`: what
every command that completes changes. A statement `t = { s.endedAs t with … }` says that nothing else changed but
what it lists. -/
def State.endedAs (s t : State) : State :=
  { s with
    busy := false
    done := true
    seqPos := t.seqPos
    sampled := t.sampled
    traceRev := t.traceRev
    answers := t.answers
    samplesTaken := t.samplesTaken }

/-- `s` after a fault (R124), seen by the host with the `done` pulse: nothing else changed. -/
def State.faultedWith (s : State) (code : BitVec 4) : State :=
  { s with faulted := true, err := code, faultCmd := s.curCmd, busy := false, done := true }

/-- `s` just after it accepted the word `w`, the words `ws` still waiting (R72). -/
def State.accepted (s : State) (w : Word) (ws : List Word) : State :=
  { s with busy := true, curCmd := w, seqPos := 0#32, sampled := [], done := false, cmds := ws }

/-- The block takes the first waiting word in its next step: no reset, `cmd_ready` = 1 (R72, R134). -/
def State.ready (s : State) : Prop := s.rst = false ∧ s.busy = false ∧ s.faulted = false

/-- Every register has the value R33 lists. The cells of the buffers hold no value then and are not named. -/
def State.hasResetValues (s : State) : Prop :=
  s.busy = false ∧ s.curCmd = 0#32 ∧ s.seqPos = 0#32 ∧
  s.hsCur = 0#12 ∧ s.aCur = 0#12 ∧ s.nLeft = 0#13 ∧ s.stage = 0#4 ∧
  s.kind = none ∧ s.res = 0x00#8 ∧ (∀ k, (s.buffer k).len = 0#8) ∧
  s.a = 0x000#12 ∧ s.csN = true ∧ s.d5Oe = false ∧ s.d5Out = false ∧ s.busDir = .toHost ∧
  s.outCursor = 0#32 ∧ s.faulted = false ∧ s.err = 0#4 ∧ s.faultCmd = 0#32

/-- The buffer holds exactly these bytes (R18, R78). -/
def Buffer.holds (x : Buffer) (bs : List Byte) : Prop :=
  x.len.toNat = bs.length ∧ ∀ i, i < bs.length → x.cells[i]? = bs[i]?

/-- The address a range read of `n` bytes from `addr` leaves on the bus: its last, or, for `n` = 0, the one that was
there (R79). -/
def lastAddr (old addr : Addr) : Nat → Addr
  | 0 => old
  | n + 1 => addr + BitVec.ofNat 12 n

/-! ### Sizes and the end of a run -/

/-- The size of a kind's dump in bytes (R63, R110). -/
def dumpSize : MapperKind → Nat
  | .k2 => 2048
  | .k4 => 4096
  | .e0 => 8192
  | .e7 => 16384
  | .f4 => 32768
  | .f6 => 16384
  | .f8 => 8192
  | .fe => 8192

/-- The run that ended in `t` with the DUMP accepted in `s` has ended well (R115). -/
def State.endedWell (s t : State) : Prop :=
  t.busy = false ∧ t.faulted = false ∧
    ∃ k, t.kind = some k ∧ s.out <+: t.out ∧ t.out.length = s.out.length + dumpSize k

/-- The predicates CLASSIFY evaluates before it answers a kind, in order, each false but, for every kind other than
4K, the last, which is true (R95, R96). -/
def chainOf : MapperKind → List (Predicate × Bool)
  | .e0 => [(.isE0, true)]
  | .e7 => [(.isE0, false), (.isE7, true)]
  | .f4 => []
  | .f6 => [(.isE0, false), (.isE7, false), (.isF6, true)]
  | .f8 => [(.isE0, false), (.isE7, false), (.isF6, false), (.isF8, true)]
  | .fe => [(.isE0, false), (.isE7, false), (.isF6, false), (.isF8, false), (.isFE, true)]
  | .k2 => [(.isE0, false), (.isE7, false), (.isF6, false), (.isF8, false), (.isFE, false), (.is2K, true)]
  | .k4 => [(.isE0, false), (.isE7, false), (.isF6, false), (.isF8, false), (.isFE, false), (.is2K, false)]

/-- The events and the settle delays of CLASSIFY by verdict (R96); no verdict is F4 (R98). -/
def classifyCount : MapperKind → Nat × Nat
  | .e0 => (1546, 516)
  | .e7 => (3092, 1032)
  | .f4 => (0, 0)
  | .f6 => (3870, 1292)
  | .f8 => (4648, 1552)
  | .fe => (5440, 1816)
  | .k2 => (6208, 2072)
  | .k4 => (6208, 2072)

/-- The events and the settle delays of a plan (R102 to R109, R148). -/
def planCount : MapperKind → Nat × Nat
  | .k2 => (8192, 2048)
  | .k4 => (16384, 4096)
  | .e0 => (32808, 8208)
  | .e7 => (65571, 16398)
  | .f4 => (131112, 32784)
  | .f6 => (65556, 16392)
  | .f8 => (32778, 8196)
  | .fe => (32792, 8200)

/-- These windows, one set a predicate, make each predicate of a chain answer as the chain says. -/
def chainHolds : List (Predicate × Bool) → List Windows → Prop
  | [], [] => True
  | (p, r) :: ps, w :: ws => p.fits w ∧ p.truth w = r ∧ chainHolds ps ws
  | _, _ => False

/-- The events of a chain that read these windows. -/
def chainSeen : List (Predicate × Bool) → List Windows → List Event
  | (p, _) :: ps, w :: ws => p.seen w ++ chainSeen ps ws
  | _, _ => []

/-! ### Invariants (R32) -/

/-- What holds of the block between two commands (R26, R30, R32, R45, R98). -/
def State.inv (s : State) : Prop :=
  s.busy = false ∧ s.csN = true ∧ s.d5Oe = false ∧ s.busDir = .toHost ∧
  (∀ k, (s.buffer k).len.toNat ≤ 128) ∧
  (s.faulted = false → s.err = 0#4 ∧ s.faultCmd = 0#32) ∧
  (s.faulted = true → 1 ≤ s.err.toNat ∧ s.err.toNat ≤ 5) ∧
  s.kind ≠ some .f4 ∧
  s.outCursor = BitVec.ofNat 32 (emittedOf s.trace).length

/-- What holds of the block between any two events too (R26, R32 (c), (e) and (f), R98), and that a range read to a
buffer in progress has passed its check (R79, R126). -/
def State.tickInv (s : State) : Prop :=
  s.busDir = .toHost ∧
  (∀ k, (s.buffer k).len.toNat ≤ 128) ∧
  (s.faulted = true → s.busy = false ∧ 1 ≤ s.err.toNat ∧ s.err.toNat ≤ 5) ∧
  (s.faulted = false → s.err = 0#4 ∧ s.faultCmd = 0#32) ∧
  s.kind ≠ some .f4 ∧
  (s.busy = true →
    ∀ k addr len, decode s.curCmd = .command (.rdrange (.buf k) addr len) → len.toNat ≤ Config.bufCap)

/-- What an observer of the pins keeps track of: the lines, whether a settle delay has passed since the last change
(R56), and the byte of a sample just taken. -/
structure BusView where
  csN : Level
  d5Oe : Level
  settled : Bool
  fresh : Option Byte
  deriving DecidableEq, Repr

/-- One event on a safe bus, `none` if it is not safe: a sample is settled, with chip-select de-asserted and data
line 5 released (R51, R56, R139, R145), and a byte is emitted once, right after its own sample (R78, R112). -/
def BusView.next (v : BusView) : Event → Option BusView
  | .cs l => some { v with csN := l, settled := false, fresh := none }
  | .wa _ => some { v with settled := false, fresh := none }
  | .dly => some { v with settled := true, fresh := none }
  | .d5v _ => some { v with settled := false, fresh := none }
  | .d5d d => some { v with d5Oe := d, settled := false, fresh := none }
  | .rd b => if v.settled && v.csN && !v.d5Oe then some { v with fresh := some b } else none
  | .emit b => if v.fresh = some b then some { v with fresh := none } else none

/-- Follow a list of events on a safe bus. -/
def BusView.follow : List Event → BusView → Option BusView
  | [], v => some v
  | e :: es, v =>
    match v.next e with
    | some v' => BusView.follow es v'
    | none => none

/-- The lines as reset leaves them (R33). -/
def BusView.reset : BusView := { csN := true, d5Oe := false, settled := false, fresh := none }

/-- The bus was safe ever since reset, and the observer's lines are the block's. -/
def State.busSafe (s : State) : Prop :=
  ∃ v, BusView.follow s.trace BusView.reset = some v ∧ v.csN = s.csN ∧ v.d5Oe = s.d5Oe

/-- Addresses that are hotspots of some plan (R141): 0xFE0 to 0xFE7 and 0xFF4 to 0xFFB. -/
def planHotspot (a : Addr) : Bool :=
  (decide (0xFE0 ≤ a.toNat) && decide (a.toNat ≤ 0xFE7)) || (decide (0xFF4 ≤ a.toNat) && decide (a.toNat ≤ 0xFFB))

/-- The address is in the "control" region a hotspot lies in (R9, R14). -/
def inControlRegion (a : Addr) : Bool :=
  decide (Config.hotspotLo.toNat ≤ a.toNat) && decide (a.toNat ≤ Config.hotspotHi.toNat)

/-- The addresses presented while chip-select is asserted, in order, by a list of events that begins with chip-select
at level `l` (R14: a hotspot acts when it is addressed with chip-select asserted). -/
def selectedAddrs : Level → List Event → List Addr
  | _, [] => []
  | _, .cs l :: es => selectedAddrs l es
  | l, .wa a :: es => if l then selectedAddrs l es else a :: selectedAddrs l es
  | l, .dly :: es | l, .rd _ :: es | l, .d5v _ :: es | l, .d5d _ :: es | l, .emit _ :: es => selectedAddrs l es

/-- No event of the list asserts chip-select while the bus, which first carries `a`, carries such an address
(R141). -/
def neverStale : Addr → List Event → Bool
  | _, [] => true
  | a, .cs l :: es => (l || !planHotspot a) && neverStale a es
  | _, .wa a' :: es => neverStale a' es
  | a, .dly :: es | a, .rd _ :: es | a, .d5v _ :: es | a, .d5d _ :: es | a, .emit _ :: es => neverStale a es

end Sys2Proof.Machine
end

