-- ==== Sys2Proof/WellFormed.lean ====
section
/-! DEFINITION. Which terms of `Instr` are commands a word can carry. -/

namespace Sys2Proof

/-- The one operand constraint the types do not already say: LEN of RDRANGE is at most 4096 (R62, R68). -/
def Instr.wellFormed : Instr → Bool
  | .rdrange _ _ len => decide (len.toNat ≤ Config.rangeMax)
  | .hotspot _ | .rdbyte _ | .bufeq _ _ _ | .fetrig _ => true
  | .ise0 | .ise7 | .isf4 | .isf6 | .isf8 | .is2k | .isfe => true
  | .classify | .dump => true
  | .dumpkE0 | .dumpkE7 | .dumpkF4 | .dumpkF6 | .dumpkF8 | .dumpkFE | .dumpk2K | .dumpk4K => true

end Sys2Proof
end

