-- ==== Sys2Proof/Certificates/Slice0/Obligations.lean ====
section
/-! DEFINITION. The statements for the provers. Where a statement rests on a convention of the model and not on a
rule of the spec, its docstring names the log entry. -/

open Sys2Proof Sys2Proof.Machine

/-! ### Encoding -/

/-- One word a form, written out from R60 and R62 to R66, decodes to its command. -/
def Obligations.WrittenOutWordsDecode : Prop :=
  decode 0x10000FF8#32 = .command (.hotspot 0xFF8#12) ∧
  decode 0x20000200#32 = .command (.rdbyte 0x200#12) ∧
  decode 0x38004FFC#32 = .command (.rdrange .out 0xFFC#12 4#13) ∧
  decode 0x30004FFE#32 = .command (.rdrange (.buf .b0) 0xFFE#12 4#13) ∧
  decode 0x40080001#32 = .command (.bufeq .b0 .b1 128#13) ∧
  decode 0x52000000#32 = .command (.fetrig true) ∧
  decode 0x6C000000#32 = .command .isfe ∧
  decode 0x70000000#32 = .command .classify ∧
  decode 0x80000000#32 = .command .dump ∧
  decode 0x9A000000#32 = .command .dumpkFE ∧
  decode 0x9C000000#32 = .command .dumpk2K ∧
  decode 0x00000000#32 = .illegal .op

/-- Decoding the word of a well-formed command gives the command back, for every operand (R62, R70, R71). -/
def Obligations.DecodeOfEncode : Prop :=
  ∀ i : Instr, i.wellFormed = true → decode (encode i) = .command i

/-- A word that decodes to a command is the word of that command, and the command is well formed: no two words are
one command, and no bit of a word is ignored (R67, R69). -/
def Obligations.EncodeOfDecode : Prop :=
  ∀ (w : Word) (i : Instr), decode w = .command i → i.wellFormed = true ∧ encode i = w

/-- Every row of R62: a word is that operation, with the operands its fields hold, exactly when its masked bits
match and the row's constraints hold. -/
def Obligations.DecoderMatchesTheTable : Prop :=
  ∀ w : Word,
    (decode w = .command (.hotspot (addrField w)) ↔ w &&& 0xFFFFF000#32 = 0x10000000#32) ∧
    (decode w = .command (.rdbyte (addrField w)) ↔ w &&& 0xFFFFF000#32 = 0x20000000#32) ∧
    ((∃ dst : Dest, dst.code = selField w ∧ decode w = .command (.rdrange dst (addrField w) (lenField w))) ↔
      w &&& 0xF0000000#32 = 0x30000000#32 ∧ (selField w).toNat ≤ 4 ∧ (lenField w).toNat ≤ 4096) ∧
    ((∃ a b : BufId, a.code = w.extractLsb' 25 2 ∧ b.code = w.extractLsb' 0 2 ∧
        decode w = .command (.bufeq a b (lenField w))) ↔
      w &&& 0xF8000FFC#32 = 0x40000000#32) ∧
    (decode w = .command (.fetrig (w.getLsbD 25)) ↔ w &&& 0xFDFFFFFF#32 = 0x50000000#32) ∧
    (decode w = .command .ise0 ↔ w = 0x60000000#32) ∧
    (decode w = .command .ise7 ↔ w = 0x62000000#32) ∧
    (decode w = .command .isf4 ↔ w = 0x64000000#32) ∧
    (decode w = .command .isf6 ↔ w = 0x66000000#32) ∧
    (decode w = .command .isf8 ↔ w = 0x68000000#32) ∧
    (decode w = .command .is2k ↔ w = 0x6A000000#32) ∧
    (decode w = .command .isfe ↔ w = 0x6C000000#32) ∧
    (decode w = .command .classify ↔ w = 0x70000000#32) ∧
    (decode w = .command .dump ↔ w = 0x80000000#32) ∧
    (decode w = .command .dumpkE0 ↔ w = 0x90000000#32) ∧
    (decode w = .command .dumpkE7 ↔ w = 0x92000000#32) ∧
    (decode w = .command .dumpkF4 ↔ w = 0x94000000#32) ∧
    (decode w = .command .dumpkF6 ↔ w = 0x96000000#32) ∧
    (decode w = .command .dumpkF8 ↔ w = 0x98000000#32) ∧
    (decode w = .command .dumpkFE ↔ w = 0x9A000000#32) ∧
    (decode w = .command .dumpk2K ↔ w = 0x9C000000#32) ∧
    (decode w = .command .dumpk4K ↔ w = 0x9E000000#32)

/-- The illegal words are exactly those R68 lists, the last three lines of the list being its "any word with a
non-zero must-be-zero field" (R67). -/
def Obligations.IllegalWordsExactly : Prop :=
  ∀ w : Word,
    (∃ r, decode w = .illegal r) ↔
      (opField w = 0#4) ∨ (10 ≤ (opField w).toNat) ∨
      (opField w = 6#4 ∧ selField w = 7#3) ∨
      (opField w = 3#4 ∧ (5 ≤ (selField w).toNat ∨ 4096 < (lenField w).toNat)) ∨
      (opField w = 4#4 ∧ (w.getLsbD 27 = true ∨ w.extractLsb' 2 10 ≠ 0#10)) ∨
      ((opField w = 1#4 ∨ opField w = 2#4) ∧ (selField w ≠ 0#3 ∨ lenField w ≠ 0#13)) ∨
      (opField w = 5#4 ∧ (w.extractLsb' 26 2 ≠ 0#2 ∨ lenField w ≠ 0#13 ∨ addrField w ≠ 0#12)) ∨
      ((opField w = 7#4 ∨ opField w = 8#4) ∧ (selField w ≠ 0#3 ∨ lenField w ≠ 0#13 ∨ addrField w ≠ 0#12)) ∨
      ((opField w = 6#4 ∨ opField w = 9#4) ∧ (lenField w ≠ 0#13 ∨ addrField w ≠ 0#12))

/-! ### The command port, reset, the host's registers -/

/-- A ready block takes the first waiting word and its step is `exec` of the command the word decodes to, in the
state the acceptance leaves (R72, R23). -/
def Obligations.StepRunsTheDecodedCommand : Prop :=
  ∀ (s : State) (w : Word) (ws : List Word) (i : Instr),
    s.ready → s.cmds = w :: ws → decode w = .command i → step s = exec i (s.accepted w ws)

/-- An illegal word is accepted, raises ERR_BADCMD and does nothing else (R68, R119, R124). -/
def Obligations.IllegalWordFaults : Prop :=
  ∀ (s : State) (w : Word) (ws : List Word) (r : Reject),
    s.ready → s.cmds = w :: ws → decode w = .illegal r →
      step s = .next ((s.accepted w ws).faultedWith 1#4)

/-- A block that is faulted, or for which no word waits, accepts nothing and issues nothing: only the `done` pulse of
an earlier command ends (R72, R127, R135; the pulse's form is log 15). -/
def Obligations.IdleOrFaultedBlockDoesNothing : Prop :=
  ∀ s : State, s.rst = false → s.busy = false → (s.faulted = true ∨ s.cmds = []) →
    step s = .next { s with done := false } ∧ tick s = .next { s with done := false }

/-- Every register has its value of R33 after reset. -/
def Obligations.ResetState : Prop := State.reset.hasResetValues

/-- While `rst` is asserted every register takes its value of R33, between commands and in the middle of one; the
bytes already emitted stay (R134). -/
def Obligations.ResetInput : Prop :=
  ∀ s : State, s.rst = true →
    ∃ t, step s = .next t ∧ tick s = .next t ∧ t.hasResetValues ∧ t.out = s.out

/-- Reset does not reset the environment (R136): what the host holds at the inputs, the answers to come, the bytes
presented and what the environment has seen, of the session that ends too, are as they were; and the next sample the
state lists no answer for depends on all of it (logs 1, 2 and 17). -/
def Obligations.ResetKeepsTheEnvironment : Prop :=
  ∀ s : State, s.rst = true →
    ∃ t, step s = .next t ∧ tick s = .next t ∧
      t.rst = s.rst ∧ t.cmds = s.cmds ∧ t.outAvail = s.outAvail ∧
      t.answers = s.answers ∧ t.samplesTaken = s.samplesTaken ∧ t.out = s.out ∧
      t.traceRev = [] ∧ t.earlierSessions = s.traceRev :: s.earlierSessions ∧
      (s.answers = [] → t.lineByte = Config.dataLines s.samplesTaken [] (s.traceRev :: s.earlierSessions))

/-- What the host's read port gives, field by field, and zeros after reset (R27). -/
def Obligations.HostRegistersRead : Prop :=
  (∀ sel, State.reset.hostReg sel = 0#32) ∧ ∀ s : State,
    (s.hostReg 0#2).getLsbD 0 = s.busy ∧
    (s.hostReg 0#2).getLsbD 1 = s.faulted ∧
    (s.hostReg 0#2).getLsbD 2 = s.kind.isSome ∧
    (s.hostReg 0#2).extractLsb' 3 3 = (s.kind.elim 0#3 MapperKind.code) ∧
    (s.hostReg 0#2).extractLsb' 6 4 = s.err ∧
    (s.hostReg 0#2).extractLsb' 10 8 = s.res ∧
    (s.hostReg 0#2).extractLsb' 18 14 = 0#14 ∧
    s.hostReg 1#2 = s.faultCmd ∧
    s.hostReg 2#2 = s.outCursor ∧
    s.hostReg 3#2 = 0#32

/-! ### Events and the position -/

/-- What each event but a sample does to the registers, and that it does nothing else: its own line or cursor, one
more in SEQ_POS, one more in the observer's record (R39, R40, R41, R43, R44, R47, R21, R31). -/
def Obligations.EventEffects : Prop :=
  ∀ (s : State) (b : Byte) (bs : List Byte),
    (∀ l, s.act (.cs l) = { s with csN := l, seqPos := s.seqPos + 1, traceRev := .cs l :: s.traceRev }) ∧
    (∀ a, s.act (.wa a) = { s with a := a, seqPos := s.seqPos + 1, traceRev := .wa a :: s.traceRev }) ∧
    s.act .dly = { s with seqPos := s.seqPos + 1, traceRev := .dly :: s.traceRev } ∧
    (∀ v, s.act (.d5v v) = { s with d5Out := v, seqPos := s.seqPos + 1, traceRev := .d5v v :: s.traceRev }) ∧
    (∀ d, s.act (.d5d d) = { s with d5Oe := d, seqPos := s.seqPos + 1, traceRev := .d5d d :: s.traceRev }) ∧
    (s.sampled = b :: bs → s.act .emit =
      { s with
        outCursor := s.outCursor + 1
        outRev := b :: s.outRev
        seqPos := s.seqPos + 1
        traceRev := .emit b :: s.traceRev })

/-- One tick of a command in progress issues exactly one event, and counts it (R21, R23). -/
def Obligations.TickIsOneEvent : Prop :=
  ∀ s t : State, s.rst = false → s.busy = true → tick s = .next t →
    ∃ e, t.trace = s.trace ++ [e] ∧ t.seqPos = s.seqPos + 1

/-- While a command goes on, the verdict, RES and the fault registers are as they were before it: results are written
when it ends (R72, R27). -/
def Obligations.ResultsAreWrittenAtTheEnd : Prop :=
  ∀ s t : State, s.rst = false → s.busy = true → tick s = .next t → t.busy = true →
    t.kind = s.kind ∧ t.res = s.res ∧ t.faulted = s.faulted ∧ t.err = s.err ∧ t.faultCmd = s.faultCmd ∧
      t.curCmd = s.curCmd ∧ t.cmds = s.cmds

/-- Running a command as one function is the same as stepping it event by event (R23; the two machines are log 3): what
`step` answers, some number of ticks answers too, the inputs keeping their values over them (log 24). -/
def Obligations.TicksRefineStep : Prop :=
  ∀ s t : State, step s = .next t → ∃ n, ticks n s = .next t

/-- The named cursors follow the course (R22; at which event a cursor moves is log 7): after `i` whole turns of a range
read, four events each to OUT and three to a buffer, A_CUR and N_LEFT stand at the next byte; from the first event of a bank HS_CUR is its hotspot; STAGE numbers the
call. -/
def Obligations.NamedCursorsFollowTheCourse : Prop :=
  ∀ s : State,
    (∀ (a : Addr) (n i : Nat), n ≤ 4096 → 0 < i → i ≤ n →
      (State.issueAll ((readRange a n .out).take (4 * i)) s).aCur = a + BitVec.ofNat 12 i ∧
      (State.issueAll ((readRange a n .out).take (4 * i)) s).nLeft = BitVec.ofNat 13 (n - i)) ∧
    (∀ (k : BufId) (a : Addr) (n i : Nat), n ≤ 128 → 0 < i → i ≤ n →
      (State.issueAll ((readRange a n (.buf k)).take (3 * i)) s).aCur = a + BitVec.ofNat 12 i ∧
      (State.issueAll ((readRange a n (.buf k)).take (3 * i)) s).nLeft = BitVec.ofNat 13 (n - i)) ∧
    (∀ (h : Addr) (n j : Nat), 0 < j →
      (State.issueAll ((bankCalls n h).flatten.take j) s).hsCur = h) ∧
    (∀ (cs : List (List Micro)) (c : List Micro) (m : Nat), c ≠ [] →
      (State.issueAll (numberCalls m (cs ++ [c])) s).stage = BitVec.ofNat 4 (m + cs.length))

/-! ### The Probe Engine -/

/-- HOTSPOT completes from every state: its five events, A and CS_N at the end, and nothing else changed (R76). -/
def Obligations.HotspotResult : Prop :=
  ∀ (addr : Addr) (s : State),
    encode (.hotspot addr) = packWord 1#4 0#3 0#13 addr ∧
    ∃ t, exec (.hotspot addr) s = .next t ∧
      s.issued t [.cs false, .wa addr, .dly, .cs true, .dly] ∧
      t = { s.endedAs t with a := addr, csN := true }

/-- RDBYTE completes from every state: its three events, and RES is the byte sampled (R77). -/
def Obligations.RdbyteResult : Prop :=
  ∀ (addr : Addr) (s : State),
    encode (.rdbyte addr) = packWord 2#4 0#3 0#13 addr ∧
    ∃ t b, exec (.rdbyte addr) s = .next t ∧
      s.issued t [.wa addr, .dly, .rd b] ∧
      t = { s.endedAs t with a := addr, res := b }

/-- RDRANGE to a buffer, of a length the buffer can hold, completes from every state: the buffer holds exactly the
bytes sampled, in order, the other buffers keep theirs, and A is the last address read (R78, R79). -/
def Obligations.RdrangeToBuffer : Prop :=
  ∀ (k : BufId) (addr : Addr) (len : Len) (s : State), len.toNat ≤ 128 →
    ∃ t bs, exec (.rdrange (.buf k) addr len) s = .next t ∧ bs.length = len.toNat ∧
      s.issued t (readTrace addr bs) ∧
      (t.buffer k).holds bs ∧ (∀ j, j ≠ k → t.buffer j = s.buffer j) ∧
      t = { s.endedAs t with
            a := lastAddr s.a addr len.toNat, b0 := t.b0, b1 := t.b1, b2 := t.b2, b3 := t.b3,
            aCur := t.aCur, nLeft := t.nLeft }

/-- RDRANGE to OUT with a destination completes from every state: each byte is emitted right after its own sample, in
order, and A is the last address read (R78, R79, R47). -/
def Obligations.RdrangeToOut : Prop :=
  ∀ (addr : Addr) (len : Len) (s : State), s.outAvail = true →
    ∃ t bs, exec (.rdrange .out addr len) s = .next t ∧ bs.length = len.toNat ∧
      s.issued t (dumpTrace addr bs) ∧
      t.out = s.out ++ bs ∧ t.outCursor = s.outCursor + BitVec.ofNat 32 len.toNat ∧
      t = { s.endedAs t with
            a := lastAddr s.a addr len.toNat, outCursor := t.outCursor, outRev := t.outRev,
            aCur := t.aCur, nLeft := t.nLeft }

/-- RDRANGE's two faults: a buffer cannot hold more than 128 bytes, and OUT needs a destination, whatever the length
(R79, R118, R122, R124). -/
def Obligations.RdrangeFaults : Prop :=
  ∀ (addr : Addr) (len : Len) (s : State),
    (∀ k, 128 < len.toNat → exec (.rdrange (.buf k) addr len) s = .next (s.faultedWith 5#4)) ∧
    (s.outAvail = false → exec (.rdrange .out addr len) s = .next (s.faultedWith 2#4))

/-- A range read is restartable: the same range, answered alike, gives the same bytes, whatever the rest of the state:
emitted, or held by a buffer, the same one or another (R52, R83). -/
def Obligations.RangeReadIsRestartable : Prop :=
  ∀ (addr : Addr) (len : Len) (s s' : State) (xs ys ys' : List Byte),
    xs.length = len.toNat → s.answers = xs ++ ys → s'.answers = xs ++ ys' →
    (s.outAvail = true → s'.outAvail = true →
      ∃ t t', exec (.rdrange .out addr len) s = .next t ∧ exec (.rdrange .out addr len) s' = .next t' ∧
        t.out = s.out ++ xs ∧ t'.out = s'.out ++ xs) ∧
    (∀ k k' : BufId, len.toNat ≤ 128 →
      ∃ t t', exec (.rdrange (.buf k) addr len) s = .next t ∧ exec (.rdrange (.buf k') addr len) s' = .next t' ∧
        (t.buffer k).holds xs ∧ (t'.buffer k').holds xs)

/-- BUFEQ: of a length both buffers have, RES is 1 exactly when the cells below the length agree, and nothing else
changes, so no event is issued; of a length one of them has not, ERR_BUFLEN and never a value (R80, R81, R122). -/
def Obligations.BufeqResult : Prop :=
  ∀ (a b : BufId) (len : Len) (s : State),
    encode (.bufeq a b len) = packWord 4#4 (0#1 ++ a.code) len (0#10 ++ b.code) ∧
    (len.toNat ≤ (s.buffer a).len.toNat → len.toNat ≤ (s.buffer b).len.toNat →
      ∃ r : Bool, exec (.bufeq a b len) s =
          .next { s with busy := false, done := true, res := if r then 0x01#8 else 0x00#8 } ∧
        (r = true ↔ ∀ i, i < len.toNat → (s.buffer a).cells[i]? = (s.buffer b).cells[i]?)) ∧
    ((s.buffer a).len.toNat < len.toNat ∨ (s.buffer b).len.toNat < len.toNat →
      exec (.bufeq a b len) s = .next (s.faultedWith 5#4))

/-- FETRIG completes from every state: its twelve events and the lines at its end (R82). -/
def Obligations.FetrigResult : Prop :=
  ∀ (p : Level) (s : State),
    encode (.fetrig p) = packWord 5#4 (if p then 1#3 else 0#3) 0#13 0#12 ∧
    ∃ t, exec (.fetrig p) s = .next t ∧
      s.issued t
        [.cs false, .d5v p, .d5d true, .wa 0x1F1#12, .dly, .wa 0x1FE#12, .dly, .wa 0x1FF#12, .dly,
         .d5d false, .cs true, .dly] ∧
      t = { s.endedAs t with a := 0x1FF#12, csN := true, d5Oe := false, d5Out := p }

/-! ### The predicates -/

/-- ISE0 and ISE7 complete from every state: they read their four windows, answer whether the first window changed
and the second did not, and release the four buffers (R87 with the spec's supplied hotspots, log 9; R88, log 10). -/
def Obligations.FourWindowPredicates : Prop :=
  ∀ s : State,
    (∃ (w : Windows) (t : State), exec .ise0 s = .next t ∧
      w.w0.length = 128 ∧ w.w1.length = 128 ∧ w.w2.length = 128 ∧ w.w3.length = 128 ∧
      s.issued t (hotspotTrace 0xFE8#12 ++ readTrace 0x400#12 w.w0 ++ readTrace 0xC00#12 w.w1 ++
        hotspotTrace 0xFEF#12 ++ readTrace 0x400#12 w.w2 ++ readTrace 0xC00#12 w.w3) ∧
      (∀ k, (t.buffer k).len = 0#8) ∧
      t = { s.endedAs t with
            a := 0xC7F#12, csN := true, res := if w.w0 ≠ w.w2 ∧ w.w1 = w.w3 then 0x01#8 else 0x00#8,
            b0 := t.b0, b1 := t.b1, b2 := t.b2, b3 := t.b3,
            aCur := t.aCur, nLeft := t.nLeft, stage := t.stage }) ∧
    (∃ (w : Windows) (t : State), exec .ise7 s = .next t ∧
      w.w0.length = 128 ∧ w.w1.length = 128 ∧ w.w2.length = 128 ∧ w.w3.length = 128 ∧
      s.issued t (hotspotTrace 0xFE0#12 ++ readTrace 0x200#12 w.w0 ++ readTrace 0x800#12 w.w1 ++
        hotspotTrace 0xFE1#12 ++ readTrace 0x200#12 w.w2 ++ readTrace 0x800#12 w.w3) ∧
      (∀ k, (t.buffer k).len = 0#8) ∧
      t = { s.endedAs t with
            a := 0x87F#12, csN := true, res := if w.w0 ≠ w.w2 ∧ w.w1 = w.w3 then 0x01#8 else 0x00#8,
            b0 := t.b0, b1 := t.b1, b2 := t.b2, b3 := t.b3,
            aCur := t.aCur, nLeft := t.nLeft, stage := t.stage })

/-- ISF4, ISF6 and ISF8 complete from every state: they read 128 bytes at 0 after each of their two hotspots, answer
whether the two reads differ, and release B0 and B1 (R89 to R91, R94). -/
def Obligations.HotspotPairPredicates : Prop :=
  ∀ (s : State) (i : Instr) (word : Word) (h h' : Addr),
    (i, word, h, h') ∈ [(Instr.isf4, 0x64000000#32, 0xFF4#12, 0xFF5#12),
      (Instr.isf6, 0x66000000#32, 0xFF6#12, 0xFF7#12), (Instr.isf8, 0x68000000#32, 0xFF8#12, 0xFF9#12)] →
    encode i = word ∧
    ∃ (x y : List Byte) (es : List Event) (t : State), exec i s = .next t ∧ x.length = 128 ∧ y.length = 128 ∧
      es = hotspotTrace h ++ readTrace 0x000#12 x ++ hotspotTrace h' ++ readTrace 0x000#12 y ∧
      s.issued t es ∧ es.length = 778 ∧ delaysOf es = 260 ∧
      t.b0.len = 0#8 ∧ t.b1.len = 0#8 ∧
      t = { s.endedAs t with
            a := 0x07F#12, csN := true, res := if x ≠ y then 0x01#8 else 0x00#8,
            b0 := t.b0, b1 := t.b1, aCur := t.aCur, nLeft := t.nLeft, stage := t.stage }

/-- IS2K completes from every state: it reads 128 bytes at 0 and at 0x800 without a bank switch, answers whether they
are equal, and releases B0 and B1 (R92, R94). -/
def Obligations.Is2kResult : Prop :=
  encode .is2k = 0x6A000000#32 ∧ ∀ s : State,
    ∃ (x y : List Byte) (es : List Event) (t : State), exec .is2k s = .next t ∧ x.length = 128 ∧ y.length = 128 ∧
      es = readTrace 0x000#12 x ++ readTrace 0x800#12 y ∧
      s.issued t es ∧ es.length = 768 ∧ delaysOf es = 256 ∧
      t.b0.len = 0#8 ∧ t.b1.len = 0#8 ∧
      t = { s.endedAs t with
            a := 0x87F#12, res := if x = y then 0x01#8 else 0x00#8,
            b0 := t.b0, b1 := t.b1, aCur := t.aCur, nLeft := t.nLeft, stage := t.stage }

/-- ISFE completes from every state: it reads 128 bytes at 0 after the high and after the low trigger, answers whether
they differ, and releases B0 and B1 (R93, R94). -/
def Obligations.IsfeResult : Prop :=
  encode .isfe = 0x6C000000#32 ∧ ∀ s : State,
    ∃ (x y : List Byte) (es : List Event) (t : State), exec .isfe s = .next t ∧ x.length = 128 ∧ y.length = 128 ∧
      es = feTrace true ++ readTrace 0x000#12 x ++ feTrace false ++ readTrace 0x000#12 y ∧
      s.issued t es ∧ es.length = 792 ∧ delaysOf es = 264 ∧
      t.b0.len = 0#8 ∧ t.b1.len = 0#8 ∧
      t = { s.endedAs t with
            a := 0x07F#12, csN := true, d5Oe := false, d5Out := false, res := if x ≠ y then 0x01#8 else 0x00#8,
            b0 := t.b0, b1 := t.b1, aCur := t.aCur, nLeft := t.nLeft, stage := t.stage }

/-! ### CLASSIFY -/

/-- CLASSIFY with no verdict completes: it evaluates the predicates of R95's chain in order, up to the first that is
true, and writes that one's kind, 4K when none is true, to KIND and RES; the predicates after the first true one
issue no event (R95, R96, R97; isE0's hotspots are the spec's supplied ones, log 9, isE7's its inference, log 10, the
trigger's order its filling-in, log 11, and that later predicates are skipped its reading, log 12). -/
def Obligations.ClassifyVerdict : Prop :=
  encode .classify = 0x70000000#32 ∧ ∀ s : State, s.kind = none →
    ∃ (k : MapperKind) (ws : List Windows) (t : State), exec .classify s = .next t ∧ k ≠ .f4 ∧
      chainHolds (chainOf k) ws ∧ s.issued t (chainSeen (chainOf k) ws) ∧
      (∀ j, (t.buffer j).len = 0#8) ∧
      t = { s.endedAs t with
            kind := some k, res := k.code.zeroExtend 8, csN := true,
            a := (if k = .e0 then 0xC7F#12 else if k = .e7 ∨ k = .k2 ∨ k = .k4 then 0x87F#12 else 0x07F#12),
            d5Oe := (if k = .fe ∨ k = .k2 ∨ k = .k4 then false else s.d5Oe),
            d5Out := (if k = .fe ∨ k = .k2 ∨ k = .k4 then false else s.d5Out),
            b0 := t.b0, b1 := t.b1, b2 := t.b2, b3 := t.b3,
            aCur := t.aCur, nLeft := t.nLeft, stage := t.stage }

/-- The events and settle delays of CLASSIFY, by verdict (R96). -/
def Obligations.ClassifyEventCounts : Prop :=
  ∀ s : State, s.kind = none →
    ∃ (k : MapperKind) (t : State) (es : List Event), exec .classify s = .next t ∧ t.kind = some k ∧
      s.issued t es ∧ (es.length, delaysOf es) = classifyCount k

/-- CLASSIFY with a verdict faults and keeps it (R95, R121, R124). -/
def Obligations.ReclassifyFaults : Prop :=
  ∀ (s : State) (k : MapperKind), s.kind = some k → exec .classify s = .next (s.faultedWith 4#4)

/-! ### The dumps -/

/-- DUMPK.2K and DUMPK.4K with a destination complete: one range read from address 0, no bank switch (R102, R103,
R111, R112). -/
def Obligations.PlainPlans : Prop :=
  ∀ (s : State) (i : Instr) (word : Word) (n : Nat),
    (i, word, n) ∈ [(Instr.dumpk2K, 0x9C000000#32, 2048), (Instr.dumpk4K, 0x9E000000#32, 4096)] →
    s.outAvail = true →
    encode i = word ∧
    ∃ (bs : List Byte) (es : List Event) (t : State), exec i s = .next t ∧ bs.length = n ∧
      es = dumpTrace 0x000#12 bs ∧ s.issued t es ∧ es.length = 4 * n ∧ delaysOf es = n ∧
      t.out = s.out ++ bs ∧
      t = { s.endedAs t with
            a := BitVec.ofNat 12 (n - 1), outCursor := t.outCursor, outRev := t.outRev,
            aCur := t.aCur, nLeft := t.nLeft, stage := t.stage }

/-- DUMPK.E0, DUMPK.F4, DUMPK.F6 and DUMPK.F8 with a destination complete: for each hotspot in rising order, a bank
switch and then one range read from address 0 (R104, R106, R107, R108, R111, R112). -/
def Obligations.BankedPlans : Prop :=
  ∀ (s : State) (i : Instr) (word : Word) (h : Addr) (count n : Nat),
    (i, word, h, count, n) ∈ [(Instr.dumpkE0, 0x90000000#32, 0xFE0#12, 8, 1024),
      (Instr.dumpkF4, 0x94000000#32, 0xFF4#12, 8, 4096), (Instr.dumpkF6, 0x96000000#32, 0xFF6#12, 4, 4096),
      (Instr.dumpkF8, 0x98000000#32, 0xFF8#12, 2, 4096)] →
    s.outAvail = true →
    encode i = word ∧
    ∃ (banks : List (List Byte)) (es : List Event) (t : State), exec i s = .next t ∧
      banks.length = count ∧ (∀ bs ∈ banks, bs.length = n) ∧
      es = bankTrace h banks ∧ s.issued t es ∧ es.length = count * (5 + 4 * n) ∧ delaysOf es = count * (2 + n) ∧
      t.out = s.out ++ banks.flatten ∧
      t = { s.endedAs t with
            a := BitVec.ofNat 12 (n - 1), csN := true, outCursor := t.outCursor, outRev := t.outRev,
            hsCur := t.hsCur, aCur := t.aCur, nLeft := t.nLeft, stage := t.stage }

/-- DUMPK.E7 with a destination completes: seven switched banks of 2048 bytes, then the static range 0x800 to 0xFFF
once, with no further switch (R105, R111, R112). -/
def Obligations.PlanE7 : Prop :=
  encode .dumpkE7 = 0x92000000#32 ∧ ∀ s : State, s.outAvail = true →
    ∃ (banks : List (List Byte)) (last : List Byte) (es : List Event) (t : State), exec .dumpkE7 s = .next t ∧
      banks.length = 7 ∧ (∀ bs ∈ banks, bs.length = 2048) ∧ last.length = 2048 ∧
      es = bankTrace 0xFE0#12 banks ++ dumpTrace 0x800#12 last ∧ s.issued t es ∧
      es.length = 65571 ∧ delaysOf es = 16398 ∧
      t.out = s.out ++ banks.flatten ++ last ∧
      t = { s.endedAs t with
            a := 0xFFF#12, csN := true, outCursor := t.outCursor, outRev := t.outRev,
            hsCur := t.hsCur, aCur := t.aCur, nLeft := t.nLeft, stage := t.stage }

/-- DUMPK.FE with a destination completes: 4096 bytes after the high trigger, then 4096 after the low one (R109, R111,
R112). -/
def Obligations.PlanFE : Prop :=
  encode .dumpkFE = 0x9A000000#32 ∧ ∀ s : State, s.outAvail = true →
    ∃ (high low : List Byte) (es : List Event) (t : State), exec .dumpkFE s = .next t ∧
      high.length = 4096 ∧ low.length = 4096 ∧
      es = feTrace true ++ dumpTrace 0x000#12 high ++ feTrace false ++ dumpTrace 0x000#12 low ∧
      s.issued t es ∧ es.length = 32792 ∧ delaysOf es = 8200 ∧
      t.out = s.out ++ high ++ low ∧
      t = { s.endedAs t with
            a := 0xFFF#12, csN := true, d5Oe := false, d5Out := false, outCursor := t.outCursor,
            outRev := t.outRev, aCur := t.aCur, nLeft := t.nLeft, stage := t.stage }

/-- DUMP: its checks in order (no verdict is ERR_NOKIND whether or not there is a destination; a verdict without a
destination is ERR_NODEST), and with both it completes, doing what DUMPK of that kind does and keeping the verdict, RES
and the buffers (R101, R120, R125). -/
def Obligations.DumpResult : Prop :=
  encode .dump = 0x80000000#32 ∧ ∀ s : State,
    (s.kind = none → exec .dump s = .next (s.faultedWith 3#4)) ∧
    (∀ k, s.kind = some k → s.outAvail = false → exec .dump s = .next (s.faultedWith 2#4)) ∧
    (∀ k, s.kind = some k → s.outAvail = true →
      ∃ t, exec .dump s = .next t ∧ exec (Instr.dumpk k) s = .next t ∧
        t.out.length = s.out.length + dumpSize k ∧
        t.kind = some k ∧ t.res = s.res ∧ (∀ j, t.buffer j = s.buffer j) ∧ t.faulted = s.faulted)

/-- Every DUMPK without a destination is ERR_NODEST, with or without a verdict (R111, R118). -/
def Obligations.DumpkFaults : Prop :=
  ∀ (s : State) (k : MapperKind), s.outAvail = false → exec (Instr.dumpk k) s = .next (s.faultedWith 2#4)

/-- The bytes, events and settle delays of a plan are fixed by its kind (R110, R148). -/
def Obligations.PlanSizes : Prop :=
  ∀ (s : State) (k : MapperKind), s.outAvail = true →
    ∃ t es, exec (Instr.dumpk k) s = .next t ∧ s.issued t es ∧
      (emittedOf es).length = dumpSize k ∧ (es.length, delaysOf es) = planCount k

/-- A dump emits every byte it samples, once, in the order it samples them, and nothing else (R112, R146). -/
def Obligations.DumpEmitsWhatItSamples : Prop :=
  ∀ (s : State) (k : MapperKind), s.outAvail = true →
    ∃ t es, exec (Instr.dumpk k) s = .next t ∧ s.issued t es ∧ emittedOf es = samplesOf es ∧
      t.out = s.out ++ samplesOf es

/-! ### Sequences of commands -/

/-- SESSION (R73), the host leaving the inputs alone over its two steps (log 24): with no verdict and a destination,
CLASSIFY and then DUMP end well (R115), within 6208 + 65571 events (R150); with no verdict and no destination, CLASSIFY
completes and DUMP is ERR_NODEST with no event and no byte (R118); with a verdict, CLASSIFY faults and DUMP is never
accepted. -/
def Obligations.SessionEndsWell : Prop :=
  ∀ (s : State) (ws : List Word), s.ready → s.cmds = session ++ ws →
    (s.kind = none → s.outAvail = true →
      ∃ t u, step s = .next t ∧ step t = .next u ∧ t.endedWell u ∧ u.cmds = ws ∧
        u.trace.length ≤ s.trace.length + (6208 + 65571)) ∧
    (s.kind = none → s.outAvail = false →
      ∃ t u, step s = .next t ∧ step t = .next u ∧ t.faulted = false ∧ t.kind ≠ none ∧ t.out = s.out ∧
        u.faulted = true ∧ u.err = 2#4 ∧ u.faultCmd = encode .dump ∧ u.kind = t.kind ∧ u.busy = false ∧
        u.cmds = ws ∧ u.trace = t.trace ∧ u.out = s.out ∧ u.outCursor = s.outCursor) ∧
    (s.kind ≠ none →
      ∃ t u, step s = .next t ∧ step t = .next u ∧ t.faulted = true ∧ u.faulted = true ∧
        u.cmds = encode .dump :: ws ∧ u.trace = s.trace)

/-- QUERY (R74), the host leaving the inputs alone over its two steps (log 24): the events of HOTSPOT and then
of RDBYTE at one address, and its value, RES, is the byte sampled. -/
def Obligations.QueryReadsTheByte : Prop :=
  ∀ (s : State) (addr : Addr) (ws : List Word), s.ready → s.cmds = query addr ++ ws →
    ∃ t u b, step s = .next t ∧ step t = .next u ∧ u.ready ∧ u.cmds = ws ∧
      u.trace = s.trace ++ hotspotTrace addr ++ [.wa addr, .dly, .rd b] ∧ u.res = b

/-! ### The whole machine -/

/-- The invariant holds after reset, and the bus is safe then. -/
def Obligations.InvHoldsAtReset : Prop := State.reset.inv ∧ State.reset.tickInv ∧ State.reset.busSafe

/-- Every step keeps the invariant (R26, R30, R32, R45, R98). -/
def Obligations.StepKeepsInv : Prop :=
  ∀ s t : State, s.inv → step s = .next t → t.inv

/-- Every tick keeps what holds between any two events (R26, R32, R45, R98). -/
def Obligations.TickKeepsInv : Prop :=
  ∀ s t : State, s.tickInv → tick s = .next t → t.tickInv

/-- From every state that meets the invariant a step has a next state: no command stops the machine. -/
def Obligations.StepNeverStops : Prop :=
  ∀ s : State, s.inv → ∃ t, step s = .next t

/-- The bus stays safe: every sample ever taken came after a settle delay since the last change of a line, with
chip-select de-asserted and data line 5 released, and every byte emitted was the one just sampled (R51, R56, R139,
R145, R55). -/
def Obligations.BusStaysSafe : Prop :=
  ∀ s t : State, s.inv → s.busSafe → step s = .next t → t.busSafe

/-- Without reset, a verdict never changes, the output only grows, OUT_CURSOR counting it, and a fault is never
forgotten (R32 (a), (b) and (e), R16, R24, R26, R127). -/
def Obligations.NothingIsForgotten : Prop :=
  ∀ s t : State, s.inv → s.rst = false → step s = .next t →
    (∀ k, s.kind = some k → t.kind = some k) ∧
    (∃ bs, t.out = s.out ++ bs ∧ t.outCursor = s.outCursor + BitVec.ofNat 32 bs.length) ∧
    (s.faulted = true → t.faulted = true ∧ t.err = s.err ∧ t.faultCmd = s.faultCmd ∧ t.trace = s.trace)

/-- Only DUMP, DUMPK and RDRANGE to OUT emit (R32 (g)). -/
def Obligations.OnlyDumpsEmit : Prop :=
  ∀ (i : Instr) (s t : State), exec i s = .next t →
    i ≠ .dump → (∀ k, i ≠ Instr.dumpk k) → (∀ addr len, i ≠ .rdrange .out addr len) →
    t.out = s.out ∧ t.outCursor = s.outCursor

/-- Only CLASSIFY writes the verdict (R16, R94, R111). -/
def Obligations.OnlyClassifyWritesKind : Prop :=
  ∀ (i : Instr) (s t : State), exec i s = .next t → i ≠ .classify → t.kind = s.kind

/-- The operations that return nothing leave RES (R17). -/
def Obligations.ResIsLeftAlone : Prop :=
  ∀ (i : Instr) (s t : State), exec i s = .next t →
    ((∃ a, i = .hotspot a) ∨ (∃ p, i = .fetrig p) ∨ (∃ d a n, i = .rdrange d a n) ∨ i = .dump ∨
      (∃ k, i = Instr.dumpk k)) →
    t.res = s.res

/-- A command that runs the FE trigger nowhere leaves data line 5 alone: its value, its drive, and no event names
them (R44). -/
def Obligations.Line5OnlyByTriggers : Prop :=
  ∀ (i : Instr) (s t : State), exec i s = .next t →
    (∀ p, i ≠ .fetrig p) → i ≠ .isfe → i ≠ .classify → i ≠ .dumpkFE → (i = .dump → s.kind ≠ some .fe) →
    t.d5Oe = s.d5Oe ∧ t.d5Out = s.d5Out ∧
      ∃ es, s.issued t es ∧ ∀ e ∈ es, (∀ v, e ≠ .d5v v) ∧ ∀ d, e ≠ .d5d d

/-- A fault is precise and early: a command that ends faulted has issued nothing and written nothing but the fault
registers (R124, R126). -/
def Obligations.FaultsArePrecise : Prop :=
  ∀ (i : Instr) (s t : State), exec i s = .next t → s.faulted = false → t.faulted = true →
    t.trace = s.trace ∧ (t.err = 2#4 ∨ t.err = 3#4 ∨ t.err = 4#4 ∨ t.err = 5#4) ∧ t = s.faultedWith t.err

/-- What the block does on its lines does not depend on the bytes it reads, CLASSIFY apart: from two states that
agree on the verdict, the destination and the buffers' lengths, a command issues the same events, but for the bytes
they carry, and ends faulted in both or in neither (R57, R100). -/
def Obligations.EventsDoNotDependOnBytes : Prop :=
  ∀ (i : Instr) (s s' : State), i ≠ .classify →
    s.kind = s'.kind → s.outAvail = s'.outAvail → (∀ k, (s.buffer k).len = (s'.buffer k).len) →
    s.faulted = s'.faulted →
    ∃ t t' es es', exec i s = .next t ∧ exec i s' = .next t' ∧ s.issued t es ∧ s'.issued t' es' ∧
      es.map eventShape = es'.map eventShape ∧ t.faulted = t'.faulted

/-- No hotspot of a plan is stale under chip-select inside CLASSIFY, DUMP and DUMPK, if none is on the bus when the
command begins; and none is when it ends (R141). -/
def Obligations.NoStaleHotspot : Prop :=
  ∀ (i : Instr) (s t : State), (i = .classify ∨ i = .dump ∨ ∃ k, i = Instr.dumpk k) →
    planHotspot s.a = false → exec i s = .next t →
    planHotspot t.a = false ∧ ∃ es, s.issued t es ∧ neverStale s.a es = true

/-- Every hotspot the block itself addresses lies in the "control" region 0xFE0 to 0xFFF (R9, R14): from chip-select
de-asserted, the predicates, CLASSIFY, DUMP and every DUMPK present no other address while it is asserted, but for the
three addresses of the FE trigger (R82; isE0's and isE7's hotspots are logs 9 and 10). -/
def Obligations.HotspotsLieInTheControlRegion : Prop :=
  ∀ (i : Instr) (s t : State),
    (i ∈ [Instr.ise0, .ise7, .isf4, .isf6, .isf8, .is2k, .isfe, .classify, .dump] ∨ ∃ k, i = Instr.dumpk k) →
    s.csN = true → exec i s = .next t →
    ∃ es, s.issued t es ∧ ∀ a ∈ selectedAddrs true es,
      inControlRegion a = true ∨ a = 0x1F1#12 ∨ a = 0x1FE#12 ∨ a = 0x1FF#12

/-- Every accepted command completes: after one step the block is idle, has taken just that word, and has issued at
most 131112 events, which SEQ_POS counts without wrapping (R21, R150). -/
def Obligations.EveryCommandCompletes : Prop :=
  ∀ (s : State) (w : Word) (ws : List Word), s.ready → s.cmds = w :: ws →
    ∃ t es, step s = .next t ∧ t.busy = false ∧ t.done = true ∧ t.cmds = ws ∧
      t.trace = s.trace ++ es ∧ t.seqPos.toNat = es.length ∧ es.length ≤ 131112
end

