-- ==== Sys2Proof/Laws/State.lean ====
section
/-! SUPPORT. The small lemmas of State: what each field is after each shared operation, so that no proof unfolds a
record update. -/

namespace Sys2Proof.Machine

/-! ### Replacing a compare buffer -/

@[simp] theorem setBuffer_kind (k : BufId) (b : Buffer) (s : State) : (s.setBuffer k b).kind = s.kind := by cases k <;> rfl
@[simp] theorem setBuffer_res (k : BufId) (b : Buffer) (s : State) : (s.setBuffer k b).res = s.res := by cases k <;> rfl
@[simp] theorem setBuffer_a (k : BufId) (b : Buffer) (s : State) : (s.setBuffer k b).a = s.a := by cases k <;> rfl
@[simp] theorem setBuffer_csN (k : BufId) (b : Buffer) (s : State) : (s.setBuffer k b).csN = s.csN := by cases k <;> rfl
@[simp] theorem setBuffer_d5Oe (k : BufId) (b : Buffer) (s : State) : (s.setBuffer k b).d5Oe = s.d5Oe := by cases k <;> rfl
@[simp] theorem setBuffer_d5Out (k : BufId) (b : Buffer) (s : State) : (s.setBuffer k b).d5Out = s.d5Out := by cases k <;> rfl
@[simp] theorem setBuffer_busDir (k : BufId) (b : Buffer) (s : State) : (s.setBuffer k b).busDir = s.busDir := by cases k <;> rfl
@[simp] theorem setBuffer_busy (k : BufId) (b : Buffer) (s : State) : (s.setBuffer k b).busy = s.busy := by cases k <;> rfl
@[simp] theorem setBuffer_curCmd (k : BufId) (b : Buffer) (s : State) : (s.setBuffer k b).curCmd = s.curCmd := by cases k <;> rfl
@[simp] theorem setBuffer_seqPos (k : BufId) (b : Buffer) (s : State) : (s.setBuffer k b).seqPos = s.seqPos := by cases k <;> rfl
@[simp] theorem setBuffer_sampled (k : BufId) (b : Buffer) (s : State) : (s.setBuffer k b).sampled = s.sampled := by cases k <;> rfl
@[simp] theorem setBuffer_hsCur (k : BufId) (b : Buffer) (s : State) : (s.setBuffer k b).hsCur = s.hsCur := by cases k <;> rfl
@[simp] theorem setBuffer_aCur (k : BufId) (b : Buffer) (s : State) : (s.setBuffer k b).aCur = s.aCur := by cases k <;> rfl
@[simp] theorem setBuffer_nLeft (k : BufId) (b : Buffer) (s : State) : (s.setBuffer k b).nLeft = s.nLeft := by cases k <;> rfl
@[simp] theorem setBuffer_stage (k : BufId) (b : Buffer) (s : State) : (s.setBuffer k b).stage = s.stage := by cases k <;> rfl
@[simp] theorem setBuffer_outCursor (k : BufId) (b : Buffer) (s : State) : (s.setBuffer k b).outCursor = s.outCursor := by cases k <;> rfl
@[simp] theorem setBuffer_faulted (k : BufId) (b : Buffer) (s : State) : (s.setBuffer k b).faulted = s.faulted := by cases k <;> rfl
@[simp] theorem setBuffer_err (k : BufId) (b : Buffer) (s : State) : (s.setBuffer k b).err = s.err := by cases k <;> rfl
@[simp] theorem setBuffer_faultCmd (k : BufId) (b : Buffer) (s : State) : (s.setBuffer k b).faultCmd = s.faultCmd := by cases k <;> rfl
@[simp] theorem setBuffer_done (k : BufId) (b : Buffer) (s : State) : (s.setBuffer k b).done = s.done := by cases k <;> rfl
@[simp] theorem setBuffer_traceRev (k : BufId) (b : Buffer) (s : State) : (s.setBuffer k b).traceRev = s.traceRev := by cases k <;> rfl
@[simp] theorem setBuffer_rst (k : BufId) (b : Buffer) (s : State) : (s.setBuffer k b).rst = s.rst := by cases k <;> rfl
@[simp] theorem setBuffer_cmds (k : BufId) (b : Buffer) (s : State) : (s.setBuffer k b).cmds = s.cmds := by cases k <;> rfl
@[simp] theorem setBuffer_outAvail (k : BufId) (b : Buffer) (s : State) : (s.setBuffer k b).outAvail = s.outAvail := by cases k <;> rfl
@[simp] theorem setBuffer_answers (k : BufId) (b : Buffer) (s : State) : (s.setBuffer k b).answers = s.answers := by cases k <;> rfl
@[simp] theorem setBuffer_samplesTaken (k : BufId) (b : Buffer) (s : State) : (s.setBuffer k b).samplesTaken = s.samplesTaken := by cases k <;> rfl
@[simp] theorem setBuffer_earlierSessions (k : BufId) (b : Buffer) (s : State) : (s.setBuffer k b).earlierSessions = s.earlierSessions := by cases k <;> rfl
@[simp] theorem setBuffer_outRev (k : BufId) (b : Buffer) (s : State) : (s.setBuffer k b).outRev = s.outRev := by cases k <;> rfl

/-! ### The record of an event -/

@[simp] theorem log_kind (e : Event) (s : State) : (State.log e s).kind = s.kind := rfl
@[simp] theorem log_res (e : Event) (s : State) : (State.log e s).res = s.res := rfl
@[simp] theorem log_b0 (e : Event) (s : State) : (State.log e s).b0 = s.b0 := rfl
@[simp] theorem log_b1 (e : Event) (s : State) : (State.log e s).b1 = s.b1 := rfl
@[simp] theorem log_b2 (e : Event) (s : State) : (State.log e s).b2 = s.b2 := rfl
@[simp] theorem log_b3 (e : Event) (s : State) : (State.log e s).b3 = s.b3 := rfl
@[simp] theorem log_a (e : Event) (s : State) : (State.log e s).a = s.a := rfl
@[simp] theorem log_csN (e : Event) (s : State) : (State.log e s).csN = s.csN := rfl
@[simp] theorem log_d5Oe (e : Event) (s : State) : (State.log e s).d5Oe = s.d5Oe := rfl
@[simp] theorem log_d5Out (e : Event) (s : State) : (State.log e s).d5Out = s.d5Out := rfl
@[simp] theorem log_busDir (e : Event) (s : State) : (State.log e s).busDir = s.busDir := rfl
@[simp] theorem log_busy (e : Event) (s : State) : (State.log e s).busy = s.busy := rfl
@[simp] theorem log_curCmd (e : Event) (s : State) : (State.log e s).curCmd = s.curCmd := rfl
@[simp] theorem log_seqPos (e : Event) (s : State) : (State.log e s).seqPos = s.seqPos + 1#32 := rfl
@[simp] theorem log_sampled (e : Event) (s : State) : (State.log e s).sampled = s.sampled := rfl
@[simp] theorem log_hsCur (e : Event) (s : State) : (State.log e s).hsCur = s.hsCur := rfl
@[simp] theorem log_aCur (e : Event) (s : State) : (State.log e s).aCur = s.aCur := rfl
@[simp] theorem log_nLeft (e : Event) (s : State) : (State.log e s).nLeft = s.nLeft := rfl
@[simp] theorem log_stage (e : Event) (s : State) : (State.log e s).stage = s.stage := rfl
@[simp] theorem log_outCursor (e : Event) (s : State) : (State.log e s).outCursor = s.outCursor := rfl
@[simp] theorem log_faulted (e : Event) (s : State) : (State.log e s).faulted = s.faulted := rfl
@[simp] theorem log_err (e : Event) (s : State) : (State.log e s).err = s.err := rfl
@[simp] theorem log_faultCmd (e : Event) (s : State) : (State.log e s).faultCmd = s.faultCmd := rfl
@[simp] theorem log_done (e : Event) (s : State) : (State.log e s).done = s.done := rfl
@[simp] theorem log_traceRev (e : Event) (s : State) : (State.log e s).traceRev = e :: s.traceRev := rfl
@[simp] theorem log_rst (e : Event) (s : State) : (State.log e s).rst = s.rst := rfl
@[simp] theorem log_cmds (e : Event) (s : State) : (State.log e s).cmds = s.cmds := rfl
@[simp] theorem log_outAvail (e : Event) (s : State) : (State.log e s).outAvail = s.outAvail := rfl
@[simp] theorem log_answers (e : Event) (s : State) : (State.log e s).answers = s.answers := rfl
@[simp] theorem log_samplesTaken (e : Event) (s : State) : (State.log e s).samplesTaken = s.samplesTaken := rfl
@[simp] theorem log_earlierSessions (e : Event) (s : State) : (State.log e s).earlierSessions = s.earlierSessions := rfl
@[simp] theorem log_outRev (e : Event) (s : State) : (State.log e s).outRev = s.outRev := rfl

/-! ### CS -/

@[simp] theorem evCS_kind (l : Level) (s : State) : (s.evCS l).kind = s.kind := rfl
@[simp] theorem evCS_res (l : Level) (s : State) : (s.evCS l).res = s.res := rfl
@[simp] theorem evCS_b0 (l : Level) (s : State) : (s.evCS l).b0 = s.b0 := rfl
@[simp] theorem evCS_b1 (l : Level) (s : State) : (s.evCS l).b1 = s.b1 := rfl
@[simp] theorem evCS_b2 (l : Level) (s : State) : (s.evCS l).b2 = s.b2 := rfl
@[simp] theorem evCS_b3 (l : Level) (s : State) : (s.evCS l).b3 = s.b3 := rfl
@[simp] theorem evCS_a (l : Level) (s : State) : (s.evCS l).a = s.a := rfl
@[simp] theorem evCS_csN (l : Level) (s : State) : (s.evCS l).csN = l := rfl
@[simp] theorem evCS_d5Oe (l : Level) (s : State) : (s.evCS l).d5Oe = s.d5Oe := rfl
@[simp] theorem evCS_d5Out (l : Level) (s : State) : (s.evCS l).d5Out = s.d5Out := rfl
@[simp] theorem evCS_busDir (l : Level) (s : State) : (s.evCS l).busDir = s.busDir := rfl
@[simp] theorem evCS_busy (l : Level) (s : State) : (s.evCS l).busy = s.busy := rfl
@[simp] theorem evCS_curCmd (l : Level) (s : State) : (s.evCS l).curCmd = s.curCmd := rfl
@[simp] theorem evCS_seqPos (l : Level) (s : State) : (s.evCS l).seqPos = s.seqPos + 1#32 := rfl
@[simp] theorem evCS_sampled (l : Level) (s : State) : (s.evCS l).sampled = s.sampled := rfl
@[simp] theorem evCS_hsCur (l : Level) (s : State) : (s.evCS l).hsCur = s.hsCur := rfl
@[simp] theorem evCS_aCur (l : Level) (s : State) : (s.evCS l).aCur = s.aCur := rfl
@[simp] theorem evCS_nLeft (l : Level) (s : State) : (s.evCS l).nLeft = s.nLeft := rfl
@[simp] theorem evCS_stage (l : Level) (s : State) : (s.evCS l).stage = s.stage := rfl
@[simp] theorem evCS_outCursor (l : Level) (s : State) : (s.evCS l).outCursor = s.outCursor := rfl
@[simp] theorem evCS_faulted (l : Level) (s : State) : (s.evCS l).faulted = s.faulted := rfl
@[simp] theorem evCS_err (l : Level) (s : State) : (s.evCS l).err = s.err := rfl
@[simp] theorem evCS_faultCmd (l : Level) (s : State) : (s.evCS l).faultCmd = s.faultCmd := rfl
@[simp] theorem evCS_done (l : Level) (s : State) : (s.evCS l).done = s.done := rfl
@[simp] theorem evCS_traceRev (l : Level) (s : State) : (s.evCS l).traceRev = .cs l :: s.traceRev := rfl
@[simp] theorem evCS_rst (l : Level) (s : State) : (s.evCS l).rst = s.rst := rfl
@[simp] theorem evCS_cmds (l : Level) (s : State) : (s.evCS l).cmds = s.cmds := rfl
@[simp] theorem evCS_outAvail (l : Level) (s : State) : (s.evCS l).outAvail = s.outAvail := rfl
@[simp] theorem evCS_answers (l : Level) (s : State) : (s.evCS l).answers = s.answers := rfl
@[simp] theorem evCS_samplesTaken (l : Level) (s : State) : (s.evCS l).samplesTaken = s.samplesTaken := rfl
@[simp] theorem evCS_earlierSessions (l : Level) (s : State) : (s.evCS l).earlierSessions = s.earlierSessions := rfl
@[simp] theorem evCS_outRev (l : Level) (s : State) : (s.evCS l).outRev = s.outRev := rfl

/-! ### WA -/

@[simp] theorem evWA_kind (x : Addr) (s : State) : (s.evWA x).kind = s.kind := rfl
@[simp] theorem evWA_res (x : Addr) (s : State) : (s.evWA x).res = s.res := rfl
@[simp] theorem evWA_b0 (x : Addr) (s : State) : (s.evWA x).b0 = s.b0 := rfl
@[simp] theorem evWA_b1 (x : Addr) (s : State) : (s.evWA x).b1 = s.b1 := rfl
@[simp] theorem evWA_b2 (x : Addr) (s : State) : (s.evWA x).b2 = s.b2 := rfl
@[simp] theorem evWA_b3 (x : Addr) (s : State) : (s.evWA x).b3 = s.b3 := rfl
@[simp] theorem evWA_a (x : Addr) (s : State) : (s.evWA x).a = x := rfl
@[simp] theorem evWA_csN (x : Addr) (s : State) : (s.evWA x).csN = s.csN := rfl
@[simp] theorem evWA_d5Oe (x : Addr) (s : State) : (s.evWA x).d5Oe = s.d5Oe := rfl
@[simp] theorem evWA_d5Out (x : Addr) (s : State) : (s.evWA x).d5Out = s.d5Out := rfl
@[simp] theorem evWA_busDir (x : Addr) (s : State) : (s.evWA x).busDir = s.busDir := rfl
@[simp] theorem evWA_busy (x : Addr) (s : State) : (s.evWA x).busy = s.busy := rfl
@[simp] theorem evWA_curCmd (x : Addr) (s : State) : (s.evWA x).curCmd = s.curCmd := rfl
@[simp] theorem evWA_seqPos (x : Addr) (s : State) : (s.evWA x).seqPos = s.seqPos + 1#32 := rfl
@[simp] theorem evWA_sampled (x : Addr) (s : State) : (s.evWA x).sampled = s.sampled := rfl
@[simp] theorem evWA_hsCur (x : Addr) (s : State) : (s.evWA x).hsCur = s.hsCur := rfl
@[simp] theorem evWA_aCur (x : Addr) (s : State) : (s.evWA x).aCur = s.aCur := rfl
@[simp] theorem evWA_nLeft (x : Addr) (s : State) : (s.evWA x).nLeft = s.nLeft := rfl
@[simp] theorem evWA_stage (x : Addr) (s : State) : (s.evWA x).stage = s.stage := rfl
@[simp] theorem evWA_outCursor (x : Addr) (s : State) : (s.evWA x).outCursor = s.outCursor := rfl
@[simp] theorem evWA_faulted (x : Addr) (s : State) : (s.evWA x).faulted = s.faulted := rfl
@[simp] theorem evWA_err (x : Addr) (s : State) : (s.evWA x).err = s.err := rfl
@[simp] theorem evWA_faultCmd (x : Addr) (s : State) : (s.evWA x).faultCmd = s.faultCmd := rfl
@[simp] theorem evWA_done (x : Addr) (s : State) : (s.evWA x).done = s.done := rfl
@[simp] theorem evWA_traceRev (x : Addr) (s : State) : (s.evWA x).traceRev = .wa x :: s.traceRev := rfl
@[simp] theorem evWA_rst (x : Addr) (s : State) : (s.evWA x).rst = s.rst := rfl
@[simp] theorem evWA_cmds (x : Addr) (s : State) : (s.evWA x).cmds = s.cmds := rfl
@[simp] theorem evWA_outAvail (x : Addr) (s : State) : (s.evWA x).outAvail = s.outAvail := rfl
@[simp] theorem evWA_answers (x : Addr) (s : State) : (s.evWA x).answers = s.answers := rfl
@[simp] theorem evWA_samplesTaken (x : Addr) (s : State) : (s.evWA x).samplesTaken = s.samplesTaken := rfl
@[simp] theorem evWA_earlierSessions (x : Addr) (s : State) : (s.evWA x).earlierSessions = s.earlierSessions := rfl
@[simp] theorem evWA_outRev (x : Addr) (s : State) : (s.evWA x).outRev = s.outRev := rfl

/-! ### DLY -/

@[simp] theorem evDLY_kind (s : State) : (s.evDLY).kind = s.kind := rfl
@[simp] theorem evDLY_res (s : State) : (s.evDLY).res = s.res := rfl
@[simp] theorem evDLY_b0 (s : State) : (s.evDLY).b0 = s.b0 := rfl
@[simp] theorem evDLY_b1 (s : State) : (s.evDLY).b1 = s.b1 := rfl
@[simp] theorem evDLY_b2 (s : State) : (s.evDLY).b2 = s.b2 := rfl
@[simp] theorem evDLY_b3 (s : State) : (s.evDLY).b3 = s.b3 := rfl
@[simp] theorem evDLY_a (s : State) : (s.evDLY).a = s.a := rfl
@[simp] theorem evDLY_csN (s : State) : (s.evDLY).csN = s.csN := rfl
@[simp] theorem evDLY_d5Oe (s : State) : (s.evDLY).d5Oe = s.d5Oe := rfl
@[simp] theorem evDLY_d5Out (s : State) : (s.evDLY).d5Out = s.d5Out := rfl
@[simp] theorem evDLY_busDir (s : State) : (s.evDLY).busDir = s.busDir := rfl
@[simp] theorem evDLY_busy (s : State) : (s.evDLY).busy = s.busy := rfl
@[simp] theorem evDLY_curCmd (s : State) : (s.evDLY).curCmd = s.curCmd := rfl
@[simp] theorem evDLY_seqPos (s : State) : (s.evDLY).seqPos = s.seqPos + 1#32 := rfl
@[simp] theorem evDLY_sampled (s : State) : (s.evDLY).sampled = s.sampled := rfl
@[simp] theorem evDLY_hsCur (s : State) : (s.evDLY).hsCur = s.hsCur := rfl
@[simp] theorem evDLY_aCur (s : State) : (s.evDLY).aCur = s.aCur := rfl
@[simp] theorem evDLY_nLeft (s : State) : (s.evDLY).nLeft = s.nLeft := rfl
@[simp] theorem evDLY_stage (s : State) : (s.evDLY).stage = s.stage := rfl
@[simp] theorem evDLY_outCursor (s : State) : (s.evDLY).outCursor = s.outCursor := rfl
@[simp] theorem evDLY_faulted (s : State) : (s.evDLY).faulted = s.faulted := rfl
@[simp] theorem evDLY_err (s : State) : (s.evDLY).err = s.err := rfl
@[simp] theorem evDLY_faultCmd (s : State) : (s.evDLY).faultCmd = s.faultCmd := rfl
@[simp] theorem evDLY_done (s : State) : (s.evDLY).done = s.done := rfl
@[simp] theorem evDLY_traceRev (s : State) : (s.evDLY).traceRev = .dly :: s.traceRev := rfl
@[simp] theorem evDLY_rst (s : State) : (s.evDLY).rst = s.rst := rfl
@[simp] theorem evDLY_cmds (s : State) : (s.evDLY).cmds = s.cmds := rfl
@[simp] theorem evDLY_outAvail (s : State) : (s.evDLY).outAvail = s.outAvail := rfl
@[simp] theorem evDLY_answers (s : State) : (s.evDLY).answers = s.answers := rfl
@[simp] theorem evDLY_samplesTaken (s : State) : (s.evDLY).samplesTaken = s.samplesTaken := rfl
@[simp] theorem evDLY_earlierSessions (s : State) : (s.evDLY).earlierSessions = s.earlierSessions := rfl
@[simp] theorem evDLY_outRev (s : State) : (s.evDLY).outRev = s.outRev := rfl

/-! ### D5V -/

@[simp] theorem evD5V_kind (v : Level) (s : State) : (s.evD5V v).kind = s.kind := rfl
@[simp] theorem evD5V_res (v : Level) (s : State) : (s.evD5V v).res = s.res := rfl
@[simp] theorem evD5V_b0 (v : Level) (s : State) : (s.evD5V v).b0 = s.b0 := rfl
@[simp] theorem evD5V_b1 (v : Level) (s : State) : (s.evD5V v).b1 = s.b1 := rfl
@[simp] theorem evD5V_b2 (v : Level) (s : State) : (s.evD5V v).b2 = s.b2 := rfl
@[simp] theorem evD5V_b3 (v : Level) (s : State) : (s.evD5V v).b3 = s.b3 := rfl
@[simp] theorem evD5V_a (v : Level) (s : State) : (s.evD5V v).a = s.a := rfl
@[simp] theorem evD5V_csN (v : Level) (s : State) : (s.evD5V v).csN = s.csN := rfl
@[simp] theorem evD5V_d5Oe (v : Level) (s : State) : (s.evD5V v).d5Oe = s.d5Oe := rfl
@[simp] theorem evD5V_d5Out (v : Level) (s : State) : (s.evD5V v).d5Out = v := rfl
@[simp] theorem evD5V_busDir (v : Level) (s : State) : (s.evD5V v).busDir = s.busDir := rfl
@[simp] theorem evD5V_busy (v : Level) (s : State) : (s.evD5V v).busy = s.busy := rfl
@[simp] theorem evD5V_curCmd (v : Level) (s : State) : (s.evD5V v).curCmd = s.curCmd := rfl
@[simp] theorem evD5V_seqPos (v : Level) (s : State) : (s.evD5V v).seqPos = s.seqPos + 1#32 := rfl
@[simp] theorem evD5V_sampled (v : Level) (s : State) : (s.evD5V v).sampled = s.sampled := rfl
@[simp] theorem evD5V_hsCur (v : Level) (s : State) : (s.evD5V v).hsCur = s.hsCur := rfl
@[simp] theorem evD5V_aCur (v : Level) (s : State) : (s.evD5V v).aCur = s.aCur := rfl
@[simp] theorem evD5V_nLeft (v : Level) (s : State) : (s.evD5V v).nLeft = s.nLeft := rfl
@[simp] theorem evD5V_stage (v : Level) (s : State) : (s.evD5V v).stage = s.stage := rfl
@[simp] theorem evD5V_outCursor (v : Level) (s : State) : (s.evD5V v).outCursor = s.outCursor := rfl
@[simp] theorem evD5V_faulted (v : Level) (s : State) : (s.evD5V v).faulted = s.faulted := rfl
@[simp] theorem evD5V_err (v : Level) (s : State) : (s.evD5V v).err = s.err := rfl
@[simp] theorem evD5V_faultCmd (v : Level) (s : State) : (s.evD5V v).faultCmd = s.faultCmd := rfl
@[simp] theorem evD5V_done (v : Level) (s : State) : (s.evD5V v).done = s.done := rfl
@[simp] theorem evD5V_traceRev (v : Level) (s : State) : (s.evD5V v).traceRev = .d5v v :: s.traceRev := rfl
@[simp] theorem evD5V_rst (v : Level) (s : State) : (s.evD5V v).rst = s.rst := rfl
@[simp] theorem evD5V_cmds (v : Level) (s : State) : (s.evD5V v).cmds = s.cmds := rfl
@[simp] theorem evD5V_outAvail (v : Level) (s : State) : (s.evD5V v).outAvail = s.outAvail := rfl
@[simp] theorem evD5V_answers (v : Level) (s : State) : (s.evD5V v).answers = s.answers := rfl
@[simp] theorem evD5V_samplesTaken (v : Level) (s : State) : (s.evD5V v).samplesTaken = s.samplesTaken := rfl
@[simp] theorem evD5V_earlierSessions (v : Level) (s : State) : (s.evD5V v).earlierSessions = s.earlierSessions := rfl
@[simp] theorem evD5V_outRev (v : Level) (s : State) : (s.evD5V v).outRev = s.outRev := rfl

/-! ### D5D -/

@[simp] theorem evD5D_kind (d : Level) (s : State) : (s.evD5D d).kind = s.kind := rfl
@[simp] theorem evD5D_res (d : Level) (s : State) : (s.evD5D d).res = s.res := rfl
@[simp] theorem evD5D_b0 (d : Level) (s : State) : (s.evD5D d).b0 = s.b0 := rfl
@[simp] theorem evD5D_b1 (d : Level) (s : State) : (s.evD5D d).b1 = s.b1 := rfl
@[simp] theorem evD5D_b2 (d : Level) (s : State) : (s.evD5D d).b2 = s.b2 := rfl
@[simp] theorem evD5D_b3 (d : Level) (s : State) : (s.evD5D d).b3 = s.b3 := rfl
@[simp] theorem evD5D_a (d : Level) (s : State) : (s.evD5D d).a = s.a := rfl
@[simp] theorem evD5D_csN (d : Level) (s : State) : (s.evD5D d).csN = s.csN := rfl
@[simp] theorem evD5D_d5Oe (d : Level) (s : State) : (s.evD5D d).d5Oe = d := rfl
@[simp] theorem evD5D_d5Out (d : Level) (s : State) : (s.evD5D d).d5Out = s.d5Out := rfl
@[simp] theorem evD5D_busDir (d : Level) (s : State) : (s.evD5D d).busDir = s.busDir := rfl
@[simp] theorem evD5D_busy (d : Level) (s : State) : (s.evD5D d).busy = s.busy := rfl
@[simp] theorem evD5D_curCmd (d : Level) (s : State) : (s.evD5D d).curCmd = s.curCmd := rfl
@[simp] theorem evD5D_seqPos (d : Level) (s : State) : (s.evD5D d).seqPos = s.seqPos + 1#32 := rfl
@[simp] theorem evD5D_sampled (d : Level) (s : State) : (s.evD5D d).sampled = s.sampled := rfl
@[simp] theorem evD5D_hsCur (d : Level) (s : State) : (s.evD5D d).hsCur = s.hsCur := rfl
@[simp] theorem evD5D_aCur (d : Level) (s : State) : (s.evD5D d).aCur = s.aCur := rfl
@[simp] theorem evD5D_nLeft (d : Level) (s : State) : (s.evD5D d).nLeft = s.nLeft := rfl
@[simp] theorem evD5D_stage (d : Level) (s : State) : (s.evD5D d).stage = s.stage := rfl
@[simp] theorem evD5D_outCursor (d : Level) (s : State) : (s.evD5D d).outCursor = s.outCursor := rfl
@[simp] theorem evD5D_faulted (d : Level) (s : State) : (s.evD5D d).faulted = s.faulted := rfl
@[simp] theorem evD5D_err (d : Level) (s : State) : (s.evD5D d).err = s.err := rfl
@[simp] theorem evD5D_faultCmd (d : Level) (s : State) : (s.evD5D d).faultCmd = s.faultCmd := rfl
@[simp] theorem evD5D_done (d : Level) (s : State) : (s.evD5D d).done = s.done := rfl
@[simp] theorem evD5D_traceRev (d : Level) (s : State) : (s.evD5D d).traceRev = .d5d d :: s.traceRev := rfl
@[simp] theorem evD5D_rst (d : Level) (s : State) : (s.evD5D d).rst = s.rst := rfl
@[simp] theorem evD5D_cmds (d : Level) (s : State) : (s.evD5D d).cmds = s.cmds := rfl
@[simp] theorem evD5D_outAvail (d : Level) (s : State) : (s.evD5D d).outAvail = s.outAvail := rfl
@[simp] theorem evD5D_answers (d : Level) (s : State) : (s.evD5D d).answers = s.answers := rfl
@[simp] theorem evD5D_samplesTaken (d : Level) (s : State) : (s.evD5D d).samplesTaken = s.samplesTaken := rfl
@[simp] theorem evD5D_earlierSessions (d : Level) (s : State) : (s.evD5D d).earlierSessions = s.earlierSessions := rfl
@[simp] theorem evD5D_outRev (d : Level) (s : State) : (s.evD5D d).outRev = s.outRev := rfl

/-! ### RD -/

@[simp] theorem evRD_kind (s : State) : (s.evRD).kind = s.kind := rfl
@[simp] theorem evRD_res (s : State) : (s.evRD).res = s.res := rfl
@[simp] theorem evRD_b0 (s : State) : (s.evRD).b0 = s.b0 := rfl
@[simp] theorem evRD_b1 (s : State) : (s.evRD).b1 = s.b1 := rfl
@[simp] theorem evRD_b2 (s : State) : (s.evRD).b2 = s.b2 := rfl
@[simp] theorem evRD_b3 (s : State) : (s.evRD).b3 = s.b3 := rfl
@[simp] theorem evRD_a (s : State) : (s.evRD).a = s.a := rfl
@[simp] theorem evRD_csN (s : State) : (s.evRD).csN = s.csN := rfl
@[simp] theorem evRD_d5Oe (s : State) : (s.evRD).d5Oe = s.d5Oe := rfl
@[simp] theorem evRD_d5Out (s : State) : (s.evRD).d5Out = s.d5Out := rfl
@[simp] theorem evRD_busDir (s : State) : (s.evRD).busDir = s.busDir := rfl
@[simp] theorem evRD_busy (s : State) : (s.evRD).busy = s.busy := rfl
@[simp] theorem evRD_curCmd (s : State) : (s.evRD).curCmd = s.curCmd := rfl
@[simp] theorem evRD_seqPos (s : State) : (s.evRD).seqPos = s.seqPos + 1#32 := rfl
@[simp] theorem evRD_sampled (s : State) : (s.evRD).sampled = s.lineByte :: s.sampled := rfl
@[simp] theorem evRD_hsCur (s : State) : (s.evRD).hsCur = s.hsCur := rfl
@[simp] theorem evRD_aCur (s : State) : (s.evRD).aCur = s.aCur := rfl
@[simp] theorem evRD_nLeft (s : State) : (s.evRD).nLeft = s.nLeft := rfl
@[simp] theorem evRD_stage (s : State) : (s.evRD).stage = s.stage := rfl
@[simp] theorem evRD_outCursor (s : State) : (s.evRD).outCursor = s.outCursor := rfl
@[simp] theorem evRD_faulted (s : State) : (s.evRD).faulted = s.faulted := rfl
@[simp] theorem evRD_err (s : State) : (s.evRD).err = s.err := rfl
@[simp] theorem evRD_faultCmd (s : State) : (s.evRD).faultCmd = s.faultCmd := rfl
@[simp] theorem evRD_done (s : State) : (s.evRD).done = s.done := rfl
@[simp] theorem evRD_traceRev (s : State) : (s.evRD).traceRev = .rd s.lineByte :: s.traceRev := rfl
@[simp] theorem evRD_rst (s : State) : (s.evRD).rst = s.rst := rfl
@[simp] theorem evRD_cmds (s : State) : (s.evRD).cmds = s.cmds := rfl
@[simp] theorem evRD_outAvail (s : State) : (s.evRD).outAvail = s.outAvail := rfl
@[simp] theorem evRD_answers (s : State) : (s.evRD).answers = s.answers.tail := rfl
@[simp] theorem evRD_samplesTaken (s : State) : (s.evRD).samplesTaken = s.samplesTaken + 1 := rfl
@[simp] theorem evRD_earlierSessions (s : State) : (s.evRD).earlierSessions = s.earlierSessions := rfl
@[simp] theorem evRD_outRev (s : State) : (s.evRD).outRev = s.outRev := rfl

/-! ### EMIT -/

@[simp] theorem evEMIT_kind (b : Byte) (s : State) : (s.evEMIT b).kind = s.kind := rfl
@[simp] theorem evEMIT_res (b : Byte) (s : State) : (s.evEMIT b).res = s.res := rfl
@[simp] theorem evEMIT_b0 (b : Byte) (s : State) : (s.evEMIT b).b0 = s.b0 := rfl
@[simp] theorem evEMIT_b1 (b : Byte) (s : State) : (s.evEMIT b).b1 = s.b1 := rfl
@[simp] theorem evEMIT_b2 (b : Byte) (s : State) : (s.evEMIT b).b2 = s.b2 := rfl
@[simp] theorem evEMIT_b3 (b : Byte) (s : State) : (s.evEMIT b).b3 = s.b3 := rfl
@[simp] theorem evEMIT_a (b : Byte) (s : State) : (s.evEMIT b).a = s.a := rfl
@[simp] theorem evEMIT_csN (b : Byte) (s : State) : (s.evEMIT b).csN = s.csN := rfl
@[simp] theorem evEMIT_d5Oe (b : Byte) (s : State) : (s.evEMIT b).d5Oe = s.d5Oe := rfl
@[simp] theorem evEMIT_d5Out (b : Byte) (s : State) : (s.evEMIT b).d5Out = s.d5Out := rfl
@[simp] theorem evEMIT_busDir (b : Byte) (s : State) : (s.evEMIT b).busDir = s.busDir := rfl
@[simp] theorem evEMIT_busy (b : Byte) (s : State) : (s.evEMIT b).busy = s.busy := rfl
@[simp] theorem evEMIT_curCmd (b : Byte) (s : State) : (s.evEMIT b).curCmd = s.curCmd := rfl
@[simp] theorem evEMIT_seqPos (b : Byte) (s : State) : (s.evEMIT b).seqPos = s.seqPos + 1#32 := rfl
@[simp] theorem evEMIT_sampled (b : Byte) (s : State) : (s.evEMIT b).sampled = s.sampled := rfl
@[simp] theorem evEMIT_hsCur (b : Byte) (s : State) : (s.evEMIT b).hsCur = s.hsCur := rfl
@[simp] theorem evEMIT_aCur (b : Byte) (s : State) : (s.evEMIT b).aCur = s.aCur := rfl
@[simp] theorem evEMIT_nLeft (b : Byte) (s : State) : (s.evEMIT b).nLeft = s.nLeft := rfl
@[simp] theorem evEMIT_stage (b : Byte) (s : State) : (s.evEMIT b).stage = s.stage := rfl
@[simp] theorem evEMIT_outCursor (b : Byte) (s : State) : (s.evEMIT b).outCursor = s.outCursor + 1#32 := rfl
@[simp] theorem evEMIT_faulted (b : Byte) (s : State) : (s.evEMIT b).faulted = s.faulted := rfl
@[simp] theorem evEMIT_err (b : Byte) (s : State) : (s.evEMIT b).err = s.err := rfl
@[simp] theorem evEMIT_faultCmd (b : Byte) (s : State) : (s.evEMIT b).faultCmd = s.faultCmd := rfl
@[simp] theorem evEMIT_done (b : Byte) (s : State) : (s.evEMIT b).done = s.done := rfl
@[simp] theorem evEMIT_traceRev (b : Byte) (s : State) : (s.evEMIT b).traceRev = .emit b :: s.traceRev := rfl
@[simp] theorem evEMIT_rst (b : Byte) (s : State) : (s.evEMIT b).rst = s.rst := rfl
@[simp] theorem evEMIT_cmds (b : Byte) (s : State) : (s.evEMIT b).cmds = s.cmds := rfl
@[simp] theorem evEMIT_outAvail (b : Byte) (s : State) : (s.evEMIT b).outAvail = s.outAvail := rfl
@[simp] theorem evEMIT_answers (b : Byte) (s : State) : (s.evEMIT b).answers = s.answers := rfl
@[simp] theorem evEMIT_samplesTaken (b : Byte) (s : State) : (s.evEMIT b).samplesTaken = s.samplesTaken := rfl
@[simp] theorem evEMIT_earlierSessions (b : Byte) (s : State) : (s.evEMIT b).earlierSessions = s.earlierSessions := rfl
@[simp] theorem evEMIT_outRev (b : Byte) (s : State) : (s.evEMIT b).outRev = b :: s.outRev := rfl

/-! ### Storing a sample -/

/-- Storing a sample replaces at most one compare buffer. -/
theorem takeIn_cases (into : Intake) (b : Byte) (s : State) :
    s.takeIn into b = s ∨ ∃ k x, s.takeIn into b = s.setBuffer k x := by
  cases into with
  | hold => exact .inl rfl
  | cell k i n =>
    simp only [State.takeIn]
    split
    · exact .inr ⟨k, _, rfl⟩
    · exact .inr ⟨k, _, rfl⟩

@[simp] theorem takeIn_kind (into : Intake) (b : Byte) (s : State) : (s.takeIn into b).kind = s.kind := by rcases takeIn_cases into b s with h | ⟨_, _, h⟩ <;> simp [h]
@[simp] theorem takeIn_res (into : Intake) (b : Byte) (s : State) : (s.takeIn into b).res = s.res := by rcases takeIn_cases into b s with h | ⟨_, _, h⟩ <;> simp [h]
@[simp] theorem takeIn_a (into : Intake) (b : Byte) (s : State) : (s.takeIn into b).a = s.a := by rcases takeIn_cases into b s with h | ⟨_, _, h⟩ <;> simp [h]
@[simp] theorem takeIn_csN (into : Intake) (b : Byte) (s : State) : (s.takeIn into b).csN = s.csN := by rcases takeIn_cases into b s with h | ⟨_, _, h⟩ <;> simp [h]
@[simp] theorem takeIn_d5Oe (into : Intake) (b : Byte) (s : State) : (s.takeIn into b).d5Oe = s.d5Oe := by rcases takeIn_cases into b s with h | ⟨_, _, h⟩ <;> simp [h]
@[simp] theorem takeIn_d5Out (into : Intake) (b : Byte) (s : State) : (s.takeIn into b).d5Out = s.d5Out := by rcases takeIn_cases into b s with h | ⟨_, _, h⟩ <;> simp [h]
@[simp] theorem takeIn_busDir (into : Intake) (b : Byte) (s : State) : (s.takeIn into b).busDir = s.busDir := by rcases takeIn_cases into b s with h | ⟨_, _, h⟩ <;> simp [h]
@[simp] theorem takeIn_busy (into : Intake) (b : Byte) (s : State) : (s.takeIn into b).busy = s.busy := by rcases takeIn_cases into b s with h | ⟨_, _, h⟩ <;> simp [h]
@[simp] theorem takeIn_curCmd (into : Intake) (b : Byte) (s : State) : (s.takeIn into b).curCmd = s.curCmd := by rcases takeIn_cases into b s with h | ⟨_, _, h⟩ <;> simp [h]
@[simp] theorem takeIn_seqPos (into : Intake) (b : Byte) (s : State) : (s.takeIn into b).seqPos = s.seqPos := by rcases takeIn_cases into b s with h | ⟨_, _, h⟩ <;> simp [h]
@[simp] theorem takeIn_sampled (into : Intake) (b : Byte) (s : State) : (s.takeIn into b).sampled = s.sampled := by rcases takeIn_cases into b s with h | ⟨_, _, h⟩ <;> simp [h]
@[simp] theorem takeIn_hsCur (into : Intake) (b : Byte) (s : State) : (s.takeIn into b).hsCur = s.hsCur := by rcases takeIn_cases into b s with h | ⟨_, _, h⟩ <;> simp [h]
@[simp] theorem takeIn_aCur (into : Intake) (b : Byte) (s : State) : (s.takeIn into b).aCur = s.aCur := by rcases takeIn_cases into b s with h | ⟨_, _, h⟩ <;> simp [h]
@[simp] theorem takeIn_nLeft (into : Intake) (b : Byte) (s : State) : (s.takeIn into b).nLeft = s.nLeft := by rcases takeIn_cases into b s with h | ⟨_, _, h⟩ <;> simp [h]
@[simp] theorem takeIn_stage (into : Intake) (b : Byte) (s : State) : (s.takeIn into b).stage = s.stage := by rcases takeIn_cases into b s with h | ⟨_, _, h⟩ <;> simp [h]
@[simp] theorem takeIn_outCursor (into : Intake) (b : Byte) (s : State) : (s.takeIn into b).outCursor = s.outCursor := by rcases takeIn_cases into b s with h | ⟨_, _, h⟩ <;> simp [h]
@[simp] theorem takeIn_faulted (into : Intake) (b : Byte) (s : State) : (s.takeIn into b).faulted = s.faulted := by rcases takeIn_cases into b s with h | ⟨_, _, h⟩ <;> simp [h]
@[simp] theorem takeIn_err (into : Intake) (b : Byte) (s : State) : (s.takeIn into b).err = s.err := by rcases takeIn_cases into b s with h | ⟨_, _, h⟩ <;> simp [h]
@[simp] theorem takeIn_faultCmd (into : Intake) (b : Byte) (s : State) : (s.takeIn into b).faultCmd = s.faultCmd := by rcases takeIn_cases into b s with h | ⟨_, _, h⟩ <;> simp [h]
@[simp] theorem takeIn_done (into : Intake) (b : Byte) (s : State) : (s.takeIn into b).done = s.done := by rcases takeIn_cases into b s with h | ⟨_, _, h⟩ <;> simp [h]
@[simp] theorem takeIn_traceRev (into : Intake) (b : Byte) (s : State) : (s.takeIn into b).traceRev = s.traceRev := by rcases takeIn_cases into b s with h | ⟨_, _, h⟩ <;> simp [h]
@[simp] theorem takeIn_rst (into : Intake) (b : Byte) (s : State) : (s.takeIn into b).rst = s.rst := by rcases takeIn_cases into b s with h | ⟨_, _, h⟩ <;> simp [h]
@[simp] theorem takeIn_cmds (into : Intake) (b : Byte) (s : State) : (s.takeIn into b).cmds = s.cmds := by rcases takeIn_cases into b s with h | ⟨_, _, h⟩ <;> simp [h]
@[simp] theorem takeIn_outAvail (into : Intake) (b : Byte) (s : State) : (s.takeIn into b).outAvail = s.outAvail := by rcases takeIn_cases into b s with h | ⟨_, _, h⟩ <;> simp [h]
@[simp] theorem takeIn_answers (into : Intake) (b : Byte) (s : State) : (s.takeIn into b).answers = s.answers := by rcases takeIn_cases into b s with h | ⟨_, _, h⟩ <;> simp [h]
@[simp] theorem takeIn_samplesTaken (into : Intake) (b : Byte) (s : State) : (s.takeIn into b).samplesTaken = s.samplesTaken := by rcases takeIn_cases into b s with h | ⟨_, _, h⟩ <;> simp [h]
@[simp] theorem takeIn_earlierSessions (into : Intake) (b : Byte) (s : State) : (s.takeIn into b).earlierSessions = s.earlierSessions := by rcases takeIn_cases into b s with h | ⟨_, _, h⟩ <;> simp [h]
@[simp] theorem takeIn_outRev (into : Intake) (b : Byte) (s : State) : (s.takeIn into b).outRev = s.outRev := by rcases takeIn_cases into b s with h | ⟨_, _, h⟩ <;> simp [h]

/-! ### The named cursors -/

@[simp] theorem point_kind (m : Micro) (s : State) : (s.point m).kind = s.kind := rfl
@[simp] theorem point_res (m : Micro) (s : State) : (s.point m).res = s.res := rfl
@[simp] theorem point_b0 (m : Micro) (s : State) : (s.point m).b0 = s.b0 := rfl
@[simp] theorem point_b1 (m : Micro) (s : State) : (s.point m).b1 = s.b1 := rfl
@[simp] theorem point_b2 (m : Micro) (s : State) : (s.point m).b2 = s.b2 := rfl
@[simp] theorem point_b3 (m : Micro) (s : State) : (s.point m).b3 = s.b3 := rfl
@[simp] theorem point_a (m : Micro) (s : State) : (s.point m).a = s.a := rfl
@[simp] theorem point_csN (m : Micro) (s : State) : (s.point m).csN = s.csN := rfl
@[simp] theorem point_d5Oe (m : Micro) (s : State) : (s.point m).d5Oe = s.d5Oe := rfl
@[simp] theorem point_d5Out (m : Micro) (s : State) : (s.point m).d5Out = s.d5Out := rfl
@[simp] theorem point_busDir (m : Micro) (s : State) : (s.point m).busDir = s.busDir := rfl
@[simp] theorem point_busy (m : Micro) (s : State) : (s.point m).busy = s.busy := rfl
@[simp] theorem point_curCmd (m : Micro) (s : State) : (s.point m).curCmd = s.curCmd := rfl
@[simp] theorem point_seqPos (m : Micro) (s : State) : (s.point m).seqPos = s.seqPos := rfl
@[simp] theorem point_sampled (m : Micro) (s : State) : (s.point m).sampled = s.sampled := rfl
@[simp] theorem point_hsCur (m : Micro) (s : State) : (s.point m).hsCur = m.hotspot.getD s.hsCur := rfl
@[simp] theorem point_aCur (m : Micro) (s : State) : (s.point m).aCur = (m.range.map Prod.fst).getD s.aCur := rfl
@[simp] theorem point_nLeft (m : Micro) (s : State) : (s.point m).nLeft = (m.range.map Prod.snd).getD s.nLeft := rfl
@[simp] theorem point_stage (m : Micro) (s : State) : (s.point m).stage = m.stage.getD s.stage := rfl
@[simp] theorem point_outCursor (m : Micro) (s : State) : (s.point m).outCursor = s.outCursor := rfl
@[simp] theorem point_faulted (m : Micro) (s : State) : (s.point m).faulted = s.faulted := rfl
@[simp] theorem point_err (m : Micro) (s : State) : (s.point m).err = s.err := rfl
@[simp] theorem point_faultCmd (m : Micro) (s : State) : (s.point m).faultCmd = s.faultCmd := rfl
@[simp] theorem point_done (m : Micro) (s : State) : (s.point m).done = s.done := rfl
@[simp] theorem point_traceRev (m : Micro) (s : State) : (s.point m).traceRev = s.traceRev := rfl
@[simp] theorem point_rst (m : Micro) (s : State) : (s.point m).rst = s.rst := rfl
@[simp] theorem point_cmds (m : Micro) (s : State) : (s.point m).cmds = s.cmds := rfl
@[simp] theorem point_outAvail (m : Micro) (s : State) : (s.point m).outAvail = s.outAvail := rfl
@[simp] theorem point_answers (m : Micro) (s : State) : (s.point m).answers = s.answers := rfl
@[simp] theorem point_samplesTaken (m : Micro) (s : State) : (s.point m).samplesTaken = s.samplesTaken := rfl
@[simp] theorem point_earlierSessions (m : Micro) (s : State) : (s.point m).earlierSessions = s.earlierSessions := rfl
@[simp] theorem point_outRev (m : Micro) (s : State) : (s.point m).outRev = s.outRev := rfl

/-! ### Accepting a word -/

@[simp] theorem accept_kind (w : Word) (s : State) : (s.accept w).kind = s.kind := rfl
@[simp] theorem accept_res (w : Word) (s : State) : (s.accept w).res = s.res := rfl
@[simp] theorem accept_b0 (w : Word) (s : State) : (s.accept w).b0 = s.b0 := rfl
@[simp] theorem accept_b1 (w : Word) (s : State) : (s.accept w).b1 = s.b1 := rfl
@[simp] theorem accept_b2 (w : Word) (s : State) : (s.accept w).b2 = s.b2 := rfl
@[simp] theorem accept_b3 (w : Word) (s : State) : (s.accept w).b3 = s.b3 := rfl
@[simp] theorem accept_a (w : Word) (s : State) : (s.accept w).a = s.a := rfl
@[simp] theorem accept_csN (w : Word) (s : State) : (s.accept w).csN = s.csN := rfl
@[simp] theorem accept_d5Oe (w : Word) (s : State) : (s.accept w).d5Oe = s.d5Oe := rfl
@[simp] theorem accept_d5Out (w : Word) (s : State) : (s.accept w).d5Out = s.d5Out := rfl
@[simp] theorem accept_busDir (w : Word) (s : State) : (s.accept w).busDir = s.busDir := rfl
@[simp] theorem accept_busy (w : Word) (s : State) : (s.accept w).busy = true := rfl
@[simp] theorem accept_curCmd (w : Word) (s : State) : (s.accept w).curCmd = w := rfl
@[simp] theorem accept_seqPos (w : Word) (s : State) : (s.accept w).seqPos = 0#32 := rfl
@[simp] theorem accept_sampled (w : Word) (s : State) : (s.accept w).sampled = [] := rfl
@[simp] theorem accept_hsCur (w : Word) (s : State) : (s.accept w).hsCur = s.hsCur := rfl
@[simp] theorem accept_aCur (w : Word) (s : State) : (s.accept w).aCur = s.aCur := rfl
@[simp] theorem accept_nLeft (w : Word) (s : State) : (s.accept w).nLeft = s.nLeft := rfl
@[simp] theorem accept_stage (w : Word) (s : State) : (s.accept w).stage = s.stage := rfl
@[simp] theorem accept_outCursor (w : Word) (s : State) : (s.accept w).outCursor = s.outCursor := rfl
@[simp] theorem accept_faulted (w : Word) (s : State) : (s.accept w).faulted = s.faulted := rfl
@[simp] theorem accept_err (w : Word) (s : State) : (s.accept w).err = s.err := rfl
@[simp] theorem accept_faultCmd (w : Word) (s : State) : (s.accept w).faultCmd = s.faultCmd := rfl
@[simp] theorem accept_done (w : Word) (s : State) : (s.accept w).done = false := rfl
@[simp] theorem accept_traceRev (w : Word) (s : State) : (s.accept w).traceRev = s.traceRev := rfl
@[simp] theorem accept_rst (w : Word) (s : State) : (s.accept w).rst = s.rst := rfl
@[simp] theorem accept_cmds (w : Word) (s : State) : (s.accept w).cmds = s.cmds.tail := rfl
@[simp] theorem accept_outAvail (w : Word) (s : State) : (s.accept w).outAvail = s.outAvail := rfl
@[simp] theorem accept_answers (w : Word) (s : State) : (s.accept w).answers = s.answers := rfl
@[simp] theorem accept_samplesTaken (w : Word) (s : State) : (s.accept w).samplesTaken = s.samplesTaken := rfl
@[simp] theorem accept_earlierSessions (w : Word) (s : State) : (s.accept w).earlierSessions = s.earlierSessions := rfl
@[simp] theorem accept_outRev (w : Word) (s : State) : (s.accept w).outRev = s.outRev := rfl

/-! ### The end of a command -/

@[simp] theorem complete_kind (s : State) : (s.complete).kind = s.kind := rfl
@[simp] theorem complete_res (s : State) : (s.complete).res = s.res := rfl
@[simp] theorem complete_b0 (s : State) : (s.complete).b0 = s.b0 := rfl
@[simp] theorem complete_b1 (s : State) : (s.complete).b1 = s.b1 := rfl
@[simp] theorem complete_b2 (s : State) : (s.complete).b2 = s.b2 := rfl
@[simp] theorem complete_b3 (s : State) : (s.complete).b3 = s.b3 := rfl
@[simp] theorem complete_a (s : State) : (s.complete).a = s.a := rfl
@[simp] theorem complete_csN (s : State) : (s.complete).csN = s.csN := rfl
@[simp] theorem complete_d5Oe (s : State) : (s.complete).d5Oe = s.d5Oe := rfl
@[simp] theorem complete_d5Out (s : State) : (s.complete).d5Out = s.d5Out := rfl
@[simp] theorem complete_busDir (s : State) : (s.complete).busDir = s.busDir := rfl
@[simp] theorem complete_busy (s : State) : (s.complete).busy = false := rfl
@[simp] theorem complete_curCmd (s : State) : (s.complete).curCmd = s.curCmd := rfl
@[simp] theorem complete_seqPos (s : State) : (s.complete).seqPos = s.seqPos := rfl
@[simp] theorem complete_sampled (s : State) : (s.complete).sampled = s.sampled := rfl
@[simp] theorem complete_hsCur (s : State) : (s.complete).hsCur = s.hsCur := rfl
@[simp] theorem complete_aCur (s : State) : (s.complete).aCur = s.aCur := rfl
@[simp] theorem complete_nLeft (s : State) : (s.complete).nLeft = s.nLeft := rfl
@[simp] theorem complete_stage (s : State) : (s.complete).stage = s.stage := rfl
@[simp] theorem complete_outCursor (s : State) : (s.complete).outCursor = s.outCursor := rfl
@[simp] theorem complete_faulted (s : State) : (s.complete).faulted = s.faulted := rfl
@[simp] theorem complete_err (s : State) : (s.complete).err = s.err := rfl
@[simp] theorem complete_faultCmd (s : State) : (s.complete).faultCmd = s.faultCmd := rfl
@[simp] theorem complete_done (s : State) : (s.complete).done = true := rfl
@[simp] theorem complete_traceRev (s : State) : (s.complete).traceRev = s.traceRev := rfl
@[simp] theorem complete_rst (s : State) : (s.complete).rst = s.rst := rfl
@[simp] theorem complete_cmds (s : State) : (s.complete).cmds = s.cmds := rfl
@[simp] theorem complete_outAvail (s : State) : (s.complete).outAvail = s.outAvail := rfl
@[simp] theorem complete_answers (s : State) : (s.complete).answers = s.answers := rfl
@[simp] theorem complete_samplesTaken (s : State) : (s.complete).samplesTaken = s.samplesTaken := rfl
@[simp] theorem complete_earlierSessions (s : State) : (s.complete).earlierSessions = s.earlierSessions := rfl
@[simp] theorem complete_outRev (s : State) : (s.complete).outRev = s.outRev := rfl

/-! ### Taking a fault -/

@[simp] theorem raise_kind (e : ErrCode) (s : State) : (s.raise e).kind = s.kind := rfl
@[simp] theorem raise_res (e : ErrCode) (s : State) : (s.raise e).res = s.res := rfl
@[simp] theorem raise_b0 (e : ErrCode) (s : State) : (s.raise e).b0 = s.b0 := rfl
@[simp] theorem raise_b1 (e : ErrCode) (s : State) : (s.raise e).b1 = s.b1 := rfl
@[simp] theorem raise_b2 (e : ErrCode) (s : State) : (s.raise e).b2 = s.b2 := rfl
@[simp] theorem raise_b3 (e : ErrCode) (s : State) : (s.raise e).b3 = s.b3 := rfl
@[simp] theorem raise_a (e : ErrCode) (s : State) : (s.raise e).a = s.a := rfl
@[simp] theorem raise_csN (e : ErrCode) (s : State) : (s.raise e).csN = s.csN := rfl
@[simp] theorem raise_d5Oe (e : ErrCode) (s : State) : (s.raise e).d5Oe = s.d5Oe := rfl
@[simp] theorem raise_d5Out (e : ErrCode) (s : State) : (s.raise e).d5Out = s.d5Out := rfl
@[simp] theorem raise_busDir (e : ErrCode) (s : State) : (s.raise e).busDir = s.busDir := rfl
@[simp] theorem raise_busy (e : ErrCode) (s : State) : (s.raise e).busy = false := rfl
@[simp] theorem raise_curCmd (e : ErrCode) (s : State) : (s.raise e).curCmd = s.curCmd := rfl
@[simp] theorem raise_seqPos (e : ErrCode) (s : State) : (s.raise e).seqPos = s.seqPos := rfl
@[simp] theorem raise_sampled (e : ErrCode) (s : State) : (s.raise e).sampled = s.sampled := rfl
@[simp] theorem raise_hsCur (e : ErrCode) (s : State) : (s.raise e).hsCur = s.hsCur := rfl
@[simp] theorem raise_aCur (e : ErrCode) (s : State) : (s.raise e).aCur = s.aCur := rfl
@[simp] theorem raise_nLeft (e : ErrCode) (s : State) : (s.raise e).nLeft = s.nLeft := rfl
@[simp] theorem raise_stage (e : ErrCode) (s : State) : (s.raise e).stage = s.stage := rfl
@[simp] theorem raise_outCursor (e : ErrCode) (s : State) : (s.raise e).outCursor = s.outCursor := rfl
@[simp] theorem raise_faulted (e : ErrCode) (s : State) : (s.raise e).faulted = true := rfl
@[simp] theorem raise_err (e : ErrCode) (s : State) : (s.raise e).err = e.code := rfl
@[simp] theorem raise_faultCmd (e : ErrCode) (s : State) : (s.raise e).faultCmd = s.curCmd := rfl
@[simp] theorem raise_done (e : ErrCode) (s : State) : (s.raise e).done = true := rfl
@[simp] theorem raise_traceRev (e : ErrCode) (s : State) : (s.raise e).traceRev = s.traceRev := rfl
@[simp] theorem raise_rst (e : ErrCode) (s : State) : (s.raise e).rst = s.rst := rfl
@[simp] theorem raise_cmds (e : ErrCode) (s : State) : (s.raise e).cmds = s.cmds := rfl
@[simp] theorem raise_outAvail (e : ErrCode) (s : State) : (s.raise e).outAvail = s.outAvail := rfl
@[simp] theorem raise_answers (e : ErrCode) (s : State) : (s.raise e).answers = s.answers := rfl
@[simp] theorem raise_samplesTaken (e : ErrCode) (s : State) : (s.raise e).samplesTaken = s.samplesTaken := rfl
@[simp] theorem raise_earlierSessions (e : ErrCode) (s : State) : (s.raise e).earlierSessions = s.earlierSessions := rfl
@[simp] theorem raise_outRev (e : ErrCode) (s : State) : (s.raise e).outRev = s.outRev := rfl

/-! ### An idle step -/

@[simp] theorem idle_kind (s : State) : (s.idle).kind = s.kind := rfl
@[simp] theorem idle_res (s : State) : (s.idle).res = s.res := rfl
@[simp] theorem idle_b0 (s : State) : (s.idle).b0 = s.b0 := rfl
@[simp] theorem idle_b1 (s : State) : (s.idle).b1 = s.b1 := rfl
@[simp] theorem idle_b2 (s : State) : (s.idle).b2 = s.b2 := rfl
@[simp] theorem idle_b3 (s : State) : (s.idle).b3 = s.b3 := rfl
@[simp] theorem idle_a (s : State) : (s.idle).a = s.a := rfl
@[simp] theorem idle_csN (s : State) : (s.idle).csN = s.csN := rfl
@[simp] theorem idle_d5Oe (s : State) : (s.idle).d5Oe = s.d5Oe := rfl
@[simp] theorem idle_d5Out (s : State) : (s.idle).d5Out = s.d5Out := rfl
@[simp] theorem idle_busDir (s : State) : (s.idle).busDir = s.busDir := rfl
@[simp] theorem idle_busy (s : State) : (s.idle).busy = s.busy := rfl
@[simp] theorem idle_curCmd (s : State) : (s.idle).curCmd = s.curCmd := rfl
@[simp] theorem idle_seqPos (s : State) : (s.idle).seqPos = s.seqPos := rfl
@[simp] theorem idle_sampled (s : State) : (s.idle).sampled = s.sampled := rfl
@[simp] theorem idle_hsCur (s : State) : (s.idle).hsCur = s.hsCur := rfl
@[simp] theorem idle_aCur (s : State) : (s.idle).aCur = s.aCur := rfl
@[simp] theorem idle_nLeft (s : State) : (s.idle).nLeft = s.nLeft := rfl
@[simp] theorem idle_stage (s : State) : (s.idle).stage = s.stage := rfl
@[simp] theorem idle_outCursor (s : State) : (s.idle).outCursor = s.outCursor := rfl
@[simp] theorem idle_faulted (s : State) : (s.idle).faulted = s.faulted := rfl
@[simp] theorem idle_err (s : State) : (s.idle).err = s.err := rfl
@[simp] theorem idle_faultCmd (s : State) : (s.idle).faultCmd = s.faultCmd := rfl
@[simp] theorem idle_done (s : State) : (s.idle).done = false := rfl
@[simp] theorem idle_traceRev (s : State) : (s.idle).traceRev = s.traceRev := rfl
@[simp] theorem idle_rst (s : State) : (s.idle).rst = s.rst := rfl
@[simp] theorem idle_cmds (s : State) : (s.idle).cmds = s.cmds := rfl
@[simp] theorem idle_outAvail (s : State) : (s.idle).outAvail = s.outAvail := rfl
@[simp] theorem idle_answers (s : State) : (s.idle).answers = s.answers := rfl
@[simp] theorem idle_samplesTaken (s : State) : (s.idle).samplesTaken = s.samplesTaken := rfl
@[simp] theorem idle_earlierSessions (s : State) : (s.idle).earlierSessions = s.earlierSessions := rfl
@[simp] theorem idle_outRev (s : State) : (s.idle).outRev = s.outRev := rfl

/-! ### Last writes -/

@[simp] theorem writeBack_a (w : WriteBack) (s : State) : (s.writeBack w).a = s.a := by cases w <;> simp [State.writeBack]
@[simp] theorem writeBack_csN (w : WriteBack) (s : State) : (s.writeBack w).csN = s.csN := by cases w <;> simp [State.writeBack]
@[simp] theorem writeBack_d5Oe (w : WriteBack) (s : State) : (s.writeBack w).d5Oe = s.d5Oe := by cases w <;> simp [State.writeBack]
@[simp] theorem writeBack_d5Out (w : WriteBack) (s : State) : (s.writeBack w).d5Out = s.d5Out := by cases w <;> simp [State.writeBack]
@[simp] theorem writeBack_busDir (w : WriteBack) (s : State) : (s.writeBack w).busDir = s.busDir := by cases w <;> simp [State.writeBack]
@[simp] theorem writeBack_busy (w : WriteBack) (s : State) : (s.writeBack w).busy = s.busy := by cases w <;> simp [State.writeBack]
@[simp] theorem writeBack_curCmd (w : WriteBack) (s : State) : (s.writeBack w).curCmd = s.curCmd := by cases w <;> simp [State.writeBack]
@[simp] theorem writeBack_seqPos (w : WriteBack) (s : State) : (s.writeBack w).seqPos = s.seqPos := by cases w <;> simp [State.writeBack]
@[simp] theorem writeBack_sampled (w : WriteBack) (s : State) : (s.writeBack w).sampled = s.sampled := by cases w <;> simp [State.writeBack]
@[simp] theorem writeBack_hsCur (w : WriteBack) (s : State) : (s.writeBack w).hsCur = s.hsCur := by cases w <;> simp [State.writeBack]
@[simp] theorem writeBack_aCur (w : WriteBack) (s : State) : (s.writeBack w).aCur = s.aCur := by cases w <;> simp [State.writeBack]
@[simp] theorem writeBack_nLeft (w : WriteBack) (s : State) : (s.writeBack w).nLeft = s.nLeft := by cases w <;> simp [State.writeBack]
@[simp] theorem writeBack_stage (w : WriteBack) (s : State) : (s.writeBack w).stage = s.stage := by cases w <;> simp [State.writeBack]
@[simp] theorem writeBack_outCursor (w : WriteBack) (s : State) : (s.writeBack w).outCursor = s.outCursor := by cases w <;> simp [State.writeBack]
@[simp] theorem writeBack_faulted (w : WriteBack) (s : State) : (s.writeBack w).faulted = s.faulted := by cases w <;> simp [State.writeBack]
@[simp] theorem writeBack_err (w : WriteBack) (s : State) : (s.writeBack w).err = s.err := by cases w <;> simp [State.writeBack]
@[simp] theorem writeBack_faultCmd (w : WriteBack) (s : State) : (s.writeBack w).faultCmd = s.faultCmd := by cases w <;> simp [State.writeBack]
@[simp] theorem writeBack_done (w : WriteBack) (s : State) : (s.writeBack w).done = s.done := by cases w <;> simp [State.writeBack]
@[simp] theorem writeBack_traceRev (w : WriteBack) (s : State) : (s.writeBack w).traceRev = s.traceRev := by cases w <;> simp [State.writeBack]
@[simp] theorem writeBack_rst (w : WriteBack) (s : State) : (s.writeBack w).rst = s.rst := by cases w <;> simp [State.writeBack]
@[simp] theorem writeBack_cmds (w : WriteBack) (s : State) : (s.writeBack w).cmds = s.cmds := by cases w <;> simp [State.writeBack]
@[simp] theorem writeBack_outAvail (w : WriteBack) (s : State) : (s.writeBack w).outAvail = s.outAvail := by cases w <;> simp [State.writeBack]
@[simp] theorem writeBack_answers (w : WriteBack) (s : State) : (s.writeBack w).answers = s.answers := by cases w <;> simp [State.writeBack]
@[simp] theorem writeBack_samplesTaken (w : WriteBack) (s : State) : (s.writeBack w).samplesTaken = s.samplesTaken := by cases w <;> simp [State.writeBack]
@[simp] theorem writeBack_earlierSessions (w : WriteBack) (s : State) : (s.writeBack w).earlierSessions = s.earlierSessions := by cases w <;> simp [State.writeBack]
@[simp] theorem writeBack_outRev (w : WriteBack) (s : State) : (s.writeBack w).outRev = s.outRev := by cases w <;> simp [State.writeBack]

/-! ### Releasing two buffers -/

@[simp] theorem releaseTwo_kind (s : State) : (s.releaseTwo).kind = s.kind := by simp [State.releaseTwo, State.release]
@[simp] theorem releaseTwo_res (s : State) : (s.releaseTwo).res = s.res := by simp [State.releaseTwo, State.release]
@[simp] theorem releaseTwo_a (s : State) : (s.releaseTwo).a = s.a := by simp [State.releaseTwo, State.release]
@[simp] theorem releaseTwo_csN (s : State) : (s.releaseTwo).csN = s.csN := by simp [State.releaseTwo, State.release]
@[simp] theorem releaseTwo_d5Oe (s : State) : (s.releaseTwo).d5Oe = s.d5Oe := by simp [State.releaseTwo, State.release]
@[simp] theorem releaseTwo_d5Out (s : State) : (s.releaseTwo).d5Out = s.d5Out := by simp [State.releaseTwo, State.release]
@[simp] theorem releaseTwo_busDir (s : State) : (s.releaseTwo).busDir = s.busDir := by simp [State.releaseTwo, State.release]
@[simp] theorem releaseTwo_busy (s : State) : (s.releaseTwo).busy = s.busy := by simp [State.releaseTwo, State.release]
@[simp] theorem releaseTwo_curCmd (s : State) : (s.releaseTwo).curCmd = s.curCmd := by simp [State.releaseTwo, State.release]
@[simp] theorem releaseTwo_seqPos (s : State) : (s.releaseTwo).seqPos = s.seqPos := by simp [State.releaseTwo, State.release]
@[simp] theorem releaseTwo_sampled (s : State) : (s.releaseTwo).sampled = s.sampled := by simp [State.releaseTwo, State.release]
@[simp] theorem releaseTwo_hsCur (s : State) : (s.releaseTwo).hsCur = s.hsCur := by simp [State.releaseTwo, State.release]
@[simp] theorem releaseTwo_aCur (s : State) : (s.releaseTwo).aCur = s.aCur := by simp [State.releaseTwo, State.release]
@[simp] theorem releaseTwo_nLeft (s : State) : (s.releaseTwo).nLeft = s.nLeft := by simp [State.releaseTwo, State.release]
@[simp] theorem releaseTwo_stage (s : State) : (s.releaseTwo).stage = s.stage := by simp [State.releaseTwo, State.release]
@[simp] theorem releaseTwo_outCursor (s : State) : (s.releaseTwo).outCursor = s.outCursor := by simp [State.releaseTwo, State.release]
@[simp] theorem releaseTwo_faulted (s : State) : (s.releaseTwo).faulted = s.faulted := by simp [State.releaseTwo, State.release]
@[simp] theorem releaseTwo_err (s : State) : (s.releaseTwo).err = s.err := by simp [State.releaseTwo, State.release]
@[simp] theorem releaseTwo_faultCmd (s : State) : (s.releaseTwo).faultCmd = s.faultCmd := by simp [State.releaseTwo, State.release]
@[simp] theorem releaseTwo_done (s : State) : (s.releaseTwo).done = s.done := by simp [State.releaseTwo, State.release]
@[simp] theorem releaseTwo_traceRev (s : State) : (s.releaseTwo).traceRev = s.traceRev := by simp [State.releaseTwo, State.release]
@[simp] theorem releaseTwo_rst (s : State) : (s.releaseTwo).rst = s.rst := by simp [State.releaseTwo, State.release]
@[simp] theorem releaseTwo_cmds (s : State) : (s.releaseTwo).cmds = s.cmds := by simp [State.releaseTwo, State.release]
@[simp] theorem releaseTwo_outAvail (s : State) : (s.releaseTwo).outAvail = s.outAvail := by simp [State.releaseTwo, State.release]
@[simp] theorem releaseTwo_answers (s : State) : (s.releaseTwo).answers = s.answers := by simp [State.releaseTwo, State.release]
@[simp] theorem releaseTwo_samplesTaken (s : State) : (s.releaseTwo).samplesTaken = s.samplesTaken := by simp [State.releaseTwo, State.release]
@[simp] theorem releaseTwo_earlierSessions (s : State) : (s.releaseTwo).earlierSessions = s.earlierSessions := by simp [State.releaseTwo, State.release]
@[simp] theorem releaseTwo_outRev (s : State) : (s.releaseTwo).outRev = s.outRev := by simp [State.releaseTwo, State.release]

/-! ### Releasing four buffers -/

@[simp] theorem releaseFour_kind (s : State) : (s.releaseFour).kind = s.kind := by simp [State.releaseFour, State.release]
@[simp] theorem releaseFour_res (s : State) : (s.releaseFour).res = s.res := by simp [State.releaseFour, State.release]
@[simp] theorem releaseFour_a (s : State) : (s.releaseFour).a = s.a := by simp [State.releaseFour, State.release]
@[simp] theorem releaseFour_csN (s : State) : (s.releaseFour).csN = s.csN := by simp [State.releaseFour, State.release]
@[simp] theorem releaseFour_d5Oe (s : State) : (s.releaseFour).d5Oe = s.d5Oe := by simp [State.releaseFour, State.release]
@[simp] theorem releaseFour_d5Out (s : State) : (s.releaseFour).d5Out = s.d5Out := by simp [State.releaseFour, State.release]
@[simp] theorem releaseFour_busDir (s : State) : (s.releaseFour).busDir = s.busDir := by simp [State.releaseFour, State.release]
@[simp] theorem releaseFour_busy (s : State) : (s.releaseFour).busy = s.busy := by simp [State.releaseFour, State.release]
@[simp] theorem releaseFour_curCmd (s : State) : (s.releaseFour).curCmd = s.curCmd := by simp [State.releaseFour, State.release]
@[simp] theorem releaseFour_seqPos (s : State) : (s.releaseFour).seqPos = s.seqPos := by simp [State.releaseFour, State.release]
@[simp] theorem releaseFour_sampled (s : State) : (s.releaseFour).sampled = s.sampled := by simp [State.releaseFour, State.release]
@[simp] theorem releaseFour_hsCur (s : State) : (s.releaseFour).hsCur = s.hsCur := by simp [State.releaseFour, State.release]
@[simp] theorem releaseFour_aCur (s : State) : (s.releaseFour).aCur = s.aCur := by simp [State.releaseFour, State.release]
@[simp] theorem releaseFour_nLeft (s : State) : (s.releaseFour).nLeft = s.nLeft := by simp [State.releaseFour, State.release]
@[simp] theorem releaseFour_stage (s : State) : (s.releaseFour).stage = s.stage := by simp [State.releaseFour, State.release]
@[simp] theorem releaseFour_outCursor (s : State) : (s.releaseFour).outCursor = s.outCursor := by simp [State.releaseFour, State.release]
@[simp] theorem releaseFour_faulted (s : State) : (s.releaseFour).faulted = s.faulted := by simp [State.releaseFour, State.release]
@[simp] theorem releaseFour_err (s : State) : (s.releaseFour).err = s.err := by simp [State.releaseFour, State.release]
@[simp] theorem releaseFour_faultCmd (s : State) : (s.releaseFour).faultCmd = s.faultCmd := by simp [State.releaseFour, State.release]
@[simp] theorem releaseFour_done (s : State) : (s.releaseFour).done = s.done := by simp [State.releaseFour, State.release]
@[simp] theorem releaseFour_traceRev (s : State) : (s.releaseFour).traceRev = s.traceRev := by simp [State.releaseFour, State.release]
@[simp] theorem releaseFour_rst (s : State) : (s.releaseFour).rst = s.rst := by simp [State.releaseFour, State.release]
@[simp] theorem releaseFour_cmds (s : State) : (s.releaseFour).cmds = s.cmds := by simp [State.releaseFour, State.release]
@[simp] theorem releaseFour_outAvail (s : State) : (s.releaseFour).outAvail = s.outAvail := by simp [State.releaseFour, State.release]
@[simp] theorem releaseFour_answers (s : State) : (s.releaseFour).answers = s.answers := by simp [State.releaseFour, State.release]
@[simp] theorem releaseFour_samplesTaken (s : State) : (s.releaseFour).samplesTaken = s.samplesTaken := by simp [State.releaseFour, State.release]
@[simp] theorem releaseFour_earlierSessions (s : State) : (s.releaseFour).earlierSessions = s.earlierSessions := by simp [State.releaseFour, State.release]
@[simp] theorem releaseFour_outRev (s : State) : (s.releaseFour).outRev = s.outRev := by simp [State.releaseFour, State.release]

/-! ### Releasing a predicate's buffers -/

@[simp] theorem releaseAll_kind (p : Predicate) (s : State) : (p.releaseAll s).kind = s.kind := by cases p <;> simp [Predicate.releaseAll]
@[simp] theorem releaseAll_res (p : Predicate) (s : State) : (p.releaseAll s).res = s.res := by cases p <;> simp [Predicate.releaseAll]
@[simp] theorem releaseAll_a (p : Predicate) (s : State) : (p.releaseAll s).a = s.a := by cases p <;> simp [Predicate.releaseAll]
@[simp] theorem releaseAll_csN (p : Predicate) (s : State) : (p.releaseAll s).csN = s.csN := by cases p <;> simp [Predicate.releaseAll]
@[simp] theorem releaseAll_d5Oe (p : Predicate) (s : State) : (p.releaseAll s).d5Oe = s.d5Oe := by cases p <;> simp [Predicate.releaseAll]
@[simp] theorem releaseAll_d5Out (p : Predicate) (s : State) : (p.releaseAll s).d5Out = s.d5Out := by cases p <;> simp [Predicate.releaseAll]
@[simp] theorem releaseAll_busDir (p : Predicate) (s : State) : (p.releaseAll s).busDir = s.busDir := by cases p <;> simp [Predicate.releaseAll]
@[simp] theorem releaseAll_busy (p : Predicate) (s : State) : (p.releaseAll s).busy = s.busy := by cases p <;> simp [Predicate.releaseAll]
@[simp] theorem releaseAll_curCmd (p : Predicate) (s : State) : (p.releaseAll s).curCmd = s.curCmd := by cases p <;> simp [Predicate.releaseAll]
@[simp] theorem releaseAll_seqPos (p : Predicate) (s : State) : (p.releaseAll s).seqPos = s.seqPos := by cases p <;> simp [Predicate.releaseAll]
@[simp] theorem releaseAll_sampled (p : Predicate) (s : State) : (p.releaseAll s).sampled = s.sampled := by cases p <;> simp [Predicate.releaseAll]
@[simp] theorem releaseAll_hsCur (p : Predicate) (s : State) : (p.releaseAll s).hsCur = s.hsCur := by cases p <;> simp [Predicate.releaseAll]
@[simp] theorem releaseAll_aCur (p : Predicate) (s : State) : (p.releaseAll s).aCur = s.aCur := by cases p <;> simp [Predicate.releaseAll]
@[simp] theorem releaseAll_nLeft (p : Predicate) (s : State) : (p.releaseAll s).nLeft = s.nLeft := by cases p <;> simp [Predicate.releaseAll]
@[simp] theorem releaseAll_stage (p : Predicate) (s : State) : (p.releaseAll s).stage = s.stage := by cases p <;> simp [Predicate.releaseAll]
@[simp] theorem releaseAll_outCursor (p : Predicate) (s : State) : (p.releaseAll s).outCursor = s.outCursor := by cases p <;> simp [Predicate.releaseAll]
@[simp] theorem releaseAll_faulted (p : Predicate) (s : State) : (p.releaseAll s).faulted = s.faulted := by cases p <;> simp [Predicate.releaseAll]
@[simp] theorem releaseAll_err (p : Predicate) (s : State) : (p.releaseAll s).err = s.err := by cases p <;> simp [Predicate.releaseAll]
@[simp] theorem releaseAll_faultCmd (p : Predicate) (s : State) : (p.releaseAll s).faultCmd = s.faultCmd := by cases p <;> simp [Predicate.releaseAll]
@[simp] theorem releaseAll_done (p : Predicate) (s : State) : (p.releaseAll s).done = s.done := by cases p <;> simp [Predicate.releaseAll]
@[simp] theorem releaseAll_traceRev (p : Predicate) (s : State) : (p.releaseAll s).traceRev = s.traceRev := by cases p <;> simp [Predicate.releaseAll]
@[simp] theorem releaseAll_rst (p : Predicate) (s : State) : (p.releaseAll s).rst = s.rst := by cases p <;> simp [Predicate.releaseAll]
@[simp] theorem releaseAll_cmds (p : Predicate) (s : State) : (p.releaseAll s).cmds = s.cmds := by cases p <;> simp [Predicate.releaseAll]
@[simp] theorem releaseAll_outAvail (p : Predicate) (s : State) : (p.releaseAll s).outAvail = s.outAvail := by cases p <;> simp [Predicate.releaseAll]
@[simp] theorem releaseAll_answers (p : Predicate) (s : State) : (p.releaseAll s).answers = s.answers := by cases p <;> simp [Predicate.releaseAll]
@[simp] theorem releaseAll_samplesTaken (p : Predicate) (s : State) : (p.releaseAll s).samplesTaken = s.samplesTaken := by cases p <;> simp [Predicate.releaseAll]
@[simp] theorem releaseAll_earlierSessions (p : Predicate) (s : State) : (p.releaseAll s).earlierSessions = s.earlierSessions := by cases p <;> simp [Predicate.releaseAll]
@[simp] theorem releaseAll_outRev (p : Predicate) (s : State) : (p.releaseAll s).outRev = s.outRev := by cases p <;> simp [Predicate.releaseAll]

/-! ### Buffers by name -/

theorem buffer_setBuffer (j k : BufId) (b : Buffer) (s : State) :
    (s.setBuffer k b).buffer j = if j = k then b else s.buffer j := by
  cases j <;> cases k <;> rfl

@[simp] theorem buffer_setBuffer_self (k : BufId) (b : Buffer) (s : State) : (s.setBuffer k b).buffer k = b := by
  cases k <;> rfl

@[simp] theorem log_buffer (e : Event) (s : State) (k : BufId) : (State.log e s).buffer k = s.buffer k := by cases k <;> rfl
@[simp] theorem evCS_buffer (l : Level) (s : State) (k : BufId) : (s.evCS l).buffer k = s.buffer k := by cases k <;> rfl
@[simp] theorem evWA_buffer (x : Addr) (s : State) (k : BufId) : (s.evWA x).buffer k = s.buffer k := by cases k <;> rfl
@[simp] theorem evDLY_buffer (s : State) (k : BufId) : (s.evDLY).buffer k = s.buffer k := by cases k <;> rfl
@[simp] theorem evD5V_buffer (v : Level) (s : State) (k : BufId) : (s.evD5V v).buffer k = s.buffer k := by cases k <;> rfl
@[simp] theorem evD5D_buffer (d : Level) (s : State) (k : BufId) : (s.evD5D d).buffer k = s.buffer k := by cases k <;> rfl
@[simp] theorem evRD_buffer (s : State) (k : BufId) : (s.evRD).buffer k = s.buffer k := by cases k <;> rfl
@[simp] theorem evEMIT_buffer (b : Byte) (s : State) (k : BufId) : (s.evEMIT b).buffer k = s.buffer k := by cases k <;> rfl
@[simp] theorem point_buffer (m : Micro) (s : State) (k : BufId) : (s.point m).buffer k = s.buffer k := by cases k <;> rfl
@[simp] theorem accept_buffer (w : Word) (s : State) (k : BufId) : (s.accept w).buffer k = s.buffer k := by cases k <;> rfl
@[simp] theorem complete_buffer (s : State) (k : BufId) : (s.complete).buffer k = s.buffer k := by cases k <;> rfl
@[simp] theorem raise_buffer (e : ErrCode) (s : State) (k : BufId) : (s.raise e).buffer k = s.buffer k := by cases k <;> rfl
@[simp] theorem idle_buffer (s : State) (k : BufId) : (s.idle).buffer k = s.buffer k := by cases k <;> rfl

/-- After the two-window predicates: B0 and B1 are not allocated, the others as they were. -/
theorem releaseTwo_buffer (s : State) (k : BufId) :
    s.releaseTwo.buffer k = if k = .b0 ∨ k = .b1 then (s.buffer k).setLen 0 else s.buffer k := by
  cases k <;> rfl

/-- After the four-window predicates: no buffer is allocated. -/
theorem releaseFour_buffer (s : State) (k : BufId) : s.releaseFour.buffer k = (s.buffer k).setLen 0 := by
  cases k <;> rfl

/-! ### Views -/

@[simp] theorem log_trace (e : Event) (s : State) : (State.log e s).trace = s.trace ++ [e] := by
  simp [State.trace]

@[simp] theorem evEMIT_out (b : Byte) (s : State) : (s.evEMIT b).out = s.out ++ [b] := by
  simp [State.out]

theorem trace_congr {s t : State} (h : t.traceRev = s.traceRev) : t.trace = s.trace := by
  simp [State.trace, h]

theorem out_congr {s t : State} (h : t.outRev = s.outRev) : t.out = s.out := by
  simp [State.out, h]

end Sys2Proof.Machine
end

