-- ==== Sys2Proof/Laws/Flags.lean ====
section
/-! SUPPORT. The comparator says whether two stretches of cells are equal (R80). -/

namespace Sys2Proof.Machine

theorem cellsEqual_iff (x y : Vector Byte 128) (i n : Nat) :
    cellsEqual x y i n = true ↔ ∀ j, j < n → x[i + j]? = y[i + j]? := by
  induction n generalizing i with
  | zero => simp [cellsEqual]
  | succ n ih =>
    simp only [cellsEqual]
    split
    · rename_i h
      rw [ih]
      constructor
      · intro g j hj
        cases j with
        | zero => exact h
        | succ j => simpa [Nat.add_assoc, Nat.add_comm 1 j] using g j (by omega)
      · intro g j hj
        simpa [Nat.add_assoc, Nat.add_comm 1 j] using g (j + 1) (by omega)
    · rename_i h
      simp only [Bool.false_eq_true, false_iff]
      exact fun g => h (g 0 (by omega))

/-- Of two buffers that hold byte lists of the same length, the comparator tells whether the lists are equal. -/
theorem buffersEqual_holds {s : State} {a b : BufId} {xs ys : List Byte} (hx : (s.buffer a).holds xs)
    (hy : (s.buffer b).holds ys) (hl : ys.length = xs.length) :
    s.buffersEqual a b xs.length = decide (xs = ys) := by
  rw [Bool.eq_iff_iff, decide_eq_true_iff, State.buffersEqual, cellsEqual_iff]
  constructor
  · intro h
    apply List.ext_getElem?
    intro j
    by_cases hj : j < xs.length
    · rw [← hx.2 j hj, ← hy.2 j (by omega)]
      simpa using h j hj
    · rw [List.getElem?_eq_none (by omega), List.getElem?_eq_none (by omega)]
  · intro h j hj
    subst h
    rw [Nat.zero_add, hx.2 j hj, hy.2 j hj]

end Sys2Proof.Machine
end

