-- ==== Sys2Proof/Laws/Sequencer.lean ====
section
/-! SUPPORT. What issuing events can do, said once: the fields no event touches, the events it adds to the record,
and how runs of events compose. -/

namespace Sys2Proof.Machine

/-! ### Composition -/

@[simp] theorem issueAll_nil (s : State) : State.issueAll [] s = s := rfl

@[simp] theorem issueAll_cons (m : Micro) (ms : List Micro) (s : State) :
    State.issueAll (m :: ms) s = State.issueAll ms (s.issue m) := rfl

theorem issueAll_append (xs ys : List Micro) (s : State) :
    State.issueAll (xs ++ ys) s = State.issueAll ys (State.issueAll xs s) := by
  induction xs generalizing s with
  | nil => rfl
  | cons x xs ih => exact ih (s.issue x)

@[simp] theorem run_finish (w : WriteBack) (s : State) : (Routine.finish w).run s = (s.writeBack w).complete := rfl

@[simp] theorem run_events (ms : List Micro) (k : Routine) (s : State) :
    (Routine.events ms k).run s = k.run (State.issueAll ms s) := by
  induction ms generalizing s with
  | nil => rfl
  | cons m ms ih => exact ih (s.issue m)

theorem run_test (p : Predicate) (yes no : Routine) (s : State) :
    (Routine.test p yes no).run s =
      if p.holds s then yes.run (p.releaseAll s) else no.run (p.releaseAll s) := rfl

/-! ### The fields an action leaves -/

/-- The event an action adds to the record in state `s`. -/
def Action.event (s : State) : Action → Event
  | .cs l => .cs l
  | .wa a => .wa a
  | .dly => .dly
  | .rd _ => .rd s.lineByte
  | .d5v v => .d5v v
  | .d5d d => .d5d d
  | .emit => .emit s.lastSample

/-- An event's shape, told from the action alone. -/
def Action.shape : Action → Event
  | .cs l => .cs l
  | .wa a => .wa a
  | .dly => .dly
  | .rd _ => .rd 0#8
  | .d5v v => .d5v v
  | .d5d d => .d5d d
  | .emit => .emit 0#8

theorem Action.event_shape (s : State) (x : Action) : eventShape (x.event s) = x.shape := by cases x <;> rfl

/-- What no event touches (R39 to R47). -/
theorem issue_frame (m : Micro) (s : State) :
    (s.issue m).kind = s.kind ∧ (s.issue m).res = s.res ∧ (s.issue m).busDir = s.busDir ∧
    (s.issue m).busy = s.busy ∧ (s.issue m).curCmd = s.curCmd ∧ (s.issue m).faulted = s.faulted ∧
    (s.issue m).err = s.err ∧ (s.issue m).faultCmd = s.faultCmd ∧ (s.issue m).done = s.done ∧
    (s.issue m).rst = s.rst ∧ (s.issue m).cmds = s.cmds ∧ (s.issue m).outAvail = s.outAvail := by
  simp only [State.issue]
  cases m.act <;> simp [State.act]

/-- Every event is one more in the record and one more in SEQ_POS (R21, R31). -/
theorem issue_record (m : Micro) (s : State) :
    (s.issue m).traceRev = (m.act.event (s.point m)) :: s.traceRev ∧ (s.issue m).seqPos = s.seqPos + 1#32 := by
  simp only [State.issue]
  cases m.act <;> simp [State.act, Action.event]

@[simp] theorem issue_kind (m : Micro) (s : State) : (s.issue m).kind = s.kind := (issue_frame m s).1
@[simp] theorem issue_res (m : Micro) (s : State) : (s.issue m).res = s.res := (issue_frame m s).2.1
@[simp] theorem issue_busDir (m : Micro) (s : State) : (s.issue m).busDir = s.busDir := (issue_frame m s).2.2.1
@[simp] theorem issue_busy (m : Micro) (s : State) : (s.issue m).busy = s.busy := (issue_frame m s).2.2.2.1
@[simp] theorem issue_curCmd (m : Micro) (s : State) : (s.issue m).curCmd = s.curCmd := (issue_frame m s).2.2.2.2.1
@[simp] theorem issue_faulted (m : Micro) (s : State) : (s.issue m).faulted = s.faulted :=
  (issue_frame m s).2.2.2.2.2.1
@[simp] theorem issue_err (m : Micro) (s : State) : (s.issue m).err = s.err := (issue_frame m s).2.2.2.2.2.2.1
@[simp] theorem issue_faultCmd (m : Micro) (s : State) : (s.issue m).faultCmd = s.faultCmd :=
  (issue_frame m s).2.2.2.2.2.2.2.1
@[simp] theorem issue_done (m : Micro) (s : State) : (s.issue m).done = s.done :=
  (issue_frame m s).2.2.2.2.2.2.2.2.1
@[simp] theorem issue_rst (m : Micro) (s : State) : (s.issue m).rst = s.rst :=
  (issue_frame m s).2.2.2.2.2.2.2.2.2.1
@[simp] theorem issue_cmds (m : Micro) (s : State) : (s.issue m).cmds = s.cmds :=
  (issue_frame m s).2.2.2.2.2.2.2.2.2.2.1
@[simp] theorem issue_outAvail (m : Micro) (s : State) : (s.issue m).outAvail = s.outAvail :=
  (issue_frame m s).2.2.2.2.2.2.2.2.2.2.2

@[simp] theorem issue_earlierSessions (m : Micro) (s : State) : (s.issue m).earlierSessions = s.earlierSessions := by
  simp only [State.issue]
  cases m.act <;> simp [State.act]

/-- A field no event touches keeps its value over any run of events. -/
theorem issueAll_keeps {α : Type} (f : State → α) (h : ∀ m s, f (s.issue m) = f s) (ms : List Micro) (s : State) :
    f (State.issueAll ms s) = f s := by
  induction ms generalizing s with
  | nil => rfl
  | cons m ms ih => exact (ih (s.issue m)).trans (h m s)

@[simp] theorem issueAll_kind (ms : List Micro) (s : State) : (State.issueAll ms s).kind = s.kind :=
  issueAll_keeps State.kind issue_kind ms s
@[simp] theorem issueAll_res (ms : List Micro) (s : State) : (State.issueAll ms s).res = s.res :=
  issueAll_keeps State.res issue_res ms s
@[simp] theorem issueAll_busDir (ms : List Micro) (s : State) : (State.issueAll ms s).busDir = s.busDir :=
  issueAll_keeps State.busDir issue_busDir ms s
@[simp] theorem issueAll_busy (ms : List Micro) (s : State) : (State.issueAll ms s).busy = s.busy :=
  issueAll_keeps State.busy issue_busy ms s
@[simp] theorem issueAll_curCmd (ms : List Micro) (s : State) : (State.issueAll ms s).curCmd = s.curCmd :=
  issueAll_keeps State.curCmd issue_curCmd ms s
@[simp] theorem issueAll_faulted (ms : List Micro) (s : State) : (State.issueAll ms s).faulted = s.faulted :=
  issueAll_keeps State.faulted issue_faulted ms s
@[simp] theorem issueAll_err (ms : List Micro) (s : State) : (State.issueAll ms s).err = s.err :=
  issueAll_keeps State.err issue_err ms s
@[simp] theorem issueAll_faultCmd (ms : List Micro) (s : State) : (State.issueAll ms s).faultCmd = s.faultCmd :=
  issueAll_keeps State.faultCmd issue_faultCmd ms s
@[simp] theorem issueAll_done (ms : List Micro) (s : State) : (State.issueAll ms s).done = s.done :=
  issueAll_keeps State.done issue_done ms s
@[simp] theorem issueAll_rst (ms : List Micro) (s : State) : (State.issueAll ms s).rst = s.rst :=
  issueAll_keeps State.rst issue_rst ms s
@[simp] theorem issueAll_cmds (ms : List Micro) (s : State) : (State.issueAll ms s).cmds = s.cmds :=
  issueAll_keeps State.cmds issue_cmds ms s
@[simp] theorem issueAll_outAvail (ms : List Micro) (s : State) : (State.issueAll ms s).outAvail = s.outAvail :=
  issueAll_keeps State.outAvail issue_outAvail ms s

@[simp] theorem issueAll_earlierSessions (ms : List Micro) (s : State) :
    (State.issueAll ms s).earlierSessions = s.earlierSessions :=
  issueAll_keeps State.earlierSessions issue_earlierSessions ms s

/-! ### Samples and emitted bytes of a record -/

@[simp] theorem samplesOf_append (xs ys : List Event) : samplesOf (xs ++ ys) = samplesOf xs ++ samplesOf ys := by
  induction xs with
  | nil => rfl
  | cons x xs ih => cases x <;> simp [samplesOf, ih]

@[simp] theorem emittedOf_append (xs ys : List Event) : emittedOf (xs ++ ys) = emittedOf xs ++ emittedOf ys := by
  induction xs with
  | nil => rfl
  | cons x xs ih => cases x <;> simp [emittedOf, ih]

/-! ### What a run of events did -/

theorem issued_refl (s : State) : s.issued s [] := by
  refine ⟨by simp, by simp, ?_⟩
  simp [samplesOf, emittedOf]

theorem issued_trans {s t u : State} {es fs : List Event} (h : s.issued t es) (g : t.issued u fs) :
    s.issued u (es ++ fs) := by
  obtain ⟨h1, h2, h3, h4, h5, h6, h7, h8⟩ := h
  obtain ⟨g1, g2, g3, g4, g5, g6, g7, g8⟩ := g
  refine ⟨by rw [g1, h1, List.append_assoc], ?_, by rw [g3, h3]; simp, ?_, ?_, ?_, by rw [g7, h7]; simp, ?_⟩
  · rw [g2, h2, List.length_append, BitVec.ofNat_add, BitVec.add_assoc]
  · rw [h5] at g4
    rw [samplesOf_append, List.length_append, List.take_add]
    by_cases hl : (samplesOf es).length ≤ s.answers.length
    · have : s.answers.take (samplesOf es).length = samplesOf es :=
        h4.eq_of_length (by simp [hl])
      rw [this]
      exact (List.prefix_append_right_inj _).mpr g4
    · rw [List.drop_eq_nil_of_le (by omega), List.take_nil, List.append_nil]
      exact h4.trans (List.prefix_append _ _)
  · rw [g5, h5, List.drop_drop, samplesOf_append, List.length_append]
  · rw [g6, h6, samplesOf_append, List.length_append, Nat.add_assoc]
  · rw [g8, h8, emittedOf_append, List.length_append, BitVec.ofNat_add, BitVec.add_assoc]

/-- One event, as the observer, the environment and the output see it. -/
theorem issue_issued (m : Micro) (s : State) : s.issued (s.issue m) [m.act.event (s.point m)] := by
  obtain ⟨h1, h2⟩ := issue_record m s
  have hl : (s.point m).lineByte = s.lineByte := by simp [State.lineByte]
  refine ⟨by simp [State.trace, h1], by simpa using h2, ?_⟩
  simp only [State.issue]
  cases m.act <;> simp [State.act, Action.event, samplesOf, emittedOf, hl]
  rcases h : s.answers with _ | ⟨b, bs⟩ <;> simp [State.lineByte, h]

/-- A run of events issues exactly its actions' events, with the bytes the environment answered. -/
theorem issueAll_issued (ms : List Micro) (s : State) :
    ∃ es, s.issued (State.issueAll ms s) es ∧ es.map eventShape = ms.map fun m => m.act.shape := by
  induction ms generalizing s with
  | nil => exact ⟨[], issued_refl s, rfl⟩
  | cons m ms ih =>
    obtain ⟨es, h, hs⟩ := ih (s.issue m)
    exact ⟨_ :: es, issued_trans (issue_issued m s) h, by simp [hs, Action.event_shape]⟩

/-! ### The lines after a list of events (R20, R30: a line keeps its level until an event names it) -/

/-- A after these events. -/
def addrAfter : Addr → List Event → Addr
  | a, [] => a
  | _, .wa x :: es => addrAfter x es
  | a, .cs _ :: es | a, .dly :: es | a, .rd _ :: es | a, .d5v _ :: es | a, .d5d _ :: es | a, .emit _ :: es =>
    addrAfter a es

/-- CS_N after these events. -/
def csAfter : Level → List Event → Level
  | l, [] => l
  | _, .cs x :: es => csAfter x es
  | l, .wa _ :: es | l, .dly :: es | l, .rd _ :: es | l, .d5v _ :: es | l, .d5d _ :: es | l, .emit _ :: es =>
    csAfter l es

/-- D5_OE after these events. -/
def oeAfter : Level → List Event → Level
  | l, [] => l
  | _, .d5d x :: es => oeAfter x es
  | l, .wa _ :: es | l, .dly :: es | l, .rd _ :: es | l, .d5v _ :: es | l, .cs _ :: es | l, .emit _ :: es =>
    oeAfter l es

/-- D5_OUT after these events. -/
def outAfter : Level → List Event → Level
  | l, [] => l
  | _, .d5v x :: es => outAfter x es
  | l, .wa _ :: es | l, .dly :: es | l, .rd _ :: es | l, .d5d _ :: es | l, .cs _ :: es | l, .emit _ :: es =>
    outAfter l es

@[simp] theorem addrAfter_append (a : Addr) (xs ys : List Event) :
    addrAfter a (xs ++ ys) = addrAfter (addrAfter a xs) ys := by
  induction xs generalizing a with
  | nil => rfl
  | cons x xs ih => cases x <;> simp [addrAfter, ih]

@[simp] theorem csAfter_append (l : Level) (xs ys : List Event) :
    csAfter l (xs ++ ys) = csAfter (csAfter l xs) ys := by
  induction xs generalizing l with
  | nil => rfl
  | cons x xs ih => cases x <;> simp [csAfter, ih]

@[simp] theorem oeAfter_append (l : Level) (xs ys : List Event) :
    oeAfter l (xs ++ ys) = oeAfter (oeAfter l xs) ys := by
  induction xs generalizing l with
  | nil => rfl
  | cons x xs ih => cases x <;> simp [oeAfter, ih]

@[simp] theorem outAfter_append (l : Level) (xs ys : List Event) :
    outAfter l (xs ++ ys) = outAfter (outAfter l xs) ys := by
  induction xs generalizing l with
  | nil => rfl
  | cons x xs ih => cases x <;> simp [outAfter, ih]

/-- The bus registers follow the events. -/
def State.linesFollow (s t : State) (es : List Event) : Prop :=
  t.a = addrAfter s.a es ∧ t.csN = csAfter s.csN es ∧ t.d5Oe = oeAfter s.d5Oe es ∧ t.d5Out = outAfter s.d5Out es

theorem linesFollow_refl (s : State) : s.linesFollow s [] := ⟨rfl, rfl, rfl, rfl⟩

theorem linesFollow_trans {s t u : State} {es fs : List Event} (h : s.linesFollow t es) (g : t.linesFollow u fs) :
    s.linesFollow u (es ++ fs) := by
  obtain ⟨h1, h2, h3, h4⟩ := h
  obtain ⟨g1, g2, g3, g4⟩ := g
  exact ⟨by rw [g1, h1, addrAfter_append], by rw [g2, h2, csAfter_append], by rw [g3, h3, oeAfter_append],
    by rw [g4, h4, outAfter_append]⟩

theorem issue_linesFollow (m : Micro) (s : State) : s.linesFollow (s.issue m) [m.act.event (s.point m)] := by
  simp only [State.issue, State.linesFollow]
  cases m.act <;> simp [State.act, Action.event, addrAfter, csAfter, oeAfter, outAfter]

/-- ALL THAT A RUN OF EVENTS DOES. It issues its actions' events, with the bytes the environment answered; the lines
follow them; and of everything else only the compare buffers and the named cursors may change. -/
theorem issueAll_spec (ms : List Micro) (s : State) :
    ∃ es, s.issued (State.issueAll ms s) es ∧ s.linesFollow (State.issueAll ms s) es ∧
      es.map eventShape = ms.map fun m => m.act.shape := by
  induction ms generalizing s with
  | nil => exact ⟨[], issued_refl s, linesFollow_refl s, rfl⟩
  | cons m ms ih =>
    obtain ⟨es, h, hl, hs⟩ := ih (s.issue m)
    exact ⟨_ :: es, issued_trans (issue_issued m s) h, linesFollow_trans (issue_linesFollow m s) hl,
      by simp [hs, Action.event_shape]⟩

/-- `s` with the position, the record, the answers, the lines, the compare buffers and the output of `t`: what a run
of events may change. -/
def State.passedTo (s t : State) : State :=
  { s with
    b0 := t.b0
    b1 := t.b1
    b2 := t.b2
    b3 := t.b3
    a := t.a
    csN := t.csN
    d5Oe := t.d5Oe
    d5Out := t.d5Out
    seqPos := t.seqPos
    sampled := t.sampled
    hsCur := t.hsCur
    aCur := t.aCur
    nLeft := t.nLeft
    stage := t.stage
    outCursor := t.outCursor
    traceRev := t.traceRev
    answers := t.answers
    samplesTaken := t.samplesTaken
    outRev := t.outRev }

/-- The frame of a run of events (R16, R17, R26, R45, R124). -/
theorem issueAll_frame (ms : List Micro) (s : State) : State.issueAll ms s = s.passedTo (State.issueAll ms s) := by
  ext1 <;> simp [State.passedTo]

/-- A run of events and what an observer saw of it determine each other: two accounts of one run agree. -/
theorem issued_unique {s t : State} {es fs : List Event} (h : s.issued t es) (g : s.issued t fs) : es = fs :=
  List.append_cancel_left (h.1.symm.trans g.1)

end Sys2Proof.Machine
end

