-- ==== Sys2Proof/Laws/ProbeEngine.lean ====
section
/-! SUPPORT. One lemma for each Probe Engine procedure: the events it issues and what it does to the compare buffers,
from any state (issueAll_frame and lines_of_issued say the rest). Each speaks of any list of events with the
procedure's actions, so that it holds for the numbered calls of a predicate or a plan too. -/

namespace Sys2Proof.Machine

/-- The actions of a list of events. -/
def actionsOf (ms : List Micro) : List Action := ms.map Micro.act

@[simp] theorem actionsOf_nil : actionsOf [] = [] := rfl

@[simp] theorem actionsOf_cons (m : Micro) (ms : List Micro) : actionsOf (m :: ms) = m.act :: actionsOf ms := rfl

@[simp] theorem actionsOf_append (xs ys : List Micro) : actionsOf (xs ++ ys) = actionsOf xs ++ actionsOf ys := by
  simp [actionsOf]

/-- Moving the named cursors changes no action. -/
@[simp] theorem actionsOf_inStage (n : Nat) (ms : List Micro) : actionsOf (ms.map (Micro.inStage n)) = actionsOf ms := by
  simp [actionsOf, Function.comp_def, Micro.inStage]

@[simp] theorem actionsOf_inBank (h : Addr) (ms : List Micro) : actionsOf (ms.map (Micro.inBank h)) = actionsOf ms := by
  simp [actionsOf, Function.comp_def, Micro.inBank]

@[simp] theorem inTurn_act (a : Addr) (left : Nat) (m : Micro) : (m.inTurn a left).act = m.act := by
  simp only [Micro.inTurn]
  split <;> simp_all

@[simp] theorem actionsOf_inTurn (a : Addr) (left : Nat) (ms : List Micro) :
    actionsOf (ms.map (Micro.inTurn a left)) = actionsOf ms := by
  simp [actionsOf, Function.comp_def]

theorem actionsOf_eq_nil {ms : List Micro} (h : actionsOf ms = []) : ms = [] := by
  simpa [actionsOf] using h

theorem actionsOf_eq_cons {ms : List Micro} {x : Action} {xs : List Action} (h : actionsOf ms = x :: xs) :
    ∃ m rest, ms = m :: rest ∧ m.act = x ∧ actionsOf rest = xs := by
  cases ms with
  | nil => simp at h
  | cons m rest => exact ⟨m, rest, rfl, by simpa using h⟩

theorem actionsOf_eq_append {ms : List Micro} {xs ys : List Action} (h : actionsOf ms = xs ++ ys) :
    ∃ m1 m2, ms = m1 ++ m2 ∧ actionsOf m1 = xs ∧ actionsOf m2 = ys := by
  obtain ⟨m1, m2, h0, h1, h2⟩ := List.map_eq_append_iff.mp h
  exact ⟨m1, m2, h0, h1, h2⟩

theorem numberCalls_actions (n : Nat) (cs : List (List Micro)) :
    actionsOf (numberCalls n cs) = (cs.map actionsOf).flatten := by
  induction cs generalizing n with
  | nil => rfl
  | cons c cs ih => simp [numberCalls, ih]

/-- What an observer saw of a run of events tells the lines after it. -/
theorem lines_of_issued {ms : List Micro} {s : State} {es : List Event} (h : s.issued (State.issueAll ms s) es) :
    s.linesFollow (State.issueAll ms s) es := by
  obtain ⟨fs, h1, h2, _⟩ := issueAll_spec ms s
  exact issued_unique h1 h ▸ h2

/-- A run of events whose actions take no byte into a buffer leaves the buffers alone. -/
theorem issueAll_buffer {ms : List Micro} (h : ∀ x ∈ actionsOf ms, ∀ k i n, x ≠ .rd (.cell k i n)) (s : State)
    (k : BufId) : (State.issueAll ms s).buffer k = s.buffer k := by
  induction ms generalizing s with
  | nil => rfl
  | cons m ms ih =>
    rw [issueAll_cons, ih (fun x hx => h x (List.mem_cons_of_mem _ hx))]
    have hm := h m.act (by simp)
    simp only [State.issue]
    rcases hm' : m.act with l | x | _ | into | v | d | _
    case rd =>
      cases into with
      | hold => simp [State.act, State.takeIn]
      | cell k i n => exact absurd hm' (hm k i n)
    all_goals simp [State.act]

/-! ### assertHotspot and feTrigger -/

/-- What `assertHotspot` does (R76). -/
theorem hotspot_spec {ms : List Micro} {addr : Addr} (h : actionsOf ms = actionsOf (assertHotspot addr)) (s : State) :
    s.issued (State.issueAll ms s) (hotspotTrace addr) ∧ ∀ k, (State.issueAll ms s).buffer k = s.buffer k := by
  refine ⟨?_, issueAll_buffer (by simp [h, assertHotspot, Micro.plain]) s⟩
  simp only [assertHotspot, actionsOf_cons, actionsOf_nil, Micro.plain] at h
  obtain ⟨m1, _, rfl, h1, h⟩ := actionsOf_eq_cons h
  obtain ⟨m2, _, rfl, h2, h⟩ := actionsOf_eq_cons h
  obtain ⟨m3, _, rfl, h3, h⟩ := actionsOf_eq_cons h
  obtain ⟨m4, _, rfl, h4, h⟩ := actionsOf_eq_cons h
  obtain ⟨m5, _, rfl, h5, h⟩ := actionsOf_eq_cons h
  obtain rfl := actionsOf_eq_nil h
  have e := issued_trans (issue_issued m1 s) (issued_trans (issue_issued m2 _) (issued_trans (issue_issued m3 _)
    (issued_trans (issue_issued m4 _) (issue_issued m5 _))))
  simpa [h1, h2, h3, h4, h5, Action.event, hotspotTrace] using e

/-- What `feTrigger` does (R82). -/
theorem feTrigger_spec {ms : List Micro} {p : Level} (h : actionsOf ms = actionsOf (feTrigger p)) (s : State) :
    s.issued (State.issueAll ms s) (feTrace p) ∧ ∀ k, (State.issueAll ms s).buffer k = s.buffer k := by
  refine ⟨?_, issueAll_buffer (by simp [h, feTrigger, Micro.plain]) s⟩
  simp only [feTrigger, actionsOf_cons, actionsOf_nil, Micro.plain] at h
  obtain ⟨m1, _, rfl, h1, h⟩ := actionsOf_eq_cons h
  obtain ⟨m2, _, rfl, h2, h⟩ := actionsOf_eq_cons h
  obtain ⟨m3, _, rfl, h3, h⟩ := actionsOf_eq_cons h
  obtain ⟨m4, _, rfl, h4, h⟩ := actionsOf_eq_cons h
  obtain ⟨m5, _, rfl, h5, h⟩ := actionsOf_eq_cons h
  obtain ⟨m6, _, rfl, h6, h⟩ := actionsOf_eq_cons h
  obtain ⟨m7, _, rfl, h7, h⟩ := actionsOf_eq_cons h
  obtain ⟨m8, _, rfl, h8, h⟩ := actionsOf_eq_cons h
  obtain ⟨m9, _, rfl, h9, h⟩ := actionsOf_eq_cons h
  obtain ⟨m10, _, rfl, h10, h⟩ := actionsOf_eq_cons h
  obtain ⟨m11, _, rfl, h11, h⟩ := actionsOf_eq_cons h
  obtain ⟨m12, _, rfl, h12, h⟩ := actionsOf_eq_cons h
  obtain rfl := actionsOf_eq_nil h
  have e := issued_trans (issue_issued m1 s) (issued_trans (issue_issued m2 _) (issued_trans (issue_issued m3 _)
    (issued_trans (issue_issued m4 _) (issued_trans (issue_issued m5 _) (issued_trans (issue_issued m6 _)
    (issued_trans (issue_issued m7 _) (issued_trans (issue_issued m8 _) (issued_trans (issue_issued m9 _)
    (issued_trans (issue_issued m10 _) (issued_trans (issue_issued m11 _) (issue_issued m12 _)))))))))))
  simpa [h1, h2, h3, h4, h5, h6, h7, h8, h9, h10, h11, h12, Action.event, feTrace] using e

/-! ### readByte -/

/-- What `readByte` does (R77): a sample, taken in as its intake says. -/
theorem readByte_spec {ms : List Micro} {addr : Addr} {into : Intake}
    (h : actionsOf ms = actionsOf (readByte addr into)) (s : State) :
    ∃ b, s.issued (State.issueAll ms s) [.wa addr, .dly, .rd b] ∧ (State.issueAll ms s).lastSample = b ∧
      ∀ k, (State.issueAll ms s).buffer k = (s.takeIn into b).buffer k := by
  simp only [readByte, actionsOf_cons, actionsOf_nil, Micro.plain] at h
  obtain ⟨m1, _, rfl, h1, h⟩ := actionsOf_eq_cons h
  obtain ⟨m2, _, rfl, h2, h⟩ := actionsOf_eq_cons h
  obtain ⟨m3, _, rfl, h3, h⟩ := actionsOf_eq_cons h
  obtain rfl := actionsOf_eq_nil h
  refine ⟨(((s.issue m1).issue m2).point m3).lineByte, ?_, ?_, ?_⟩
  · have e := issued_trans (issue_issued m1 s) (issued_trans (issue_issued m2 _) (issue_issued m3 _))
    simpa [h1, h2, h3, Action.event] using e
  · simp [State.issue, State.act, State.lastSample, h3]
  · intro k
    simp only [issueAll_cons, issueAll_nil, State.issue, State.act, State.takeIn, h1, h2, h3]
    cases into with
    | hold => simp
    | cell j i n =>
      simp only []
      split <;> simp [buffer_setBuffer]

/-! ### readRange to OUT -/

/-- One turn of a range read to OUT (R78). -/
theorem turnOut_spec {ms : List Micro} {addr : Addr} {i n : Nat}
    (h : actionsOf ms = actionsOf (rangeTurn .out addr i n)) (s : State) :
    ∃ b, s.issued (State.issueAll ms s) [.wa addr, .dly, .rd b, .emit b] := by
  simp only [rangeTurn, actionsOf_append] at h
  obtain ⟨m1, m2, rfl, h1, h2⟩ := actionsOf_eq_append h
  obtain ⟨m, _, rfl, h3, h0⟩ := actionsOf_eq_cons h2
  obtain rfl := actionsOf_eq_nil h0
  replace h3 : m.act = .emit := h3
  obtain ⟨b, g1, g2, -⟩ := readByte_spec h1 s
  have hb : ((State.issueAll m1 s).point m).lastSample = b := by
    rw [← g2]
    simp [State.lastSample]
  refine ⟨b, ?_⟩
  rw [issueAll_append]
  have e := issued_trans g1 (issue_issued m _)
  simpa [h3, Action.event, hb] using e

/-- What `readRange` to OUT does (R78). -/
theorem rangeOut_spec (n left : Nat) (addr : Addr) {ms : List Micro}
    (h : actionsOf ms = actionsOf (rangeTurns .out n addr left)) (s : State) :
    ∃ bs, bs.length = left ∧ s.issued (State.issueAll ms s) (dumpTrace addr bs) := by
  induction left generalizing addr ms s with
  | zero =>
    obtain rfl := actionsOf_eq_nil h
    exact ⟨[], rfl, issued_refl s⟩
  | succ left ih =>
    simp only [rangeTurns, actionsOf_append, actionsOf_inTurn] at h
    obtain ⟨m1, m2, rfl, h1, h2⟩ := actionsOf_eq_append h
    obtain ⟨b, g1⟩ := turnOut_spec h1 s
    obtain ⟨bs, hl, f1⟩ := ih (addr + 1#12) h2 (State.issueAll m1 s)
    refine ⟨b :: bs, by simp [hl], ?_⟩
    rw [issueAll_append]
    exact issued_trans g1 f1

/-- A range read to OUT takes nothing into a buffer. -/
theorem rangeOut_noCell (n left : Nat) (addr : Addr) :
    ∀ x ∈ actionsOf (rangeTurns .out n addr left), ∀ k i m, x ≠ .rd (.cell k i m) := by
  induction left generalizing addr with
  | zero => simp [rangeTurns]
  | succ left ih =>
    intro x hx
    simp only [rangeTurns, actionsOf_append, actionsOf_inTurn, List.mem_append] at hx
    rcases hx with hx | hx
    · simp only [rangeTurn, readByte, Micro.plain, List.cons_append, List.nil_append, actionsOf_cons, actionsOf_nil,
        List.mem_cons, List.not_mem_nil, or_false] at hx
      rcases hx with rfl | rfl | rfl | rfl <;> simp
    · exact ih _ x hx

/-! ### readRange to a buffer -/

theorem store_cells (x : Buffer) (i : Nat) (b : Byte) (j : Nat) (hi : i < 128) :
    (x.store i b).cells[j]? = if j = i then some b else x.cells[j]? := by
  simp only [Buffer.store, Vector.getElem?_setIfInBounds, eq_comm (a := i)]
  by_cases h : j = i
  · simp [h, hi]
  · simp [h]

@[simp] theorem setLen_cells (x : Buffer) (n : Nat) : (x.setLen n).cells = x.cells := rfl

@[simp] theorem store_len (x : Buffer) (i : Nat) (b : Byte) : (x.store i b).len = x.len := rfl

/-- What `readRange` to buffer `k` does (R78): the last `left` of its `n` turns. -/
theorem rangeBuf_spec (k : BufId) (n left : Nat) (hn : n ≤ 128) (hl : left ≤ n) (addr : Addr) {ms : List Micro}
    (h : actionsOf ms = actionsOf (rangeTurns (.buf k) n addr left)) (s : State) :
    ∃ bs, bs.length = left ∧ s.issued (State.issueAll ms s) (readTrace addr bs) ∧
      (∀ j, j ≠ k → (State.issueAll ms s).buffer j = s.buffer j) ∧
      (∀ j, j < n - left → ((State.issueAll ms s).buffer k).cells[j]? = (s.buffer k).cells[j]?) ∧
      (∀ j, j < left → ((State.issueAll ms s).buffer k).cells[n - left + j]? = bs[j]?) ∧
      ((State.issueAll ms s).buffer k).len = if left = 0 then (s.buffer k).len else BitVec.ofNat 8 n := by
  induction left generalizing addr ms s with
  | zero =>
    obtain rfl := actionsOf_eq_nil h
    exact ⟨[], rfl, issued_refl s, by simp, by simp, by simp, by simp⟩
  | succ left ih =>
    simp only [rangeTurns, actionsOf_append, actionsOf_inTurn] at h
    obtain ⟨m1, m2, rfl, h1, h2⟩ := actionsOf_eq_append h
    obtain ⟨b, g1, -, g3⟩ := readByte_spec h1 s
    obtain ⟨bs, hb, f1, f3, f4, f5, f6⟩ := ih (by omega) (addr + 1#12) h2 (State.issueAll m1 s)
    have gk : (State.issueAll m1 s).buffer k =
        if n - (left + 1) + 1 = n then ((s.buffer k).store (n - (left + 1)) b).setLen n
        else (s.buffer k).store (n - (left + 1)) b := by
      rw [g3]
      simp only [State.takeIn]
      split <;> simp
    have hc : ∀ j, ((State.issueAll m1 s).buffer k).cells[j]? =
        if j = n - (left + 1) then some b else (s.buffer k).cells[j]? := by
      intro j
      rw [gk, ← store_cells _ _ _ _ (by omega : n - (left + 1) < 128)]
      split <;> simp
    refine ⟨b :: bs, by simp [hb], ?_, ?_, ?_, ?_, ?_⟩
    · rw [issueAll_append]
      exact issued_trans g1 f1
    · intro j hj
      rw [issueAll_append, f3 j hj, g3 j]
      simp only [State.takeIn]
      split <;> simp [buffer_setBuffer, hj]
    · intro j hj
      rw [issueAll_append, f4 j (by omega), hc, if_neg (by omega)]
    · intro j hj
      rw [issueAll_append]
      cases j with
      | zero =>
        rw [f4 _ (by omega), hc]
        simp
      | succ j =>
        have := f5 j (by omega)
        rw [show n - (left + 1) + (j + 1) = n - left + j by omega, this]
        simp
    · rw [issueAll_append, f6, gk]
      by_cases h0 : left = 0
      · subst h0
        simp [Buffer.setLen, show n - 1 + 1 = n by omega]
      · simp [h0]

/-- A whole range read of at least one byte to a buffer leaves it holding the bytes read (R18, R78). -/
theorem readRange_holds (k : BufId) (n : Nat) (hn : n ≤ 128) (hp : 0 < n) (addr : Addr) {ms : List Micro}
    (h : actionsOf ms = actionsOf (readRange addr n (.buf k))) (s : State) :
    ∃ bs, bs.length = n ∧ s.issued (State.issueAll ms s) (readTrace addr bs) ∧
      (∀ j, j ≠ k → (State.issueAll ms s).buffer j = s.buffer j) ∧ ((State.issueAll ms s).buffer k).holds bs := by
  obtain ⟨bs, h1, h2, h4, _, h6, h7⟩ := rangeBuf_spec k n n hn (Nat.le_refl n) addr h s
  refine ⟨bs, h1, h2, h4, ?_, ?_⟩
  · rw [h7, if_neg (by omega), h1, BitVec.toNat_ofNat]
    omega
  · intro i hi
    simpa using h6 i (h1 ▸ hi)

/-! ### Lines, samples and emitted bytes of the observer's lists -/

@[simp] theorem lastAddr_zero (old addr : Addr) : lastAddr old addr 0 = old := rfl

theorem lastAddr_succ (old addr : Addr) (n : Nat) : lastAddr old addr (n + 1) = lastAddr addr (addr + 1#12) n := by
  cases n with
  | zero => simp [lastAddr]
  | succ n =>
    simp only [lastAddr]
    rw [BitVec.add_assoc, show (1#12 : Addr) = BitVec.ofNat 12 1 from rfl, ← BitVec.ofNat_add, Nat.add_comm]

@[simp] theorem readTrace_addr (old a : Addr) (bs : List Byte) :
    addrAfter old (readTrace a bs) = lastAddr old a bs.length := by
  induction bs generalizing old a with
  | nil => rfl
  | cons b bs ih => simp [readTrace, addrAfter, ih, lastAddr_succ]

@[simp] theorem dumpTrace_addr (old a : Addr) (bs : List Byte) :
    addrAfter old (dumpTrace a bs) = lastAddr old a bs.length := by
  induction bs generalizing old a with
  | nil => rfl
  | cons b bs ih => simp [dumpTrace, addrAfter, ih, lastAddr_succ]

@[simp] theorem readTrace_cs (l : Level) (a : Addr) (bs : List Byte) : csAfter l (readTrace a bs) = l := by
  induction bs generalizing a with
  | nil => rfl
  | cons b bs ih => simp [readTrace, csAfter, ih]

@[simp] theorem dumpTrace_cs (l : Level) (a : Addr) (bs : List Byte) : csAfter l (dumpTrace a bs) = l := by
  induction bs generalizing a with
  | nil => rfl
  | cons b bs ih => simp [dumpTrace, csAfter, ih]

@[simp] theorem readTrace_oe (l : Level) (a : Addr) (bs : List Byte) : oeAfter l (readTrace a bs) = l := by
  induction bs generalizing a with
  | nil => rfl
  | cons b bs ih => simp [readTrace, oeAfter, ih]

@[simp] theorem dumpTrace_oe (l : Level) (a : Addr) (bs : List Byte) : oeAfter l (dumpTrace a bs) = l := by
  induction bs generalizing a with
  | nil => rfl
  | cons b bs ih => simp [dumpTrace, oeAfter, ih]

@[simp] theorem readTrace_d5Out (l : Level) (a : Addr) (bs : List Byte) : outAfter l (readTrace a bs) = l := by
  induction bs generalizing a with
  | nil => rfl
  | cons b bs ih => simp [readTrace, outAfter, ih]

@[simp] theorem dumpTrace_d5Out (l : Level) (a : Addr) (bs : List Byte) : outAfter l (dumpTrace a bs) = l := by
  induction bs generalizing a with
  | nil => rfl
  | cons b bs ih => simp [dumpTrace, outAfter, ih]

@[simp] theorem hotspotTrace_addr (old a : Addr) : addrAfter old (hotspotTrace a) = a := rfl

@[simp] theorem hotspotTrace_cs (l : Level) (a : Addr) : csAfter l (hotspotTrace a) = true := rfl

@[simp] theorem hotspotTrace_oe (l : Level) (a : Addr) : oeAfter l (hotspotTrace a) = l := rfl

@[simp] theorem hotspotTrace_d5Out (l : Level) (a : Addr) : outAfter l (hotspotTrace a) = l := rfl

@[simp] theorem feTrace_addr (old : Addr) (p : Level) : addrAfter old (feTrace p) = 0x1FF#12 := rfl

@[simp] theorem feTrace_cs (l p : Level) : csAfter l (feTrace p) = true := rfl

@[simp] theorem feTrace_oe (l p : Level) : oeAfter l (feTrace p) = false := rfl

@[simp] theorem feTrace_d5Out (l p : Level) : outAfter l (feTrace p) = p := rfl

/-! ### The addresses presented under chip-select -/

@[simp] theorem selectedAddrs_append (l : Level) (xs ys : List Event) :
    selectedAddrs l (xs ++ ys) = selectedAddrs l xs ++ selectedAddrs (csAfter l xs) ys := by
  induction xs generalizing l with
  | nil => rfl
  | cons x xs ih =>
    cases x <;> simp [selectedAddrs, csAfter, ih]
    split <;> simp

@[simp] theorem readTrace_selected (a : Addr) (bs : List Byte) : selectedAddrs true (readTrace a bs) = [] := by
  induction bs generalizing a with
  | nil => rfl
  | cons b bs ih => simp [readTrace, selectedAddrs, ih]

@[simp] theorem dumpTrace_selected (a : Addr) (bs : List Byte) : selectedAddrs true (dumpTrace a bs) = [] := by
  induction bs generalizing a with
  | nil => rfl
  | cons b bs ih => simp [dumpTrace, selectedAddrs, ih]

@[simp] theorem hotspotTrace_selected (l : Level) (a : Addr) : selectedAddrs l (hotspotTrace a) = [a] := rfl

@[simp] theorem feTrace_selected (l p : Level) :
    selectedAddrs l (feTrace p) = [0x1F1#12, 0x1FE#12, 0x1FF#12] := rfl

/-! ### Samples, emitted bytes and lengths -/

@[simp] theorem readTrace_samples (a : Addr) (bs : List Byte) : samplesOf (readTrace a bs) = bs := by
  induction bs generalizing a with
  | nil => rfl
  | cons b bs ih => simp [readTrace, samplesOf, ih]

@[simp] theorem dumpTrace_samples (a : Addr) (bs : List Byte) : samplesOf (dumpTrace a bs) = bs := by
  induction bs generalizing a with
  | nil => rfl
  | cons b bs ih => simp [dumpTrace, samplesOf, ih]

@[simp] theorem readTrace_emitted (a : Addr) (bs : List Byte) : emittedOf (readTrace a bs) = [] := by
  induction bs generalizing a with
  | nil => rfl
  | cons b bs ih => simp [readTrace, emittedOf, ih]

@[simp] theorem dumpTrace_emitted (a : Addr) (bs : List Byte) : emittedOf (dumpTrace a bs) = bs := by
  induction bs generalizing a with
  | nil => rfl
  | cons b bs ih => simp [dumpTrace, emittedOf, ih]

@[simp] theorem readTrace_length (a : Addr) (bs : List Byte) : (readTrace a bs).length = 3 * bs.length := by
  induction bs generalizing a with
  | nil => rfl
  | cons b bs ih => simp only [readTrace, List.length_cons, ih]; omega

@[simp] theorem dumpTrace_length (a : Addr) (bs : List Byte) : (dumpTrace a bs).length = 4 * bs.length := by
  induction bs generalizing a with
  | nil => rfl
  | cons b bs ih => simp only [dumpTrace, List.length_cons, ih]; omega

@[simp] theorem hotspotTrace_bytes (a : Addr) :
    samplesOf (hotspotTrace a) = [] ∧ emittedOf (hotspotTrace a) = [] ∧ (hotspotTrace a).length = 5 := ⟨rfl, rfl, rfl⟩

@[simp] theorem feTrace_bytes (p : Level) :
    samplesOf (feTrace p) = [] ∧ emittedOf (feTrace p) = [] ∧ (feTrace p).length = 12 := ⟨rfl, rfl, rfl⟩

end Sys2Proof.Machine
end

