-- ==== Sys2Proof/Laws/Classifier.lean ====
section
/-! SUPPORT. What a predicate's events do: the windows it read, and what its comparisons answer of them. -/

namespace Sys2Proof.Machine

/-- One comparison window (R85). -/
theorem window_spec {ms : List Micro} {start : Addr} {k : BufId} (h : actionsOf ms = actionsOf (window start k))
    (s : State) :
    ∃ bs, bs.length = 128 ∧ s.issued (State.issueAll ms s) (readTrace start bs) ∧
      (∀ j, j ≠ k → (State.issueAll ms s).buffer j = s.buffer j) ∧ ((State.issueAll ms s).buffer k).holds bs :=
  readRange_holds k 128 (by omega) (by omega) start h s

/-- A window after a bank switch or trigger: the four- and two-window predicates are made of these. -/
theorem switchThenWindow_spec {m1 m2 : List Micro} {es : List Event} {start : Addr} {k : BufId}
    (h1 : ∀ s, s.issued (State.issueAll m1 s) es ∧ ∀ j, (State.issueAll m1 s).buffer j = s.buffer j)
    (h2 : actionsOf m2 = actionsOf (window start k)) (s : State) :
    ∃ bs, bs.length = 128 ∧ s.issued (State.issueAll (m1 ++ m2) s) (es ++ readTrace start bs) ∧
      (∀ j, j ≠ k → (State.issueAll (m1 ++ m2) s).buffer j = s.buffer j) ∧
      ((State.issueAll (m1 ++ m2) s).buffer k).holds bs := by
  obtain ⟨g1, g2⟩ := h1 s
  obtain ⟨bs, f1, f2, f3, f4⟩ := window_spec h2 (State.issueAll m1 s)
  refine ⟨bs, f1, ?_, ?_, ?_⟩
  · rw [issueAll_append]
    exact issued_trans g1 f2
  · intro j hj
    rw [issueAll_append, f3 j hj, g2 j]
  · rw [issueAll_append]
    exact f4

/-- Two switches, each with one window (isF4, isF6, isF8, isFE). -/
theorem twoSwitch_spec {ms m1 m2 : List Micro} {e1 e2 : List Event} {a1 a2 : Addr}
    (h1 : ∀ {ms : List Micro}, actionsOf ms = actionsOf m1 → ∀ s : State,
      s.issued (State.issueAll ms s) e1 ∧ ∀ j, (State.issueAll ms s).buffer j = s.buffer j)
    (h2 : ∀ {ms : List Micro}, actionsOf ms = actionsOf m2 → ∀ s : State,
      s.issued (State.issueAll ms s) e2 ∧ ∀ j, (State.issueAll ms s).buffer j = s.buffer j)
    (h : actionsOf ms = actionsOf (numberCalls 0 [m1, window a1 .b0, m2, window a2 .b1])) (s : State) :
    ∃ w0 w1, w0.length = 128 ∧ w1.length = 128 ∧
      s.issued (State.issueAll ms s) (e1 ++ readTrace a1 w0 ++ e2 ++ readTrace a2 w1) ∧
      ((State.issueAll ms s).buffer .b0).holds w0 ∧ ((State.issueAll ms s).buffer .b1).holds w1 ∧
      (State.issueAll ms s).buffer .b2 = s.buffer .b2 ∧ (State.issueAll ms s).buffer .b3 = s.buffer .b3 := by
  simp only [numberCalls_actions, List.map_cons, List.map_nil, List.flatten_cons, List.flatten_nil,
    List.append_nil] at h
  obtain ⟨x1, _, rfl, g1, h⟩ := actionsOf_eq_append h
  obtain ⟨x2, _, rfl, g2, h⟩ := actionsOf_eq_append h
  obtain ⟨x3, x4, rfl, g3, g4⟩ := actionsOf_eq_append h
  obtain ⟨w0, l0, i0, b0, c0⟩ := switchThenWindow_spec (h1 g1) g2 s
  obtain ⟨w1, l1, i1, b1, c1⟩ := switchThenWindow_spec (h2 g3) g4 (State.issueAll (x1 ++ x2) s)
  rw [← issueAll_append, List.append_assoc] at i1 b1 c1
  refine ⟨w0, w1, l0, l1, ?_, ?_, c1, ?_, ?_⟩
  · have := issued_trans i0 i1
    simpa [List.append_assoc] using this
  · rw [b1 .b0 (by decide)]
    exact c0
  · rw [b1 .b2 (by decide), b0 .b2 (by decide)]
  · rw [b1 .b3 (by decide), b0 .b3 (by decide)]

/-- Two switches, each with two windows (isE0, isE7). -/
theorem fourWindow_spec {ms : List Micro} {h1 h2 a1 a2 : Addr}
    (h : actionsOf ms = actionsOf (numberCalls 0
      [assertHotspot h1, window a1 .b0, window a2 .b1, assertHotspot h2, window a1 .b2, window a2 .b3]))
    (s : State) :
    ∃ w0 w1 w2 w3, w0.length = 128 ∧ w1.length = 128 ∧ w2.length = 128 ∧ w3.length = 128 ∧
      s.issued (State.issueAll ms s) (hotspotTrace h1 ++ readTrace a1 w0 ++ readTrace a2 w1 ++
        hotspotTrace h2 ++ readTrace a1 w2 ++ readTrace a2 w3) ∧
      ((State.issueAll ms s).buffer .b0).holds w0 ∧ ((State.issueAll ms s).buffer .b1).holds w1 ∧
      ((State.issueAll ms s).buffer .b2).holds w2 ∧ ((State.issueAll ms s).buffer .b3).holds w3 := by
  simp only [numberCalls_actions, List.map_cons, List.map_nil, List.flatten_cons, List.flatten_nil,
    List.append_nil] at h
  obtain ⟨x1, _, rfl, g1, h⟩ := actionsOf_eq_append h
  obtain ⟨x2, _, rfl, g2, h⟩ := actionsOf_eq_append h
  obtain ⟨x3, _, rfl, g3, h⟩ := actionsOf_eq_append h
  obtain ⟨x4, _, rfl, g4, h⟩ := actionsOf_eq_append h
  obtain ⟨x5, x6, rfl, g5, g6⟩ := actionsOf_eq_append h
  obtain ⟨w0, l0, i0, b0, c0⟩ := switchThenWindow_spec (hotspot_spec g1) g2 s
  obtain ⟨w1, l1, i1, b1, c1⟩ := window_spec g3 (State.issueAll (x1 ++ x2) s)
  obtain ⟨w2, l2, i2, b2, c2⟩ :=
    switchThenWindow_spec (hotspot_spec g4) g5 (State.issueAll x3 (State.issueAll (x1 ++ x2) s))
  obtain ⟨w3, l3, i3, b3, c3⟩ :=
    window_spec g6 (State.issueAll (x4 ++ x5) (State.issueAll x3 (State.issueAll (x1 ++ x2) s)))
  have e : State.issueAll x6 (State.issueAll (x4 ++ x5) (State.issueAll x3 (State.issueAll (x1 ++ x2) s))) =
      State.issueAll (x1 ++ (x2 ++ (x3 ++ (x4 ++ (x5 ++ x6))))) s := by
    simp [issueAll_append]
  rw [e] at i3 b3 c3
  refine ⟨w0, w1, w2, w3, l0, l1, l2, l3, ?_, ?_, ?_, ?_, c3⟩
  · have := issued_trans i0 (issued_trans i1 (issued_trans i2 i3))
    simpa [List.append_assoc] using this
  · rw [b3 .b0 (by decide), b2 .b0 (by decide), b1 .b0 (by decide)]
    exact c0
  · rw [b3 .b1 (by decide), b2 .b1 (by decide)]
    exact c1
  · rw [b3 .b2 (by decide)]
    exact c2

/-- Two windows and no switch (is2K). -/
theorem twoWindow_spec {ms : List Micro} {a1 a2 : Addr}
    (h : actionsOf ms = actionsOf (numberCalls 0 [window a1 .b0, window a2 .b1])) (s : State) :
    ∃ w0 w1, w0.length = 128 ∧ w1.length = 128 ∧
      s.issued (State.issueAll ms s) (readTrace a1 w0 ++ readTrace a2 w1) ∧
      ((State.issueAll ms s).buffer .b0).holds w0 ∧ ((State.issueAll ms s).buffer .b1).holds w1 ∧
      (State.issueAll ms s).buffer .b2 = s.buffer .b2 ∧ (State.issueAll ms s).buffer .b3 = s.buffer .b3 := by
  simp only [numberCalls_actions, List.map_cons, List.map_nil, List.flatten_cons, List.flatten_nil,
    List.append_nil] at h
  obtain ⟨x1, x2, rfl, g1, g2⟩ := actionsOf_eq_append h
  obtain ⟨w0, l0, i0, b0, c0⟩ := window_spec g1 s
  obtain ⟨w1, l1, i1, b1, c1⟩ := window_spec g2 (State.issueAll x1 s)
  rw [← issueAll_append] at i1 b1 c1
  refine ⟨w0, w1, l0, l1, issued_trans i0 i1, ?_, c1, ?_, ?_⟩
  · rw [b1 .b0 (by decide)]
    exact c0
  · rw [b1 .b2 (by decide), b0 .b2 (by decide)]
  · rw [b1 .b3 (by decide), b0 .b3 (by decide)]

theorem windows_differ {s : State} {a b : BufId} {xs ys : List Byte} (hx : (s.buffer a).holds xs)
    (hy : (s.buffer b).holds ys) (lx : xs.length = 128) (ly : ys.length = 128) :
    s.windowsDiffer a b = decide (xs ≠ ys) := by
  rw [State.windowsDiffer, Config.nCompares, ← lx, buffersEqual_holds hx hy (by omega)]
  simp

theorem windows_equal {s : State} {a b : BufId} {xs ys : List Byte} (hx : (s.buffer a).holds xs)
    (hy : (s.buffer b).holds ys) (lx : xs.length = 128) (ly : ys.length = 128) :
    s.buffersEqual a b Config.nCompares = decide (xs = ys) := by
  rw [Config.nCompares, ← lx, buffersEqual_holds hx hy (by omega)]

/-- ALL THAT A PREDICATE'S EVENTS DO (R85 to R93): it reads windows, an observer sees its rule's events, its
comparisons answer what its rule says of those windows, and a two-window predicate leaves B2 and B3 alone. -/
theorem predicate_spec (p : Predicate) (s : State) :
    ∃ w, p.fits w ∧ s.issued (State.issueAll p.micros s) (p.seen w) ∧
      p.holds (State.issueAll p.micros s) = p.truth w ∧
      (p.windowCount = 2 → (State.issueAll p.micros s).buffer .b2 = s.buffer .b2 ∧
        (State.issueAll p.micros s).buffer .b3 = s.buffer .b3) := by
  cases p with
  | isE0 =>
    obtain ⟨w0, w1, w2, w3, l0, l1, l2, l3, i, c0, c1, c2, c3⟩ :=
      fourWindow_spec (ms := Predicate.isE0.micros) rfl s
    exact ⟨⟨w0, w1, w2, w3⟩, ⟨l0, l1, l2, l3⟩, i,
      by simp only [Predicate.holds, Predicate.truth, windows_differ c0 c2 l0 l2, windows_equal c1 c3 l1 l3],
      by simp [Predicate.windowCount]⟩
  | isE7 =>
    obtain ⟨w0, w1, w2, w3, l0, l1, l2, l3, i, c0, c1, c2, c3⟩ :=
      fourWindow_spec (ms := Predicate.isE7.micros) rfl s
    exact ⟨⟨w0, w1, w2, w3⟩, ⟨l0, l1, l2, l3⟩, i,
      by simp only [Predicate.holds, Predicate.truth, windows_differ c0 c2 l0 l2, windows_equal c1 c3 l1 l3],
      by simp [Predicate.windowCount]⟩
  | isF4 =>
    obtain ⟨w0, w1, l0, l1, i, c0, c1, b2, b3⟩ :=
      twoSwitch_spec (ms := Predicate.isF4.micros) hotspot_spec hotspot_spec rfl s
    exact ⟨⟨w0, w1, [], []⟩, ⟨l0, l1, rfl, rfl⟩, i,
      by simp only [Predicate.holds, Predicate.truth, windows_differ c0 c1 l0 l1], fun _ => ⟨b2, b3⟩⟩
  | isF6 =>
    obtain ⟨w0, w1, l0, l1, i, c0, c1, b2, b3⟩ :=
      twoSwitch_spec (ms := Predicate.isF6.micros) hotspot_spec hotspot_spec rfl s
    exact ⟨⟨w0, w1, [], []⟩, ⟨l0, l1, rfl, rfl⟩, i,
      by simp only [Predicate.holds, Predicate.truth, windows_differ c0 c1 l0 l1], fun _ => ⟨b2, b3⟩⟩
  | isF8 =>
    obtain ⟨w0, w1, l0, l1, i, c0, c1, b2, b3⟩ :=
      twoSwitch_spec (ms := Predicate.isF8.micros) hotspot_spec hotspot_spec rfl s
    exact ⟨⟨w0, w1, [], []⟩, ⟨l0, l1, rfl, rfl⟩, i,
      by simp only [Predicate.holds, Predicate.truth, windows_differ c0 c1 l0 l1], fun _ => ⟨b2, b3⟩⟩
  | is2K =>
    obtain ⟨w0, w1, l0, l1, i, c0, c1, b2, b3⟩ := twoWindow_spec (ms := Predicate.is2K.micros) rfl s
    exact ⟨⟨w0, w1, [], []⟩, ⟨l0, l1, rfl, rfl⟩, i,
      by simp only [Predicate.holds, Predicate.truth, windows_equal c0 c1 l0 l1], fun _ => ⟨b2, b3⟩⟩
  | isFE =>
    obtain ⟨w0, w1, l0, l1, i, c0, c1, b2, b3⟩ :=
      twoSwitch_spec (ms := Predicate.isFE.micros) feTrigger_spec feTrigger_spec rfl s
    exact ⟨⟨w0, w1, [], []⟩, ⟨l0, l1, rfl, rfl⟩, i,
      by simp only [Predicate.holds, Predicate.truth, windows_differ c0 c1 l0 l1], fun _ => ⟨b2, b3⟩⟩

end Sys2Proof.Machine
end

