-- ==== Sys2Proof/Laws/DumpDriver.lean ====
section
/-! SUPPORT. What the banks of a plan do: the bytes each read emitted, in the order the plan reads them. -/

namespace Sys2Proof.Machine

/-- One bank (R104 to R108). -/
theorem bank_spec {ms : List Micro} {n : Nat} {h : Addr}
    (g : actionsOf ms = ((bankCalls n h).map actionsOf).flatten) (s : State) :
    ∃ bs, bs.length = n ∧ s.issued (State.issueAll ms s) (hotspotTrace h ++ dumpTrace 0x000#12 bs) := by
  simp only [bankCalls, List.map_cons, List.map_nil, actionsOf_inBank, List.flatten_cons, List.flatten_nil,
    List.append_nil] at g
  obtain ⟨m1, m2, rfl, g1, g2⟩ := actionsOf_eq_append g
  obtain ⟨bs, hl, i2⟩ := rangeOut_spec n n 0x000#12 g2 (State.issueAll m1 s)
  refine ⟨bs, hl, ?_⟩
  rw [issueAll_append]
  exact issued_trans (hotspot_spec g1 s).1 i2

/-- `count` banks in rising hotspot order (R104 to R108, R112). -/
theorem banks_spec (n count : Nat) (h : Addr) {ms : List Micro}
    (g : actionsOf ms = ((banksFrom n h count).map actionsOf).flatten) (s : State) :
    ∃ banks : List (List Byte), banks.length = count ∧ (∀ bs ∈ banks, bs.length = n) ∧
      s.issued (State.issueAll ms s) (bankTrace h banks) := by
  induction count generalizing h ms s with
  | zero =>
    obtain rfl := actionsOf_eq_nil g
    exact ⟨[], rfl, by simp, issued_refl s⟩
  | succ count ih =>
    simp only [banksFrom, List.map_append, List.flatten_append] at g
    obtain ⟨m1, m2, rfl, g1, g2⟩ := actionsOf_eq_append g
    obtain ⟨bs, hl, i1⟩ := bank_spec g1 s
    obtain ⟨banks, hc, hb, i2⟩ := ih (h + 1#12) g2 (State.issueAll m1 s)
    refine ⟨bs :: banks, by simp [hc], by simpa [hl] using hb, ?_⟩
    rw [issueAll_append]
    exact issued_trans i1 i2

/-! ### Lines, samples and emitted bytes of a bank-switched plan -/

@[simp] theorem bankTrace_emitted (h : Addr) (banks : List (List Byte)) :
    emittedOf (bankTrace h banks) = banks.flatten := by
  induction banks generalizing h with
  | nil => rfl
  | cons bs rest ih => simp [bankTrace, ih]

@[simp] theorem bankTrace_samples (h : Addr) (banks : List (List Byte)) :
    samplesOf (bankTrace h banks) = banks.flatten := by
  induction banks generalizing h with
  | nil => rfl
  | cons bs rest ih => simp [bankTrace, ih]

theorem bankTrace_addr (old h : Addr) {n : Nat} (hp : 0 < n) {banks : List (List Byte)}
    (hb : ∀ bs ∈ banks, bs.length = n) (hne : banks ≠ []) :
    addrAfter old (bankTrace h banks) = BitVec.ofNat 12 (n - 1) := by
  induction banks generalizing old h with
  | nil => exact absurd rfl hne
  | cons bs rest ih =>
    have hbs : bs.length = n := hb bs (by simp)
    simp only [bankTrace, addrAfter_append, dumpTrace_addr]
    by_cases hr : rest = []
    · subst hr
      obtain ⟨m, rfl⟩ : ∃ m, n = m + 1 := ⟨n - 1, by omega⟩
      simp [bankTrace, addrAfter, hbs, lastAddr]
    · exact ih _ _ (fun x hx => hb x (by simp [hx])) hr

theorem bankTrace_cs (l : Level) (h : Addr) {banks : List (List Byte)} (hne : banks ≠ []) :
    csAfter l (bankTrace h banks) = true := by
  induction banks generalizing l h with
  | nil => exact absurd rfl hne
  | cons bs rest ih =>
    simp only [bankTrace, csAfter_append, dumpTrace_cs]
    by_cases hr : rest = []
    · subst hr
      rfl
    · exact ih _ _ hr

@[simp] theorem bankTrace_oe (l : Level) (h : Addr) (banks : List (List Byte)) :
    oeAfter l (bankTrace h banks) = l := by
  induction banks generalizing h with
  | nil => rfl
  | cons bs rest ih => simp [bankTrace, ih]

@[simp] theorem bankTrace_d5Out (l : Level) (h : Addr) (banks : List (List Byte)) :
    outAfter l (bankTrace h banks) = l := by
  induction banks generalizing h with
  | nil => rfl
  | cons bs rest ih => simp [bankTrace, ih]

/-- A bank-switched plan addresses its hotspots, in rising order, and nothing else under chip-select (R104 to R108). -/
theorem bankTrace_selected (h : Addr) (banks : List (List Byte)) :
    selectedAddrs true (bankTrace h banks) = (List.range banks.length).map fun i => h + BitVec.ofNat 12 i := by
  induction banks generalizing h with
  | nil => rfl
  | cons bs rest ih =>
    simp only [bankTrace, selectedAddrs_append, hotspotTrace_selected, hotspotTrace_cs, dumpTrace_selected,
      dumpTrace_cs, csAfter_append, ih]
    simp [List.range_succ_eq_map]
    intro i _
    rw [BitVec.add_assoc, show (1#12 : Addr) = BitVec.ofNat 12 1 from rfl, ← BitVec.ofNat_add, Nat.add_comm]

theorem flatten_length {n : Nat} {banks : List (List Byte)} (hb : ∀ bs ∈ banks, bs.length = n) :
    banks.flatten.length = banks.length * n := by
  induction banks with
  | nil => simp
  | cons bs rest ih =>
    rw [List.flatten_cons, List.length_append, hb bs (by simp), ih fun x hx => hb x (by simp [hx]), List.length_cons,
      Nat.add_mul, Nat.one_mul, Nat.add_comm]

theorem bankTrace_length (h : Addr) {n : Nat} {banks : List (List Byte)} (hb : ∀ bs ∈ banks, bs.length = n) :
    (bankTrace h banks).length = banks.length * (5 + 4 * n) := by
  induction banks generalizing h with
  | nil => simp [bankTrace]
  | cons bs rest ih =>
    simp only [bankTrace, List.length_append, ih _ fun x hx => hb x (by simp [hx]), dumpTrace_length,
      hb bs (by simp), List.length_cons, hotspotTrace_bytes]
    rw [Nat.add_mul, Nat.one_mul, Nat.add_comm]

end Sys2Proof.Machine
end

