-- ==== Sys2Proof/Laws/Cursors.lean ====
section
/-! SUPPORT. Where the named cursors stand after a run of events (R22): a cursor no event of the run sets keeps its
value, one every event sets has the last event's value. -/

namespace Sys2Proof.Machine

theorem issue_hsCur (m : Micro) (s : State) : (s.issue m).hsCur = m.hotspot.getD s.hsCur := by
  simp only [State.issue]
  cases m.act <;> simp [State.act, State.point]

theorem issue_stage (m : Micro) (s : State) : (s.issue m).stage = m.stage.getD s.stage := by
  simp only [State.issue]
  cases m.act <;> simp [State.act, State.point]

theorem issue_aCur (m : Micro) (s : State) : (s.issue m).aCur = (m.range.map Prod.fst).getD s.aCur := by
  simp only [State.issue]
  cases m.act <;> simp [State.act, State.point]

theorem issue_nLeft (m : Micro) (s : State) : (s.issue m).nLeft = (m.range.map Prod.snd).getD s.nLeft := by
  simp only [State.issue]
  cases m.act <;> simp [State.act, State.point]

theorem issueAll_hsCur {ms : List Micro} (h : ∀ m ∈ ms, m.hotspot = none) (s : State) :
    (State.issueAll ms s).hsCur = s.hsCur := by
  induction ms generalizing s with
  | nil => rfl
  | cons m ms ih => rw [issueAll_cons, ih (fun x hx => h x (by simp [hx])), issue_hsCur, h m (by simp)]; rfl

theorem issueAll_stage {ms : List Micro} (h : ∀ m ∈ ms, m.stage = none) (s : State) :
    (State.issueAll ms s).stage = s.stage := by
  induction ms generalizing s with
  | nil => rfl
  | cons m ms ih => rw [issueAll_cons, ih (fun x hx => h x (by simp [hx])), issue_stage, h m (by simp)]; rfl

theorem issueAll_range {ms : List Micro} (h : ∀ m ∈ ms, m.range = none) (s : State) :
    (State.issueAll ms s).aCur = s.aCur ∧ (State.issueAll ms s).nLeft = s.nLeft := by
  induction ms generalizing s with
  | nil => exact ⟨rfl, rfl⟩
  | cons m ms ih =>
    rw [issueAll_cons, (ih (fun x hx => h x (by simp [hx])) _).1, (ih (fun x hx => h x (by simp [hx])) _).2,
      issue_aCur, issue_nLeft, h m (by simp)]
    exact ⟨rfl, rfl⟩

/-! ### Which events set which cursor -/

theorem assertHotspot_plain (a : Addr) :
    ∀ m ∈ assertHotspot a, m.hotspot = none ∧ m.stage = none ∧ m.range = none := by
  simp [assertHotspot, Micro.plain]

theorem feTrigger_plain (p : Level) : ∀ m ∈ feTrigger p, m.hotspot = none ∧ m.stage = none ∧ m.range = none := by
  simp [feTrigger, Micro.plain]

theorem readByte_plain (a : Addr) (x : Intake) :
    ∀ m ∈ readByte a x, m.hotspot = none ∧ m.stage = none ∧ m.range = none := by
  simp [readByte, Micro.plain]

theorem inTurn_hotspot (a : Addr) (n : Nat) (m : Micro) : (m.inTurn a n).hotspot = m.hotspot := by
  simp only [Micro.inTurn]
  split <;> rfl

theorem inTurn_stage (a : Addr) (n : Nat) (m : Micro) : (m.inTurn a n).stage = m.stage := by
  simp only [Micro.inTurn]
  split <;> rfl

theorem rangeTurn_plain (dst : Dest) (a : Addr) (i n : Nat) :
    ∀ m ∈ rangeTurn dst a i n, m.hotspot = none ∧ m.stage = none := by
  cases dst <;> simp [rangeTurn, readByte, Micro.plain]

theorem rangeTurns_plain (dst : Dest) (n : Nat) (a : Addr) (left : Nat) :
    ∀ m ∈ rangeTurns dst n a left, m.hotspot = none ∧ m.stage = none := by
  induction left generalizing a with
  | zero => simp [rangeTurns]
  | succ left ih =>
    intro m hm
    simp only [rangeTurns, List.mem_append, List.mem_map] at hm
    rcases hm with ⟨x, hx, rfl⟩ | hm
    · rw [inTurn_hotspot, inTurn_stage]
      exact rangeTurn_plain _ _ _ _ x hx
    · exact ih _ m hm

theorem numberCalls_hotspot {cs : List (List Micro)} (h : ∀ c ∈ cs, ∀ m ∈ c, m.hotspot = none) (n : Nat) :
    ∀ m ∈ numberCalls n cs, m.hotspot = none := by
  induction cs generalizing n with
  | nil => simp [numberCalls]
  | cons c cs ih =>
    intro m hm
    simp only [numberCalls, List.mem_append, List.mem_map] at hm
    rcases hm with ⟨x, hx, rfl⟩ | hm
    · exact h c (by simp) x hx
    · exact ih (fun d hd => h d (by simp [hd])) _ m hm

/-- A predicate moves no hotspot cursor (R22: that is a plan's). -/
theorem predicate_hotspot (p : Predicate) : ∀ m ∈ p.micros, m.hotspot = none := by
  have w : ∀ a k, ∀ m ∈ window a k, m.hotspot = none := fun a k m hm => (rangeTurns_plain _ _ _ _ m hm).1
  have h : ∀ a, ∀ m ∈ assertHotspot a, m.hotspot = none := fun a m hm => (assertHotspot_plain a m hm).1
  have f : ∀ p, ∀ m ∈ feTrigger p, m.hotspot = none := fun a m hm => (feTrigger_plain a m hm).1
  cases p <;> refine numberCalls_hotspot ?_ 0 <;> intro c hc <;>
    simp only [isE0Calls, isE7Calls, isF4Calls, isF6Calls, isF8Calls, is2KCalls, isFECalls, List.mem_cons,
      List.not_mem_nil, or_false] at hc <;>
    rcases hc with rfl | rfl | rfl | rfl | rfl | rfl <;> first | exact w _ _ | exact h _ | exact f _

end Sys2Proof.Machine
end

