-- ==== Sys2Proof/Laws/Encoding.lean ====
section
/-! SUPPORT. The four fields of a command word and the small codes: packing and unpacking undo each other. -/

namespace Sys2Proof

theorem packWord_toNat (op : BitVec 4) (sel : BitVec 3) (len : Len) (addr : Addr) :
    (packWord op sel len addr).toNat =
      op.toNat * 2 ^ 28 + sel.toNat * 2 ^ 25 + len.toNat * 2 ^ 12 + addr.toNat := by
  have h1 := sel.isLt
  have h2 := len.isLt
  have h3 := addr.isLt
  simp only [packWord, BitVec.toNat_append]
  rw [← Nat.shiftLeft_add_eq_or_of_lt (by omega), ← Nat.shiftLeft_add_eq_or_of_lt (by omega),
    ← Nat.shiftLeft_add_eq_or_of_lt (by omega)]
  simp only [Nat.shiftLeft_eq]
  omega

theorem opField_toNat (w : Word) : (opField w).toNat = w.toNat / 2 ^ 28 := by
  have := w.isLt
  simp only [opField, BitVec.extractLsb'_toNat, Nat.shiftRight_eq_div_pow]
  omega

theorem selField_toNat (w : Word) : (selField w).toNat = w.toNat / 2 ^ 25 % 2 ^ 3 := by
  simp only [selField, BitVec.extractLsb'_toNat, Nat.shiftRight_eq_div_pow]

theorem lenField_toNat (w : Word) : (lenField w).toNat = w.toNat / 2 ^ 12 % 2 ^ 13 := by
  simp only [lenField, BitVec.extractLsb'_toNat, Nat.shiftRight_eq_div_pow]

theorem addrField_toNat (w : Word) : (addrField w).toNat = w.toNat % 2 ^ 12 := by
  simp only [addrField, BitVec.extractLsb'_toNat, Nat.shiftRight_zero]

/-! ### A packed word has the fields it was packed from -/

@[simp] theorem opField_packWord (op : BitVec 4) (sel : BitVec 3) (len : Len) (addr : Addr) :
    opField (packWord op sel len addr) = op := by
  have h1 := sel.isLt
  have h2 := len.isLt
  have h3 := addr.isLt
  apply BitVec.eq_of_toNat_eq
  rw [opField_toNat, packWord_toNat]
  omega

@[simp] theorem selField_packWord (op : BitVec 4) (sel : BitVec 3) (len : Len) (addr : Addr) :
    selField (packWord op sel len addr) = sel := by
  have h1 := sel.isLt
  have h2 := len.isLt
  have h3 := addr.isLt
  apply BitVec.eq_of_toNat_eq
  rw [selField_toNat, packWord_toNat]
  omega

@[simp] theorem lenField_packWord (op : BitVec 4) (sel : BitVec 3) (len : Len) (addr : Addr) :
    lenField (packWord op sel len addr) = len := by
  have h2 := len.isLt
  have h3 := addr.isLt
  apply BitVec.eq_of_toNat_eq
  rw [lenField_toNat, packWord_toNat]
  omega

@[simp] theorem addrField_packWord (op : BitVec 4) (sel : BitVec 3) (len : Len) (addr : Addr) :
    addrField (packWord op sel len addr) = addr := by
  have h3 := addr.isLt
  apply BitVec.eq_of_toNat_eq
  rw [addrField_toNat, packWord_toNat]
  omega

/-- A word is made of its four fields, and of nothing else. -/
theorem packWord_fields (w : Word) : packWord (opField w) (selField w) (lenField w) (addrField w) = w := by
  apply BitVec.eq_of_toNat_eq
  rw [packWord_toNat, opField_toNat, selField_toNat, lenField_toNat, addrField_toNat]
  omega

/-! ### The small codes -/

@[simp] theorem BufId.ofCode_code (k : BufId) : BufId.ofCode k.code = k := by cases k <;> rfl

@[simp] theorem BufId.code_ofCode (c : BitVec 2) : (BufId.ofCode c).code = c := by revert c; decide

@[simp] theorem Dest.ofCode_code (d : Dest) : Dest.ofCode d.code = some d := by
  rcases d with k | _
  · cases k <;> rfl
  · rfl

theorem Dest.code_of_ofCode {c : BitVec 3} {d : Dest} (h : Dest.ofCode c = some d) : d.code = c := by
  revert c
  rcases d with k | _
  · cases k <;> decide
  · decide

@[simp] theorem MapperKind.ofCode_code (k : MapperKind) : MapperKind.ofCode k.code = k := by cases k <;> rfl

@[simp] theorem MapperKind.code_ofCode (c : BitVec 3) : (MapperKind.ofCode c).code = c := by revert c; decide

end Sys2Proof
end

