-- ==== Sys2Proof/Laws/PerInstr.lean ====
section
/-! SUPPORT. The family EncodingFields: for every command, the four fields of its word are those its row of R62 lists
(R60 to R67). -/

namespace Sys2Proof.Laws.EncodingFields

/-- The word `w` has these four fields (R60). -/
def HasFields (w : Word) (op : BitVec 4) (sel : BitVec 3) (len : Len) (addr : Addr) : Prop :=
  opField w = op ∧ selField w = sel ∧ lenField w = len ∧ addrField w = addr

/-- The fields R62's row lists for the command are those of its word. -/
def Statement (i : Instr) : Prop :=
  match i with
  | .hotspot addr => HasFields (encode i) 1#4 0#3 0#13 addr
  | .rdbyte addr => HasFields (encode i) 2#4 0#3 0#13 addr
  | .rdrange dst addr len => HasFields (encode i) 3#4 dst.code len addr
  | .bufeq a b len => HasFields (encode i) 4#4 (0#1 ++ a.code) len (0#10 ++ b.code)
  | .fetrig p => HasFields (encode i) 5#4 (0#2 ++ BitVec.ofBool p) 0#13 0#12
  | .ise0 => HasFields (encode i) 6#4 0#3 0#13 0#12
  | .ise7 => HasFields (encode i) 6#4 1#3 0#13 0#12
  | .isf4 => HasFields (encode i) 6#4 2#3 0#13 0#12
  | .isf6 => HasFields (encode i) 6#4 3#3 0#13 0#12
  | .isf8 => HasFields (encode i) 6#4 4#3 0#13 0#12
  | .is2k => HasFields (encode i) 6#4 5#3 0#13 0#12
  | .isfe => HasFields (encode i) 6#4 6#3 0#13 0#12
  | .classify => HasFields (encode i) 7#4 0#3 0#13 0#12
  | .dump => HasFields (encode i) 8#4 0#3 0#13 0#12
  | .dumpkE0 => HasFields (encode i) 9#4 0#3 0#13 0#12
  | .dumpkE7 => HasFields (encode i) 9#4 1#3 0#13 0#12
  | .dumpkF4 => HasFields (encode i) 9#4 2#3 0#13 0#12
  | .dumpkF6 => HasFields (encode i) 9#4 3#3 0#13 0#12
  | .dumpkF8 => HasFields (encode i) 9#4 4#3 0#13 0#12
  | .dumpkFE => HasFields (encode i) 9#4 5#3 0#13 0#12
  | .dumpk2K => HasFields (encode i) 9#4 6#3 0#13 0#12
  | .dumpk4K => HasFields (encode i) 9#4 7#3 0#13 0#12

theorem hasFields_packWord (op : BitVec 4) (sel : BitVec 3) (len : Len) (addr : Addr) :
    HasFields (packWord op sel len addr) op sel len addr := by
  simp [HasFields]

theorem hotspot (addr : Addr) : Statement (.hotspot addr) := hasFields_packWord _ _ _ _
theorem rdbyte (addr : Addr) : Statement (.rdbyte addr) := hasFields_packWord _ _ _ _
theorem rdrange (dst : Dest) (addr : Addr) (len : Len) : Statement (.rdrange dst addr len) := hasFields_packWord _ _ _ _
theorem bufeq (a b : BufId) (len : Len) : Statement (.bufeq a b len) := hasFields_packWord _ _ _ _
theorem fetrig (p : Level) : Statement (.fetrig p) := hasFields_packWord _ _ _ _
theorem ise0 : Statement .ise0 := hasFields_packWord _ _ _ _
theorem ise7 : Statement .ise7 := hasFields_packWord _ _ _ _
theorem isf4 : Statement .isf4 := hasFields_packWord _ _ _ _
theorem isf6 : Statement .isf6 := hasFields_packWord _ _ _ _
theorem isf8 : Statement .isf8 := hasFields_packWord _ _ _ _
theorem is2k : Statement .is2k := hasFields_packWord _ _ _ _
theorem isfe : Statement .isfe := hasFields_packWord _ _ _ _
theorem classify : Statement .classify := hasFields_packWord _ _ _ _
theorem dump : Statement .dump := hasFields_packWord _ _ _ _
theorem dumpkE0 : Statement .dumpkE0 := hasFields_packWord _ _ _ _
theorem dumpkE7 : Statement .dumpkE7 := hasFields_packWord _ _ _ _
theorem dumpkF4 : Statement .dumpkF4 := hasFields_packWord _ _ _ _
theorem dumpkF6 : Statement .dumpkF6 := hasFields_packWord _ _ _ _
theorem dumpkF8 : Statement .dumpkF8 := hasFields_packWord _ _ _ _
theorem dumpkFE : Statement .dumpkFE := hasFields_packWord _ _ _ _
theorem dumpk2K : Statement .dumpk2K := hasFields_packWord _ _ _ _
theorem dumpk4K : Statement .dumpk4K := hasFields_packWord _ _ _ _

end Sys2Proof.Laws.EncodingFields
end

