-- ==== Sys2Proof/Laws/Run.lean ====
section
/-! SUPPORT. What `exec` answers, said once for all commands: the first failing check's fault, or the run of the
command's course; what a predicate asked inside a course does; which runs leave the compare buffers; and how many events each
course has. -/

namespace Sys2Proof.Machine

theorem accept_eq {s : State} {w : Word} {ws : List Word} (h : s.cmds = w :: ws) : s.accept w = s.accepted w ws := by
  simp [State.accept, State.accepted, h]

theorem raise_eq (e : ErrCode) (s : State) : s.raise e = s.faultedWith e.code := rfl

/-- ALL THAT `exec` CAN ANSWER: a fault of the command's checks (R125), or its course run to its end (R72). -/
theorem exec_eq (i : Instr) (s : State) :
    exec i s = .next (match checkOf i s, routineOf i s.kind with
      | some e, _ => s.raise e
      | none, some r => r.run s
      | none, none => s.raise .noKind) := by
  cases i <;>
    simp only [exec, execHotspot, execRdbyte, execRdrange, execBufeq, execFetrig, execIse0, execIse7, execIsf4, execIsf6,
      execIsf8, execIs2k, execIsfe, execClassify, execDump, execDumpkE0, execDumpkE7, execDumpkF4, execDumpkF6,
      execDumpkF8, execDumpkFE, execDumpk2K, execDumpk4K, State.dumpKind, State.conduct, checkOf, routineOf] <;>
    congr 1
  all_goals try (split <;> simp_all; done)
  · cases hk : s.kind <;> simp [State.kindValid, hk]
    split <;> simp_all

/-- A course that only issues events and then writes nothing more. -/
theorem run_plain (ms : List Micro) (s : State) :
    (Routine.events ms (.finish .nothing)).run s = (State.issueAll ms s).complete := by
  rw [run_events]
  rfl

/-- What an observer saw of a run is not changed by the command's end. -/
theorem issued_complete {s t : State} {es : List Event} : s.issued t.complete es ↔ s.issued t es := Iff.rfl

/-! ### A predicate asked inside a course -/

/-- A state changes nothing an observer or the bus registers show when buffers are released. -/
theorem releaseAll_issued (p : Predicate) {s u : State} {es : List Event} :
    s.issued (p.releaseAll u) es ↔ s.issued u es := by
  cases p <;>
    simp [State.issued, State.trace, Predicate.releaseAll, State.releaseFour, State.releaseTwo, State.release]

theorem releaseAll_linesFollow (p : Predicate) {s u : State} {es : List Event} :
    s.linesFollow (p.releaseAll u) es ↔ s.linesFollow u es := by
  cases p <;>
    simp [State.linesFollow, Predicate.releaseAll, State.releaseFour, State.releaseTwo, State.release]

/-- Releasing buffers writes only their lengths (R86). -/
theorem releaseAll_frame (p : Predicate) (s : State) :
    p.releaseAll s =
      { s with
        b0 := (p.releaseAll s).b0
        b1 := (p.releaseAll s).b1
        b2 := (p.releaseAll s).b2
        b3 := (p.releaseAll s).b3 } := by
  cases p <;> rfl

/-- Every buffer a predicate filled has length 0 after it (R86). -/
theorem releaseAll_lengths (p : Predicate) (s : State) :
    (p.releaseAll s).b0.len = 0#8 ∧ (p.releaseAll s).b1.len = 0#8 ∧
      (p.windowCount = 4 → (p.releaseAll s).b2.len = 0#8 ∧ (p.releaseAll s).b3.len = 0#8) := by
  cases p <;> simp [Predicate.releaseAll, State.releaseFour, State.releaseTwo, State.release, Predicate.windowCount,
    State.setBuffer, State.buffer, Buffer.setLen]

/-- A two-window predicate releases neither B2 nor B3 (R86). -/
theorem releaseAll_keeps {p : Predicate} (h : p.windowCount = 2) (s : State) :
    (p.releaseAll s).b2 = s.b2 ∧ (p.releaseAll s).b3 = s.b3 := by
  cases p <;> first | exact absurd h (by decide) | exact ⟨rfl, rfl⟩

/-- ALL THAT ASKING A PREDICATE DOES (R85, R86): an observer sees its events, the lines follow them, the course goes
on by its truth, and what is left is the run of its events with its buffers released. -/
theorem ask_spec (p : Predicate) (yes no : Routine) (s : State) :
    ∃ w u, p.fits w ∧ s.issued u (p.seen w) ∧ s.linesFollow u (p.seen w) ∧
      u = p.releaseAll (State.issueAll p.micros s) ∧ u.hsCur = s.hsCur ∧
      (p.windowCount = 2 → u.b2 = s.b2 ∧ u.b3 = s.b3) ∧
      (p.ask yes no).run s = if p.truth w then yes.run u else no.run u := by
  obtain ⟨w, h1, h2, h3, h4⟩ := predicate_spec p s
  refine ⟨w, _, h1, (releaseAll_issued p).mpr h2, (releaseAll_linesFollow p).mpr (lines_of_issued h2), rfl, ?_, ?_, ?_⟩
  · rw [releaseAll_frame]
    exact issueAll_hsCur (predicate_hotspot p) s
  · intro hw
    obtain ⟨g2, g3⟩ := h4 hw
    rw [(releaseAll_keeps hw _).1, (releaseAll_keeps hw _).2]
    exact ⟨g2, g3⟩
  · rw [Predicate.ask, run_events, run_test, h3]

/-! ### Runs that leave the compare buffers -/

theorem assertHotspot_noCell (h : Addr) : ∀ x ∈ actionsOf (assertHotspot h), ∀ k i m, x ≠ .rd (.cell k i m) := by
  simp [assertHotspot, Micro.plain]

theorem feTrigger_noCell (p : Level) : ∀ x ∈ actionsOf (feTrigger p), ∀ k i m, x ≠ .rd (.cell k i m) := by
  simp [feTrigger, Micro.plain]

theorem banksFrom_noCell (n : Nat) (h : Addr) (c : Nat) :
    ∀ x ∈ ((banksFrom n h c).map actionsOf).flatten, ∀ k i m, x ≠ .rd (.cell k i m) := by
  induction c generalizing h with
  | zero => simp [banksFrom]
  | succ c ih =>
    intro x hx
    simp only [banksFrom, bankCalls, List.cons_append, List.nil_append, List.map_cons, List.flatten_cons,
      actionsOf_inBank, List.mem_append] at hx
    rcases hx with hx | hx | hx
    · exact assertHotspot_noCell _ x hx
    · exact rangeOut_noCell _ _ _ x hx
    · exact ih _ x hx

/-- "The dump plans never touch the buffers" (R19). -/
theorem plan_buffer (k : MapperKind) (s : State) (j : BufId) :
    (State.issueAll (planMicros k) s).buffer j = s.buffer j := by
  refine issueAll_buffer ?_ s j
  intro x hx
  rw [planMicros, numberCalls_actions] at hx
  cases k
  case e0 => exact banksFrom_noCell _ _ _ x hx
  case f4 => exact banksFrom_noCell _ _ _ x hx
  case f6 => exact banksFrom_noCell _ _ _ x hx
  case f8 => exact banksFrom_noCell _ _ _ x hx
  case e7 =>
    simp only [planOf, planE7, List.map_append, List.flatten_append, List.mem_append, List.map_cons, List.map_nil,
      List.flatten_cons, List.flatten_nil, List.append_nil] at hx
    rcases hx with hx | hx
    · exact banksFrom_noCell _ _ _ x hx
    · exact rangeOut_noCell _ _ _ x hx
  case fe =>
    simp only [planOf, planFE, List.map_cons, List.flatten_cons, List.mem_append, List.map_nil, List.flatten_nil,
      List.append_nil] at hx
    rcases hx with hx | hx | hx | hx
    · exact feTrigger_noCell _ x hx
    · exact rangeOut_noCell _ _ _ x hx
    · exact feTrigger_noCell _ x hx
    · exact rangeOut_noCell _ _ _ x hx
  case k2 =>
    simp only [planOf, plan2K, List.map_cons, List.map_nil, List.flatten_cons, List.flatten_nil, List.append_nil] at hx
    exact rangeOut_noCell _ _ _ x hx
  case k4 =>
    simp only [planOf, plan4K, List.map_cons, List.map_nil, List.flatten_cons, List.flatten_nil, List.append_nil] at hx
    exact rangeOut_noCell _ _ _ x hx

/-! ### How many events -/

theorem numberCalls_length (n : Nat) (cs : List (List Micro)) :
    (numberCalls n cs).length = (cs.map List.length).sum := by
  induction cs generalizing n with
  | nil => rfl
  | cons c cs ih => simp [numberCalls, ih]

/-- A range read is three events a byte, and a fourth for OUT (R78). -/
theorem rangeTurns_length (dst : Dest) (n : Nat) (a : Addr) (left : Nat) :
    (rangeTurns dst n a left).length = (match dst with | .out => 4 | .buf _ => 3) * left := by
  induction left generalizing a with
  | zero => simp [rangeTurns]
  | succ left ih =>
    simp only [rangeTurns, List.length_append, List.length_map, ih]
    cases dst <;> simp [rangeTurn, readByte] <;> omega

theorem banksFrom_length (n : Nat) (h : Addr) (c : Nat) :
    ((banksFrom n h c).map List.length).sum = c * (5 + 4 * n) := by
  induction c generalizing h with
  | zero => simp [banksFrom]
  | succ c ih =>
    simp [banksFrom, bankCalls, ih, rangeTurns_length, readRange, assertHotspot]
    ring

/-- The events of each plan (R148). -/
theorem planMicros_length (k : MapperKind) : (planMicros k).length = (planCount k).1 := by
  cases k <;>
    simp [planMicros, numberCalls_length, planOf, plan2K, plan4K, planE0, planE7, planF4, planF6, planF8, planFE,
      banksFrom_length, planCount, readRange, rangeTurns_length, feTrigger]

/-- A predicate has at most 1546 events (R148). -/
theorem predicate_length (p : Predicate) : p.micros.length ≤ 1546 := by
  cases p <;>
    simp [Predicate.micros, numberCalls_length, isE0Calls, isE7Calls, isF4Calls, isF6Calls, isF8Calls, is2KCalls,
      isFECalls, window, readRange, rangeTurns_length, assertHotspot, feTrigger, Config.nCompares]

end Sys2Proof.Machine
end

