-- ==== Sys2Proof/Tests/Slice0.lean ====
section
/-! SUPPORT. The model's own tests: expected results are 95_test_vectors.md's or worked out from the rules, and one
witness for each obligation that has hypotheses. -/

namespace Sys2Proof.Tests

open Sys2Proof.Machine

/-- The state after reset with these words waiting at the port and these bytes coming back to the next samples. -/
def idle (ws : List Word) (bs : List Byte) : State := { State.reset with cmds := ws, answers := bs }

/-- A part of the state one step later. -/
def look {α : Type} (f : State → α) (s : State) : Option α :=
  match step s with
  | .next t => some (f t)
  | .fault _ => none
  | .refused _ => none

/-- What a host sees one step later: STATUS, FAULT_CMD, OUT_CURSOR, the events issued, OUT. -/
def seen (s : State) : Option (Word × Word × Word × Nat × List Byte) :=
  look (fun t => (t.status, t.faultCmd, t.outCursor, t.trace.length, t.out)) s

/-! ### WellFormed -/

/-- R68: LEN above 4096 is no RDRANGE. -/
theorem test_rdrange_length_4097_refused : (Instr.rdrange .out 0#12 4097#13).wellFormed = false := by decide

theorem test_rdrange_length_4096_accepted : (Instr.rdrange .out 0#12 4096#13).wellFormed = true := by decide

/-- R70: BUFEQ accepts every length at decode. -/
theorem test_bufeq_length_8191_accepted : (Instr.bufeq .b3 .b3 8191#13).wellFormed = true := by decide

/-! ### Decoding (V-E1 to V-E28) -/

theorem test_decode_hotspot : decode 0x10000FF8#32 = .command (.hotspot 0xFF8#12) := by decide

theorem test_decode_rdbyte : decode 0x20000FFF#32 = .command (.rdbyte 0xFFF#12) := by decide

theorem test_decode_rdrange_buffer : decode 0x32080800#32 = .command (.rdrange (.buf .b1) 0x800#12 128#13) := by decide

theorem test_decode_rdrange_out : decode 0x39000000#32 = .command (.rdrange .out 0#12 4096#13) := by decide

theorem test_decode_bufeq : decode 0x42000003#32 = .command (.bufeq .b1 .b3 0#13) := by decide

theorem test_decode_bufeq_longest : decode 0x47FFF003#32 = .command (.bufeq .b3 .b3 8191#13) := by decide

theorem test_decode_fetrig :
    decode 0x52000000#32 = .command (.fetrig true) ∧ decode 0x50000000#32 = .command (.fetrig false) := by decide

theorem test_decode_predicates :
    [0x60000000#32, 0x62000000#32, 0x64000000#32, 0x66000000#32, 0x68000000#32, 0x6A000000#32, 0x6C000000#32].map decode
      = [Instr.ise0, .ise7, .isf4, .isf6, .isf8, .is2k, .isfe].map .command := by decide

theorem test_decode_classify_dump :
    decode 0x70000000#32 = .command .classify ∧ decode 0x80000000#32 = .command .dump := by decide

theorem test_decode_dumpk :
    [0x90000000#32, 0x92000000#32, 0x94000000#32, 0x96000000#32, 0x98000000#32, 0x9A000000#32, 0x9C000000#32,
      0x9E000000#32].map decode
      = [Instr.dumpkE0, .dumpkE7, .dumpkF4, .dumpkF6, .dumpkF8, .dumpkFE, .dumpk2K, .dumpk4K].map .command := by
  decide

theorem test_decode_illegal :
    [0x00000000#32, 0xA0000000#32, 0xF0000000#32, 0xFFFFFFFF#32, 0x6E000000#32, 0x3A001000#32, 0x39001000#32,
      0x48000000#32, 0x40000004#32, 0x10001FF8#32, 0x54000000#32, 0x70000001#32, 0x82000000#32, 0x90001000#32].map decode
      = [Reject.op, .op, .op, .op, .sel, .sel, .len, .sel, .addr, .len, .sel, .addr, .sel, .len].map .illegal := by
  decide

theorem test_table_word : decodeTableWord 32 0x6C000000 = some .isfe ∧ decodeTableWord 32 0x6E000000 = none := by decide

/-! ### Encoding (R71) -/

theorem test_encode_rdrange : encode (.rdrange .out 0xFFC#12 4#13) = 0x38004FFC#32 := by decide

theorem test_encode_bufeq : encode (.bufeq .b0 .b1 128#13) = 0x40080001#32 := by decide

/-! ### Probe Engine commands -/

/-- V-P1. -/
theorem test_hotspot_events :
    look (fun t => (t.trace, t.a, t.csN, t.status)) (idle [0x10000FF8#32] []) =
      some ([.cs false, .wa 0xFF8#12, .dly, .cs true, .dly], 0xFF8#12, true, 0#32) := by decide

/-- V-P2. -/
theorem test_rdbyte_result :
    look (fun t => (t.trace, t.a, t.status)) (idle [0x20000200#32] [0x02#8]) =
      some ([.wa 0x200#12, .dly, .rd 0x02#8], 0x200#12, 0x00000800#32) := by decide

/-- V-P5. -/
theorem test_rdrange_out :
    look (fun t => (t.out, t.outCursor, t.a, t.trace.length, t.res)) (idle [0x38004FFC#32] [0xF3#8, 0xF2#8, 0xF1#8, 0xF0#8])
      = some ([0xF3#8, 0xF2#8, 0xF1#8, 0xF0#8], 4#32, 0xFFF#12, 16, 0#8) := by decide

/-- V-P6: the address wraps. -/
theorem test_rdrange_wraps :
    look (fun t => ((t.b0.cells.toList.take 4), t.b0.len, t.a, t.outCursor)) (idle [0x30004FFE#32] [0xF1#8, 0xF0#8, 0#8, 1#8])
      = some ([0xF1#8, 0xF0#8, 0#8, 1#8], 4#8, 0x001#12, 0#32) := by decide +kernel

/-- V-P7: length 0. -/
theorem test_rdrange_empty :
    look (fun t => (t.b2.len, t.a, t.trace, t.faulted)) (idle [0x34000000#32] []) = some (0#8, 0#12, [], false) := by
  decide

/-- V-P9: a comparison of length 0 of unallocated buffers. -/
theorem test_bufeq_empty : seen (idle [0x42000003#32] []) = some (0x00000400#32, 0#32, 0#32, 0, []) := by decide

/-- V-P11 to V-P13. -/
def twoBuffers (w : Word) : State :=
  { idle [w] [] with
    b0 := ((((Buffer.empty.store 0 1#8).store 1 2#8).store 2 3#8).store 3 4#8).setLen 4
    b1 := ((((Buffer.empty.store 0 1#8).store 1 2#8).store 2 3#8).store 3 5#8).setLen 4 }

theorem test_bufeq_differs_at_the_last : look State.res (twoBuffers 0x40004001#32) = some 0x00#8 := by decide +kernel

theorem test_bufeq_prefix : look State.res (twoBuffers 0x40003001#32) = some 0x01#8 := by decide +kernel

/-- V-P14. -/
theorem test_fetrig_high :
    look (fun t => (t.trace, t.a, t.csN, t.d5Oe, t.d5Out)) (idle [0x52000000#32] []) =
      some ([.cs false, .d5v true, .d5d true, .wa 0x1F1#12, .dly, .wa 0x1FE#12, .dly, .wa 0x1FF#12, .dly, .d5d false,
        .cs true, .dly], 0x1FF#12, true, false, true) := by decide

/-! ### Predicates and CLASSIFY: the courses of R87 to R93 and R148's counts -/

theorem test_predicate_event_counts :
    [Predicate.isE0, .isE7, .isF4, .isF6, .isF8, .is2K, .isFE].map (fun p => p.micros.length) =
      [1546, 1546, 778, 778, 778, 768, 792] := by decide +kernel

/-- What `seen` of Safety says of a predicate's events, its shape for any bytes, is what the course issues. -/
theorem test_isE0_course :
    (Predicate.isE0.micros.map fun m => m.act.shape) =
      (Predicate.isE0.seen ⟨List.replicate 128 0#8, List.replicate 128 0#8, List.replicate 128 0#8,
        List.replicate 128 0#8⟩) := by decide +kernel

/-- V-C1 rows `2K` and `4K`: the verdict's two ends, on windows all alike and on windows that differ only in is2K. -/
theorem test_is2k_true :
    look (fun t => (t.res, t.trace.length, t.a, t.b0.len, t.b1.len)) (idle [0x6A000000#32] (List.replicate 256 7#8)) =
      some (0x01#8, 768, 0x87F#12, 0#8, 0#8) := by decide +kernel

theorem test_isf8_first_byte_differs :
    look (fun t => (t.res, t.trace.length, t.kind)) (idle [0x68000000#32] (0x11#8 :: List.replicate 255 0#8)) =
      some (0x01#8, 778, none) := by decide +kernel

/-! ### Plans: the first events, R104, R105, R109 -/

theorem test_plan_E7_begins :
    ((planMicros .e7).take 6).map Micro.act = [.cs false, .wa 0xFE0#12, .dly, .cs true, .dly, .wa 0x000#12] := by
  decide +kernel

theorem test_plan_FE_begins :
    ((planMicros .fe).take 14).map Micro.act =
      [.cs false, .d5v true, .d5d true, .wa 0x1F1#12, .dly, .wa 0x1FE#12, .dly, .wa 0x1FF#12, .dly, .d5d false,
        .cs true, .dly, .wa 0x000#12, .dly] := by decide +kernel

/-- R148: DUMPK.F4 has the most events of all commands. -/
theorem test_plan_F4_count : (planMicros .f4).length = 131112 := planMicros_length .f4

/-! ### Faults (V-F1 to V-F10) -/

theorem test_badcmd : seen (idle [0#32] []) = some (0x00000042#32, 0#32, 0#32, 0, []) := by decide

theorem test_nokind_before_nodest :
    seen { idle [0x80000000#32] [] with outAvail := false } = some (0x000000C2#32, 0x80000000#32, 0#32, 0, []) := by
  decide

/-- V-F5. -/
theorem test_nodest_after_classify :
    seen { idle [0x80000000#32] [] with kind := some .k2, res := 0x06#8, outAvail := false } =
      some (0x000018B6#32, 0x80000000#32, 0#32, 0, []) := by decide

/-- V-F7: ERR_NODEST even with length 0. -/
theorem test_nodest_length_0 :
    seen { idle [0x38000000#32] [] with outAvail := false } = some (0x00000082#32, 0x38000000#32, 0#32, 0, []) := by
  decide

/-- V-F8. -/
theorem test_reclassify :
    seen { idle [0x70000000#32] [] with kind := some .k2, res := 0x06#8 } =
      some (0x00001936#32, 0x70000000#32, 0#32, 0, []) := by decide

/-- V-F10: one byte more than a buffer holds. -/
theorem test_buflen_129 : seen (idle [0x34081000#32] []) = some (0x00000142#32, 0x34081000#32, 0#32, 0, []) := by decide

/-- V-F12: a faulted block accepts nothing. -/
theorem test_faulted_block_waits :
    look (fun t => (t.status, t.cmds)) { idle [0x20000000#32] [] with faulted := true, err := 1#4 } =
      some (0x00000042#32, [0x20000000#32]) := by decide

/-! ### Reset and the host's registers (V-R1, V-R2) -/

theorem test_reset_registers : [0#2, 1#2, 2#2, 3#2].map State.reset.hostReg = [0#32, 0#32, 0#32, 0#32] := by decide

/-- V-R2: ten bytes of a dump, then `rst`: the environment keeps them and the block is as after reset. -/
theorem test_rst_keeps_the_output :
    look (fun t => (t.out.length, t.outCursor, t.busy, t.status))
      { idle [] [] with rst := true, busy := true, outCursor := 10#32, outRev := List.replicate 10 0#8 } =
      some (10, 0#32, false, 0#32) := by decide

/-- R136: what the environment saw before `rst` reaches the free value of the next sample. -/
theorem test_rst_keeps_what_was_seen :
    look State.earlierSessions { idle [] [] with rst := true, traceRev := [.dly, .wa 0xFF8#12, .cs false] } =
      some [[.dly, .wa 0xFF8#12, .cs false]] := by decide

/-! ### The control region (R9) -/

theorem test_control_region :
    [0xFDF#12, 0xFE0#12, 0xFFF#12, 0x000#12].map inControlRegion = [false, true, true, false] := by decide

/-! ### Witnesses: a concrete state and operands that meet the hypotheses of each obligation -/

theorem witness_DecodeOfEncode : (Instr.rdrange .out 0xFFF#12 4096#13).wellFormed = true := by decide

theorem witness_EncodeOfDecode : decode 0x47FFF003#32 = .command (.bufeq .b3 .b3 8191#13) := by decide

theorem idle_ready (ws : List Word) (bs : List Byte) : (idle ws bs).ready := ⟨rfl, rfl, rfl⟩

theorem witness_StepRunsTheDecodedCommand :
    (idle [0x70000000#32, 0x80000000#32] []).ready ∧
      (idle [0x70000000#32, 0x80000000#32] []).cmds = 0x70000000#32 :: [0x80000000#32] ∧
      decode 0x70000000#32 = .command .classify := ⟨idle_ready _ _, rfl, by decide⟩

theorem witness_IllegalWordFaults :
    (idle [0x6E000000#32] []).ready ∧ (idle [0x6E000000#32] []).cmds = 0x6E000000#32 :: [] ∧
      decode 0x6E000000#32 = .illegal .sel := ⟨idle_ready _ _, rfl, by decide⟩

/-- A faulted state. -/
def faulted : State := { idle [0x20000000#32] [] with faulted := true, err := 3#4, faultCmd := 0x80000000#32 }

theorem witness_IdleOrFaultedBlockDoesNothing :
    (faulted.rst = false ∧ faulted.busy = false ∧ (faulted.faulted = true ∨ faulted.cmds = [])) ∧
      (State.reset.rst = false ∧ State.reset.busy = false ∧ (State.reset.faulted = true ∨ State.reset.cmds = [])) := by
  decide

theorem witness_ResetInput : { faulted with rst := true }.rst = true := by decide

theorem witness_ResetKeepsTheEnvironment :
    { faulted with rst := true, traceRev := [.dly, .wa 0xFF8#12] }.rst = true ∧
      { faulted with rst := true, traceRev := [.dly, .wa 0xFF8#12] }.answers = [] := by decide

theorem witness_EventEffects : { State.reset with sampled := [0x12#8, 0x34#8] }.sampled = 0x12#8 :: [0x34#8] := by decide

/-- RDBYTE 0x200 in progress, no event issued yet. -/
def inProgress : State := { idle [] [0x02#8] with busy := true, curCmd := 0x20000200#32 }

theorem witness_TickIsOneEvent :
    ∃ t, inProgress.rst = false ∧ inProgress.busy = true ∧ tick inProgress = .next t := ⟨_, rfl, rfl, rfl⟩

theorem witness_ResultsAreWrittenAtTheEnd :
    ∃ t, inProgress.rst = false ∧ inProgress.busy = true ∧ tick inProgress = .next t ∧ t.busy = true :=
  ⟨_, rfl, rfl, rfl, rfl⟩

theorem witness_TicksRefineStep : ∃ t, step (idle [0x52000000#32] []) = .next t := ⟨_, rfl⟩

theorem witness_NamedCursorsFollowTheCourse :
    (4096 ≤ 4096 ∧ 0 < 1 ∧ 1 ≤ 4096) ∧ (128 ≤ 128 ∧ 0 < 128 ∧ 128 ≤ 128) ∧ 0 < 5 ∧ assertHotspot 0xFE0#12 ≠ [] := by decide

theorem witness_RdrangeToBuffer : (128#13 : Len).toNat ≤ 128 ∧ (0#13 : Len).toNat ≤ 128 := by decide

theorem witness_RdrangeToOut : State.reset.outAvail = true := by decide

theorem witness_RdrangeFaults : 128 < (129#13 : Len).toNat ∧ { State.reset with outAvail := false }.outAvail = false := by
  decide

theorem witness_RangeReadIsRestartable :
    ([1#8, 2#8] : List Byte).length = (2#13 : Len).toNat ∧ (idle [] [1#8, 2#8]).answers = [1#8, 2#8] ++ [] ∧
      { idle [] [1#8, 2#8, 3#8] with res := 9#8 }.answers = [1#8, 2#8] ++ [3#8] ∧
      ((idle [] [1#8, 2#8]).outAvail = true ∧ { idle [] [1#8, 2#8, 3#8] with res := 9#8 }.outAvail = true) ∧
      (2#13 : Len).toNat ≤ 128 := by decide

theorem witness_BufeqResult :
    ((4#13 : Len).toNat ≤ ((twoBuffers 0#32).buffer .b0).len.toNat ∧
      (4#13 : Len).toNat ≤ ((twoBuffers 0#32).buffer .b1).len.toNat) ∧
    ((twoBuffers 0#32).buffer .b0).len.toNat < (5#13 : Len).toNat := by decide +kernel

theorem witness_HotspotPairPredicates :
    (Instr.isf6, 0x66000000#32, 0xFF6#12, 0xFF7#12) ∈ [(Instr.isf4, 0x64000000#32, 0xFF4#12, 0xFF5#12),
      (Instr.isf6, 0x66000000#32, 0xFF6#12, 0xFF7#12), (Instr.isf8, 0x68000000#32, 0xFF8#12, 0xFF9#12)] := by decide

theorem witness_ClassifyVerdict : (idle [] []).kind = none := by decide

theorem witness_ClassifyEventCounts : (idle [] [1#8]).kind = none := by decide

theorem witness_ReclassifyFaults : { State.reset with kind := some .k4 }.kind = some .k4 := by decide

theorem witness_PlainPlans :
    (Instr.dumpk4K, 0x9E000000#32, 4096) ∈
        [(Instr.dumpk2K, 0x9C000000#32, 2048), (Instr.dumpk4K, 0x9E000000#32, 4096)] ∧
      State.reset.outAvail = true := by decide

theorem witness_BankedPlans :
    (Instr.dumpkF8, 0x98000000#32, 0xFF8#12, 2, 4096) ∈ [(Instr.dumpkE0, 0x90000000#32, 0xFE0#12, 8, 1024),
      (Instr.dumpkF4, 0x94000000#32, 0xFF4#12, 8, 4096), (Instr.dumpkF6, 0x96000000#32, 0xFF6#12, 4, 4096),
      (Instr.dumpkF8, 0x98000000#32, 0xFF8#12, 2, 4096)] ∧ State.reset.outAvail = true := by decide

theorem witness_PlanE7 : (idle [0x92000000#32] []).outAvail = true := by decide

theorem witness_PlanFE : (idle [0x9A000000#32] []).outAvail = true := by decide

theorem witness_DumpResult :
    State.reset.kind = none ∧
      ({ State.reset with kind := some .f8, outAvail := false }.kind = some .f8 ∧
        { State.reset with kind := some .f8, outAvail := false }.outAvail = false) ∧
      ({ State.reset with kind := some .f8 }.kind = some .f8 ∧
        { State.reset with kind := some .f8 }.outAvail = true) := by decide

theorem witness_DumpkFaults : { State.reset with outAvail := false }.outAvail = false := by decide

theorem witness_PlanSizes : { State.reset with kind := some .e0 }.outAvail = true := by decide

theorem witness_DumpEmitsWhatItSamples : (idle [0x9C000000#32] [7#8]).outAvail = true := by decide

theorem witness_SessionEndsWell :
    ((idle (session ++ []) []).ready ∧ (idle (session ++ []) []).cmds = session ++ [] ∧
      (idle (session ++ []) []).kind = none ∧ (idle (session ++ []) []).outAvail = true) ∧
    ({ idle (session ++ []) [] with outAvail := false }.ready ∧
      { idle (session ++ []) [] with outAvail := false }.cmds = session ++ [] ∧
      { idle (session ++ []) [] with outAvail := false }.kind = none ∧
      { idle (session ++ []) [] with outAvail := false }.outAvail = false) ∧
    ({ idle (session ++ []) [] with kind := some .k2 }.ready ∧
      { idle (session ++ []) [] with kind := some .k2 }.cmds = session ++ [] ∧
      { idle (session ++ []) [] with kind := some .k2 }.kind ≠ none) :=
  ⟨⟨idle_ready _ _, rfl, rfl, rfl⟩, ⟨⟨rfl, rfl, rfl⟩, rfl, rfl, rfl⟩, ⟨rfl, rfl, rfl⟩, rfl, by decide⟩

theorem witness_QueryReadsTheByte :
    (idle (query 0xFF9#12 ++ []) [0xE7#8]).ready ∧ (idle (query 0xFF9#12 ++ []) [0xE7#8]).cmds = query 0xFF9#12 ++ [] :=
  ⟨idle_ready _ _, rfl⟩

/-- The invariant at a waiting idle block. -/
theorem idle_inv (ws : List Word) (bs : List Byte) : (idle ws bs).inv := by
  refine ⟨rfl, rfl, rfl, rfl, ?_, fun _ => ⟨rfl, rfl⟩, fun h => ?_, nofun, rfl⟩
  · intro k
    cases k <;> exact Nat.zero_le 128
  · cases h

theorem idle_busSafe (ws : List Word) (bs : List Byte) : (idle ws bs).busSafe := ⟨BusView.reset, rfl, rfl, rfl⟩

theorem witness_StepKeepsInv :
    ∃ t, (idle [0x10000FF8#32] []).inv ∧ step (idle [0x10000FF8#32] []) = .next t := ⟨_, idle_inv _ _, rfl⟩

theorem witness_TickKeepsInv : ∃ t, inProgress.tickInv ∧ tick inProgress = .next t := by
  refine ⟨_, ⟨rfl, ?_, fun h => ?_, fun _ => ⟨rfl, rfl⟩, by decide, ?_⟩, rfl⟩
  · intro k
    cases k <;> decide
  · cases h
  · intro _ k addr len h
    have : decode 0x20000200#32 = .command (.rdbyte 0x200#12) := by decide
    exact absurd (this.symm.trans h) (by simp)

theorem witness_StepNeverStops : (idle [0x70000000#32] []).inv := idle_inv _ _

theorem witness_BusStaysSafe :
    ∃ t, (idle [0x20000000#32] []).inv ∧ (idle [0x20000000#32] []).busSafe ∧
      step (idle [0x20000000#32] []) = .next t := ⟨_, idle_inv _ _, idle_busSafe _ _, rfl⟩

theorem witness_NothingIsForgotten :
    ∃ t, (idle [0x38004000#32] []).inv ∧ (idle [0x38004000#32] []).rst = false ∧
      step (idle [0x38004000#32] []) = .next t := ⟨_, idle_inv _ _, rfl, rfl⟩

theorem witness_OnlyDumpsEmit :
    ∃ t, exec (.rdbyte 0#12) State.reset = .next t ∧ Instr.rdbyte 0#12 ≠ .dump ∧
      (∀ k, Instr.rdbyte 0#12 ≠ Instr.dumpk k) ∧ ∀ addr len, Instr.rdbyte 0#12 ≠ .rdrange .out addr len :=
  ⟨_, rfl, by decide, fun k => by cases k <;> decide, fun _ _ => by simp⟩

theorem witness_OnlyClassifyWritesKind : ∃ t, exec .ise0 State.reset = .next t ∧ Instr.ise0 ≠ .classify :=
  ⟨_, rfl, by decide⟩

theorem witness_ResIsLeftAlone :
    ∃ t, exec (.hotspot 0xFF8#12) State.reset = .next t ∧
      ((∃ a, Instr.hotspot 0xFF8#12 = .hotspot a) ∨ (∃ p, Instr.hotspot 0xFF8#12 = .fetrig p) ∨
        (∃ d a n, Instr.hotspot 0xFF8#12 = .rdrange d a n) ∨ Instr.hotspot 0xFF8#12 = .dump ∨
        ∃ k, Instr.hotspot 0xFF8#12 = Instr.dumpk k) := ⟨_, rfl, .inl ⟨_, rfl⟩⟩

theorem witness_Line5OnlyByTriggers :
    ∃ t, exec (.hotspot 0xFF8#12) State.reset = .next t ∧ (∀ p, Instr.hotspot 0xFF8#12 ≠ .fetrig p) ∧
      Instr.hotspot 0xFF8#12 ≠ .isfe ∧ Instr.hotspot 0xFF8#12 ≠ .classify ∧ Instr.hotspot 0xFF8#12 ≠ .dumpkFE ∧
      (Instr.hotspot 0xFF8#12 = .dump → State.reset.kind ≠ some .fe) :=
  ⟨_, rfl, fun _ => by simp, by decide, by decide, by decide, fun _ => by decide⟩

theorem witness_FaultsArePrecise :
    ∃ t, exec .dump State.reset = .next t ∧ State.reset.faulted = false ∧ t.faulted = true := ⟨_, rfl, rfl, rfl⟩

theorem witness_EventsDoNotDependOnBytes :
    Instr.isf8 ≠ .classify ∧ (idle [] [1#8]).kind = (idle [] [2#8]).kind ∧
      (idle [] [1#8]).outAvail = (idle [] [2#8]).outAvail ∧
      (∀ k, ((idle [] [1#8]).buffer k).len = ((idle [] [2#8]).buffer k).len) ∧
      (idle [] [1#8]).faulted = (idle [] [2#8]).faulted :=
  ⟨by decide, rfl, rfl, fun k => by cases k <;> rfl, rfl⟩

theorem witness_NoStaleHotspot :
    ∃ t, (Instr.dumpkE0 = .classify ∨ Instr.dumpkE0 = .dump ∨ ∃ k, Instr.dumpkE0 = Instr.dumpk k) ∧
      planHotspot State.reset.a = false ∧ exec .dumpkE0 State.reset = .next t :=
  ⟨_, .inr (.inr ⟨.e0, rfl⟩), by decide, rfl⟩

theorem witness_HotspotsLieInTheControlRegion :
    ∃ t, (Instr.isf8 ∈ [Instr.ise0, .ise7, .isf4, .isf6, .isf8, .is2k, .isfe, .classify, .dump] ∨
        ∃ k, Instr.isf8 = Instr.dumpk k) ∧ State.reset.csN = true ∧ exec .isf8 State.reset = .next t :=
  ⟨_, .inl (by decide), rfl, rfl⟩

theorem witness_EveryCommandCompletes :
    (idle [0x94000000#32] []).ready ∧ (idle [0x94000000#32] []).cmds = 0x94000000#32 :: [] := ⟨idle_ready _ _, rfl⟩

end Sys2Proof.Tests
end

namespace Sys2Proof.Machine

/-! ### Under chip-select: only hotspots and the FE trigger's three addresses (R9, R14, R82)

`readTrace_selected`, `bankTrace_selected` and the like say what each rule's events present under chip-select. Here the
events of a command are put together from such pieces: each begins and ends with chip-select de-asserted, so the pieces
compose, and so do the courses made of them. -/

/-- An address the block may present under chip-select: one of the control region (R9, R14), or one of the FE trigger's
three (R82). -/
def mayBeSelected (a : Addr) : Prop :=
  inControlRegion a = true ∨ a = 0x1F1#12 ∨ a = 0x1FE#12 ∨ a = 0x1FF#12

/-- From chip-select de-asserted these events present under chip-select only such addresses, and they leave it
de-asserted. -/
def selectsOnlyHotspots (es : List Event) : Prop :=
  csAfter true es = true ∧ ∀ a ∈ selectedAddrs true es, mayBeSelected a

theorem selectsOnlyHotspots_nil : selectsOnlyHotspots [] := ⟨rfl, by simp [selectedAddrs]⟩

theorem selectsOnlyHotspots_append {es fs : List Event} (h : selectsOnlyHotspots es) (g : selectsOnlyHotspots fs) :
    selectsOnlyHotspots (es ++ fs) := by
  obtain ⟨hcs, ha⟩ := h
  obtain ⟨gcs, ga⟩ := g
  refine ⟨by rw [csAfter_append, hcs, gcs], fun a m => ?_⟩
  rw [selectedAddrs_append, hcs, List.mem_append] at m
  exact m.elim (ha a) (ga a)

/-! #### The events of the rules -/

theorem hotspotTrace_selectsOnlyHotspots {a : Addr} (h : inControlRegion a = true) :
    selectsOnlyHotspots (hotspotTrace a) :=
  ⟨rfl, by simpa using .inl h⟩

theorem feTrace_selectsOnlyHotspots (p : Level) : selectsOnlyHotspots (feTrace p) :=
  ⟨rfl, by simp [mayBeSelected]⟩

theorem readTrace_selectsOnlyHotspots (a : Addr) (bs : List Byte) : selectsOnlyHotspots (readTrace a bs) :=
  ⟨readTrace_cs true a bs, by simp⟩

theorem dumpTrace_selectsOnlyHotspots (a : Addr) (bs : List Byte) : selectsOnlyHotspots (dumpTrace a bs) :=
  ⟨dumpTrace_cs true a bs, by simp⟩

/-- The banks of a plan whose hotspots, from `h` on, begin in the control region and do not run past its end. -/
theorem bankTrace_selectsOnlyHotspots {h : Addr} {banks : List (List Byte)} (lo : 0xFE0 ≤ h.toNat)
    (hi : h.toNat + banks.length ≤ 0x1000) : selectsOnlyHotspots (bankTrace h banks) := by
  constructor
  · cases banks with
    | nil => rfl
    | cons bs rest => exact bankTrace_cs true h (by simp)
  · intro a m
    rw [bankTrace_selected, List.mem_map] at m
    obtain ⟨i, hm, rfl⟩ := m
    rw [List.mem_range] at hm
    have hsum : (h + BitVec.ofNat 12 i).toNat = h.toNat + i := by
      rw [BitVec.toNat_add, BitVec.toNat_ofNat]
      omega
    left
    simp only [inControlRegion, Config.hotspotLo, Config.hotspotHi, hsum, BitVec.toNat_ofNat, Bool.and_eq_true,
      decide_eq_true_eq]
    omega

/-- The addresses each predicate presents under chip-select (R87 to R93; isE0's and isE7's are logs 9 and 10). -/
def Predicate.selects : Predicate → List Addr
  | .isE0 => [0xFE8#12, 0xFEF#12]
  | .isE7 => [0xFE0#12, 0xFE1#12]
  | .isF4 => [0xFF4#12, 0xFF5#12]
  | .isF6 => [0xFF6#12, 0xFF7#12]
  | .isF8 => [0xFF8#12, 0xFF9#12]
  | .is2K => []
  | .isFE => [0x1F1#12, 0x1FE#12, 0x1FF#12, 0x1F1#12, 0x1FE#12, 0x1FF#12]

theorem seen_selected (p : Predicate) (w : Windows) : selectedAddrs true (p.seen w) = p.selects := by
  cases p <;> simp [Predicate.seen, Predicate.selects]

theorem seen_cs (p : Predicate) (w : Windows) : csAfter true (p.seen w) = true := by
  cases p <;> simp [Predicate.seen]

theorem selects_mayBeSelected (p : Predicate) : ∀ a ∈ p.selects, mayBeSelected a := by
  cases p <;> simp [Predicate.selects, mayBeSelected, inControlRegion, Config.hotspotLo, Config.hotspotHi]

theorem seen_selectsOnlyHotspots (p : Predicate) (w : Windows) : selectsOnlyHotspots (p.seen w) :=
  ⟨seen_cs p w, seen_selected p w ▸ selects_mayBeSelected p⟩

/-! #### Runs -/

/-- What the block did from `s` to `t` presented under chip-select only such addresses. -/
def State.reachesByHotspots (s t : State) : Prop := ∃ es, s.issued t es ∧ selectsOnlyHotspots es

/-- The same of a course, run from any state. -/
def Routine.keepsToHotspots (r : Routine) : Prop := ∀ s : State, s.reachesByHotspots (r.run s)

theorem reachesByHotspots_trans {s t u : State} (h : s.reachesByHotspots t) (g : t.reachesByHotspots u) :
    s.reachesByHotspots u := by
  obtain ⟨es, hi, he⟩ := h
  obtain ⟨fs, gi, ge⟩ := g
  exact ⟨es ++ fs, issued_trans hi gi, selectsOnlyHotspots_append he ge⟩

/-- A fault issues no event (R124). -/
theorem raise_reachesByHotspots (e : ErrCode) (s : State) : s.reachesByHotspots (s.raise e) :=
  ⟨[], issued_refl s, selectsOnlyHotspots_nil⟩

/-- A command's last writes issue no event (R72). -/
theorem writeBack_issued (w : WriteBack) {s u : State} {es : List Event} :
    s.issued (u.writeBack w) es ↔ s.issued u es := by
  cases w <;> simp [State.issued, State.trace, State.writeBack]

theorem finish_keepsToHotspots (w : WriteBack) : (Routine.finish w).keepsToHotspots := fun s =>
  ⟨[], issued_complete.mpr ((writeBack_issued w).mpr (issued_refl s)), selectsOnlyHotspots_nil⟩

theorem ask_keepsToHotspots (p : Predicate) {yes no : Routine} (hy : yes.keepsToHotspots) (hn : no.keepsToHotspots) :
    (p.ask yes no).keepsToHotspots := by
  intro s
  obtain ⟨w, u, -, hi, -, -, -, -, hrun⟩ := ask_spec p yes no s
  have hu : s.reachesByHotspots u := ⟨p.seen w, hi, seen_selectsOnlyHotspots p w⟩
  rw [hrun]
  split
  · exact reachesByHotspots_trans hu (hy u)
  · exact reachesByHotspots_trans hu (hn u)

theorem predicateRoutine_keepsToHotspots (p : Predicate) : (predicateRoutine p).keepsToHotspots :=
  ask_keepsToHotspots p (finish_keepsToHotspots _) (finish_keepsToHotspots _)

theorem classifyRoutine_keepsToHotspots : classifyRoutine.keepsToHotspots :=
  have verdict k : (Routine.finish (.verdict k)).keepsToHotspots := finish_keepsToHotspots _
  ask_keepsToHotspots .isE0 (verdict .e0) <| ask_keepsToHotspots .isE7 (verdict .e7) <|
    ask_keepsToHotspots .isF6 (verdict .f6) <| ask_keepsToHotspots .isF8 (verdict .f8) <|
    ask_keepsToHotspots .isFE (verdict .fe) <| ask_keepsToHotspots .is2K (verdict .k2) (verdict .k4)

/-! #### Plans -/

/-- A range read to OUT, at any place in a plan (R78). -/
theorem rangeOut_reachesByHotspots {ms : List Micro} {addr : Addr} {n : Nat}
    (g : actionsOf ms = actionsOf (readRange addr n .out)) (s : State) :
    s.reachesByHotspots (State.issueAll ms s) := by
  obtain ⟨bs, -, hi⟩ := rangeOut_spec n n addr g s
  exact ⟨_, hi, dumpTrace_selectsOnlyHotspots addr bs⟩

theorem feTrigger_reachesByHotspots {ms : List Micro} {p : Level} (g : actionsOf ms = actionsOf (feTrigger p))
    (s : State) : s.reachesByHotspots (State.issueAll ms s) :=
  ⟨_, (feTrigger_spec g s).1, feTrace_selectsOnlyHotspots p⟩

/-- `count` banks whose hotspots lie in the control region (R104 to R108). -/
theorem banks_reachesByHotspots {ms : List Micro} {n count : Nat} {h : Addr}
    (g : actionsOf ms = ((banksFrom n h count).map actionsOf).flatten) (lo : 0xFE0 ≤ h.toNat)
    (hi : h.toNat + count ≤ 0x1000) (s : State) : s.reachesByHotspots (State.issueAll ms s) := by
  obtain ⟨banks, hc, -, hb⟩ := banks_spec n count h g s
  exact ⟨_, hb, bankTrace_selectsOnlyHotspots lo (hc ▸ hi)⟩

theorem append_reachesByHotspots {xs ys : List Micro} (hx : ∀ s : State, s.reachesByHotspots (State.issueAll xs s))
    (hy : ∀ s : State, s.reachesByHotspots (State.issueAll ys s)) (s : State) :
    s.reachesByHotspots (State.issueAll (xs ++ ys) s) := by
  rw [issueAll_append]
  exact reachesByHotspots_trans (hx s) (hy _)

theorem plan_reachesByHotspots (k : MapperKind) (s : State) :
    s.reachesByHotspots (State.issueAll (planMicros k) s) := by
  have g : actionsOf (planMicros k) = ((planOf k).map actionsOf).flatten := numberCalls_actions 0 (planOf k)
  cases k with
  | e0 => exact banks_reachesByHotspots g (by decide) (by decide) s
  | f4 => exact banks_reachesByHotspots g (by decide) (by decide) s
  | f6 => exact banks_reachesByHotspots g (by decide) (by decide) s
  | f8 => exact banks_reachesByHotspots g (by decide) (by decide) s
  | k2 => exact rangeOut_reachesByHotspots (by simpa [planOf, plan2K] using g) s
  | k4 => exact rangeOut_reachesByHotspots (by simpa [planOf, plan4K] using g) s
  | e7 =>
    simp only [planOf, planE7, List.map_append, List.flatten_append, List.map_cons, List.map_nil, List.flatten_cons,
      List.flatten_nil, List.append_nil] at g
    obtain ⟨m1, m2, hm, g1, g2⟩ := actionsOf_eq_append g
    rw [hm]
    have banks := banks_reachesByHotspots g1 (by decide) (by decide)
    exact append_reachesByHotspots banks (rangeOut_reachesByHotspots g2) s
  | fe =>
    simp only [planOf, planFE, List.map_cons, List.map_nil, List.flatten_cons, List.flatten_nil, List.append_nil] at g
    obtain ⟨m1, r1, hm, g1, g⟩ := actionsOf_eq_append g
    obtain ⟨m2, r2, rfl, g2, g⟩ := actionsOf_eq_append g
    obtain ⟨m3, m4, rfl, g3, g4⟩ := actionsOf_eq_append g
    rw [hm]
    exact append_reachesByHotspots (feTrigger_reachesByHotspots g1)
      (append_reachesByHotspots (rangeOut_reachesByHotspots g2)
        (append_reachesByHotspots (feTrigger_reachesByHotspots g3) (rangeOut_reachesByHotspots g4))) s

theorem dumpRoutine_keepsToHotspots (k : MapperKind) : (dumpRoutine k).keepsToHotspots := by
  intro s
  rw [dumpRoutine, run_plain]
  exact plan_reachesByHotspots k s

/-! #### Commands -/

theorem routineOf_dumpk (k : MapperKind) (kind : Option MapperKind) :
    routineOf (.dumpk k) kind = some (dumpRoutine k) := by
  cases k <;> rfl

/-- The course of each command that addresses hotspots of its own choice. -/
theorem routineOf_keepsToHotspots {i : Instr} {kind : Option MapperKind} {r : Routine}
    (hi : i ∈ [Instr.ise0, .ise7, .isf4, .isf6, .isf8, .is2k, .isfe, .classify, .dump] ∨ ∃ k, i = Instr.dumpk k)
    (hr : routineOf i kind = some r) : r.keepsToHotspots := by
  rcases hi with hi | ⟨k, rfl⟩
  · simp only [List.mem_cons, List.not_mem_nil, or_false] at hi
    rcases hi with rfl | rfl | rfl | rfl | rfl | rfl | rfl | rfl | rfl
    iterate 7
      · cases hr
        exact predicateRoutine_keepsToHotspots _
    · cases hr
      exact classifyRoutine_keepsToHotspots
    · obtain ⟨k, -, rfl⟩ := Option.map_eq_some_iff.mp hr
      exact dumpRoutine_keepsToHotspots k
  · cases (routineOf_dumpk k kind).symm.trans hr
    exact dumpRoutine_keepsToHotspots k

/-- A command either faults at its checks, which issues no event, or runs its course. -/
theorem exec_reachesByHotspots {i : Instr} {s t : State} (h : ∀ r, routineOf i s.kind = some r → r.keepsToHotspots)
    (ht : exec i s = .next t) : s.reachesByHotspots t := by
  rw [exec_eq] at ht
  cases ht
  split
  · exact raise_reachesByHotspots _ s
  · next hr => exact h _ hr s
  · exact raise_reachesByHotspots _ s

/-- Settles O57: every course is put together from the rules' events, each of which begins and ends with chip-select
de-asserted. That the command starts so too (`s.csN = true`) is what makes `selectedAddrs true` the addresses this
block presents under chip-select; the list itself does not depend on it. -/
theorem hotspotsLieInTheControlRegion : Obligations.HotspotsLieInTheControlRegion := by
  intro i s t hi _ ht
  obtain ⟨es, hissued, -, hsel⟩ := exec_reachesByHotspots (fun _ => routineOf_keepsToHotspots hi) ht
  exact ⟨es, hissued, hsel⟩

end Sys2Proof.Machine

namespace Sys2Proof.Machine

/-! ### The course of each command

The 22 courses fall into nine families. What a course may do is told by the actions in it, its last writes and its
length, on any way through its comparisons. -/

/-- The command of a predicate (R94). -/
def Predicate.instr : Predicate → Instr
  | .isE0 => .ise0
  | .isE7 => .ise7
  | .isF4 => .isf4
  | .isF6 => .isf6
  | .isF8 => .isf8
  | .is2K => .is2k
  | .isFE => .isfe

/-- `r` is the course of the command `i`, for some verdict where the command is DUMP. -/
inductive IsCourse : Instr → Routine → Prop
  | hotspot (addr) : IsCourse (.hotspot addr) (hotspotRoutine addr)
  | rdbyte (addr) : IsCourse (.rdbyte addr) (rdbyteRoutine addr)
  | rdrange (dst addr len) : IsCourse (.rdrange dst addr len) (rdrangeRoutine dst addr len)
  | bufeq (a b len) : IsCourse (.bufeq a b len) (bufeqRoutine a b len)
  | fetrig (p) : IsCourse (.fetrig p) (fetrigRoutine p)
  | predicate (p : Predicate) : IsCourse p.instr (predicateRoutine p)
  | classify : IsCourse .classify classifyRoutine
  | dump (k) : IsCourse .dump (dumpRoutine k)
  | dumpk (k) : IsCourse (.dumpk k) (dumpRoutine k)

theorem isCourse_of_routineOf {i : Instr} {kind : Option MapperKind} {r : Routine} (h : routineOf i kind = some r) :
    IsCourse i r := by
  cases i
  case dump =>
    obtain ⟨k, -, rfl⟩ := Option.map_eq_some_iff.mp h
    exact .dump k
  all_goals cases h
  case hotspot => exact .hotspot _
  case rdbyte => exact .rdbyte _
  case rdrange => exact .rdrange _ _ _
  case bufeq => exact .bufeq _ _ _
  case fetrig => exact .fetrig _
  case ise0 => exact .predicate .isE0
  case ise7 => exact .predicate .isE7
  case isf4 => exact .predicate .isF4
  case isf6 => exact .predicate .isF6
  case isf8 => exact .predicate .isF8
  case is2k => exact .predicate .is2K
  case isfe => exact .predicate .isFE
  case classify => exact .classify
  case dumpkE0 => exact .dumpk .e0
  case dumpkE7 => exact .dumpk .e7
  case dumpkF4 => exact .dumpk .f4
  case dumpkF6 => exact .dumpk .f6
  case dumpkF8 => exact .dumpk .f8
  case dumpkFE => exact .dumpk .fe
  case dumpk2K => exact .dumpk .k2
  case dumpk4K => exact .dumpk .k4

/-- The actions of a course, on every way through its comparisons. -/
def Routine.actions : Routine → List Action
  | .finish _ => []
  | .event m k => m.act :: k.actions
  | .test _ yes no => yes.actions ++ no.actions

/-- The last writes a course may end with. -/
def Routine.ends : Routine → List WriteBack
  | .finish w => [w]
  | .event _ k => k.ends
  | .test _ yes no => yes.ends ++ no.ends

/-- The most events a course issues. -/
def Routine.longest : Routine → Nat
  | .finish _ => 0
  | .event _ k => k.longest + 1
  | .test _ yes no => max yes.longest no.longest

@[simp] theorem actions_finish (w : WriteBack) : (Routine.finish w).actions = [] := rfl

@[simp] theorem ends_finish (w : WriteBack) : (Routine.finish w).ends = [w] := rfl

@[simp] theorem longest_finish (w : WriteBack) : (Routine.finish w).longest = 0 := rfl

@[simp] theorem actions_events (ms : List Micro) (k : Routine) :
    (Routine.events ms k).actions = actionsOf ms ++ k.actions := by
  induction ms with
  | nil => rfl
  | cons m ms ih => simp [Routine.events, Routine.actions, ih]

@[simp] theorem ends_events (ms : List Micro) (k : Routine) : (Routine.events ms k).ends = k.ends := by
  induction ms with
  | nil => rfl
  | cons m ms ih => exact ih

@[simp] theorem longest_events (ms : List Micro) (k : Routine) :
    (Routine.events ms k).longest = ms.length + k.longest := by
  induction ms with
  | nil => simp [Routine.events]
  | cons m ms ih => simp only [Routine.events, Routine.longest, ih, List.length_cons]; omega

@[simp] theorem actions_ask (p : Predicate) (yes no : Routine) :
    (p.ask yes no).actions = actionsOf p.micros ++ (yes.actions ++ no.actions) := by
  simp [Predicate.ask, Routine.actions]

@[simp] theorem ends_ask (p : Predicate) (yes no : Routine) : (p.ask yes no).ends = yes.ends ++ no.ends := by
  simp [Predicate.ask, Routine.ends]

theorem longest_ask (p : Predicate) (yes no : Routine) :
    (p.ask yes no).longest ≤ 1546 + max yes.longest no.longest := by
  rw [Predicate.ask, longest_events]
  exact Nat.add_le_add_right (predicate_length p) _

/-- CLASSIFY asks six predicates at most (R95). -/
theorem longest_classifyRoutine : classifyRoutine.longest ≤ 6 * 1546 := by
  have le {p : Predicate} {w : WriteBack} {no : Routine} {n : Nat} (h : no.longest ≤ n) :
      (p.ask (.finish w) no).longest ≤ 1546 + n := by
    have := longest_ask p (.finish w) no
    rw [longest_finish, Nat.zero_max] at this
    omega
  exact le (le (le (le (le (le (no := .finish _) (Nat.le_refl 0))))))

/-- No command issues more events than the dump of an F4 cartridge (R148, R150). -/
theorem longest_course {i : Instr} {r : Routine} (h : IsCourse i r) : r.longest ≤ 131112 := by
  cases h with
  | hotspot | rdbyte | bufeq | fetrig =>
    simp [hotspotRoutine, rdbyteRoutine, bufeqRoutine, fetrigRoutine, assertHotspot, readByte, feTrigger]
  | rdrange dst addr len =>
    have := len.isLt
    cases dst <;> simp only [rdrangeRoutine, longest_events, readRange, rangeTurns_length, longest_finish] <;> omega
  | predicate p => exact (longest_ask p _ _).trans (by simp)
  | classify => exact longest_classifyRoutine.trans (by decide)
  | dump k | dumpk k =>
    rw [dumpRoutine, longest_events, planMicros_length]
    cases k <;> decide

/-! ### What a course keeps -/

/-- The induction over a course, packaged: what its events, the release of buffers and its last writes keep, its run
keeps. -/
theorem run_keeps {I : State → Prop} {r : Routine} (hissue : ∀ m s, m.act ∈ r.actions → I s → I (s.issue m))
    (hrelease : ∀ (p : Predicate) s, I s → I (p.releaseAll s))
    (hend : ∀ w s, w ∈ r.ends → I s → I (s.writeBack w).complete) {s : State} (hs : I s) : I (r.run s) := by
  induction r generalizing s with
  | finish w => exact hend w s (by simp) hs
  | event m k ih =>
    exact ih (fun m' u hm => hissue m' u (List.mem_cons_of_mem _ hm)) hend (hissue m s (by simp [Routine.actions]) hs)
  | test p yes no ihy ihn =>
    rw [run_test]
    split
    · exact ihy (fun m u hm => hissue m u (List.mem_append_left _ hm))
        (fun w u hw => hend w u (List.mem_append_left _ hw)) (hrelease p s hs)
    · exact ihn (fun m u hm => hissue m u (List.mem_append_right _ hm))
        (fun w u hw => hend w u (List.mem_append_right _ hw)) (hrelease p s hs)

/-- The same up to the next event. -/
theorem settle_keeps {I : State → Prop} {r : Routine} (hrelease : ∀ (p : Predicate) s, I s → I (p.releaseAll s))
    (hend : ∀ w s, w ∈ r.ends → I s → I (s.writeBack w).complete) {s : State} (hs : I s) : I (r.settle s) := by
  induction r generalizing s with
  | finish w => exact hend w s (by simp) hs
  | event m k ih => exact hs
  | test p yes no ihy ihn =>
    rw [Routine.settle]
    split
    · exact ihy (fun w u hw => hend w u (List.mem_append_left _ hw)) (hrelease p s hs)
    · exact ihn (fun w u hw => hend w u (List.mem_append_right _ hw)) (hrelease p s hs)

/-- A field that only a course's last writes could touch, and these do not, is after it as before. -/
theorem run_field {α : Type} (f : State → α) {r : Routine} (hissue : ∀ m s, m.act ∈ r.actions → f (s.issue m) = f s)
    (hrelease : ∀ (p : Predicate) s, f (p.releaseAll s) = f s)
    (hend : ∀ w s, w ∈ r.ends → f (s.writeBack w).complete = f s) (s : State) : f (r.run s) = f s :=
  run_keeps (I := fun u => f u = f s) (fun m u hm h => (hissue m u hm).trans h) (fun p u h => (hrelease p u).trans h)
    (fun w u hw h => (hend w u hw).trans h) rfl

/-- A field that neither a release nor a last write touches is up to the next event as before. -/
theorem settle_field {α : Type} (f : State → α) (hrelease : ∀ (p : Predicate) s, f (p.releaseAll s) = f s)
    (hend : ∀ w s, f (s.writeBack w).complete = f s) (r : Routine) (s : State) : f (r.settle s) = f s :=
  settle_keeps (I := fun u => f u = f s) (fun p u h => (hrelease p u).trans h) (fun w u _ h => (hend w u).trans h) rfl

/-- A course ends with BUSY 0 and the `done` pulse (R72). -/
theorem run_ends (r : Routine) (s : State) : (r.run s).busy = false ∧ (r.run s).done = true := by
  induction r generalizing s with
  | finish w => exact ⟨rfl, rfl⟩
  | event m k ih => exact ih _
  | test p yes no ihy ihn =>
    rw [run_test]
    split
    · exact ihy _
    · exact ihn _

@[simp] theorem run_cmds (r : Routine) (s : State) : (r.run s).cmds = s.cmds :=
  run_field State.cmds (by simp) (by simp) (by simp) s

/-- No course touches the fault registers: faults are taken before its first event (R124, R126). -/
theorem run_faultRegisters (r : Routine) (s : State) :
    (r.run s).faulted = s.faulted ∧ (r.run s).err = s.err ∧ (r.run s).faultCmd = s.faultCmd :=
  ⟨run_field State.faulted (by simp) (by simp) (by simp) s, run_field State.err (by simp) (by simp) (by simp) s,
    run_field State.faultCmd (by simp) (by simp) (by simp) s⟩

theorem settle_faultRegisters (r : Routine) (s : State) :
    (r.settle s).faulted = s.faulted ∧ (r.settle s).err = s.err ∧ (r.settle s).faultCmd = s.faultCmd :=
  ⟨settle_field State.faulted (by simp) (by simp) r s, settle_field State.err (by simp) (by simp) r s,
    settle_field State.faultCmd (by simp) (by simp) r s⟩

@[simp] theorem settle_curCmd (r : Routine) (s : State) : (r.settle s).curCmd = s.curCmd :=
  settle_field State.curCmd (by simp) (by simp) r s

@[simp] theorem settle_traceRev (r : Routine) (s : State) : (r.settle s).traceRev = s.traceRev :=
  settle_field State.traceRev (by simp) (by simp) r s

@[simp] theorem settle_seqPos (r : Routine) (s : State) : (r.settle s).seqPos = s.seqPos :=
  settle_field State.seqPos (by simp) (by simp) r s

/-- A command that is not over was not over before. -/
theorem settle_busy {r : Routine} {s : State} : (r.settle s).busy = true → s.busy = true :=
  settle_keeps (I := fun u => u.busy = true → s.busy = true) (by simp) (fun _ _ _ _ => nofun) id

/-- What an observer saw of a course's run: at most as many events as its longest way has. -/
theorem run_issued (r : Routine) (s : State) : ∃ es, s.issued (r.run s) es ∧ es.length ≤ r.longest := by
  induction r generalizing s with
  | finish w => exact ⟨[], issued_complete.mpr ((writeBack_issued w).mpr (issued_refl s)), Nat.zero_le _⟩
  | event m k ih =>
    obtain ⟨es, hi, hl⟩ := ih (s.issue m)
    exact ⟨_ :: es, issued_trans (issue_issued m s) hi, Nat.succ_le_succ hl⟩
  | test p yes no ihy ihn =>
    have hp : s.issued (p.releaseAll s) [] := (releaseAll_issued p).mpr (issued_refl s)
    rw [run_test]
    split
    · obtain ⟨es, hi, hl⟩ := ihy (p.releaseAll s)
      exact ⟨es, issued_trans hp hi, hl.trans (Nat.le_max_left _ _)⟩
    · obtain ⟨es, hi, hl⟩ := ihn (p.releaseAll s)
      exact ⟨es, issued_trans hp hi, hl.trans (Nat.le_max_right _ _)⟩

/-! ### What the block can do, said once -/

/-- ALL THAT AN ACCEPTED COMMAND CAN DO: take a fault of its checks (R125), or run its course (R72). -/
theorem exec_cases {i : Instr} {s t : State} (h : exec i s = .next t) :
    (∃ e, t = s.raise e) ∨ ∃ r, checkOf i s = none ∧ routineOf i s.kind = some r ∧ t = r.run s := by
  rw [exec_eq] at h
  cases h
  split
  · exact .inl ⟨_, rfl⟩
  · next r hc hr => exact .inr ⟨r, hc, hr, rfl⟩
  · exact .inl ⟨_, rfl⟩

/-- ALL THAT AN IDLE BLOCK'S STEP CAN DO (R72, R119, R127, R134): reset, nothing, or, when ready, take the first
waiting word, which ends in a fault or with its command's course run. -/
theorem step_cases {s t : State} (hb : s.busy = false) (h : step s = .next t) :
    (s.rst = true ∧ t = s.resetBlock) ∨ ((s.faulted = true ∨ s.cmds = []) ∧ t = s.idle) ∨
      s.ready ∧ ∃ w, ((∃ e, t = (s.accept w).raise e) ∨
        ∃ i r, checkOf i (s.accept w) = none ∧ routineOf i s.kind = some r ∧ t = r.run (s.accept w)) := by
  simp only [step, State.advance, hb, Bool.false_eq_true, if_false] at h
  split at h
  · next hr => cases h; exact .inl ⟨hr, rfl⟩
  next hr =>
  have hr : s.rst = false := by simpa using hr
  split at h
  · next hf => cases h; exact .inr (.inl ⟨.inl hf, rfl⟩)
  next hf =>
  have hf : s.faulted = false := by simpa using hf
  split at h
  · next hw => cases h; exact .inr (.inl ⟨.inr hw, rfl⟩)
  next w ws hw =>
  refine .inr (.inr ⟨⟨hr, hb, hf⟩, w, ?_⟩)
  rw [State.takeCommand] at h
  split at h
  · cases h; exact .inl ⟨.badCmd, rfl⟩
  · next i hi =>
    rcases exec_cases h with hfault | ⟨r, hc, hr, rfl⟩
    · exact .inl hfault
    · exact .inr ⟨i, r, hc, hr, rfl⟩


/-- A step of an idle block has a next state. -/
theorem step_answers {s : State} (hb : s.busy = false) : ∃ t, step s = .next t := by
  simp only [step, State.advance, State.takeCommand, exec_eq, hb, Bool.false_eq_true, if_false]
  repeat' split
  all_goals exact ⟨_, rfl⟩

/-! ### Properties of a command's actions, from its Probe Engine calls -/

/-- A property of lists of actions that hotspots and triggers have, and lists made of lists that have it. -/
structure Composes (G : List Action → Prop) : Prop where
  nil : G []
  append : ∀ {xs ys}, G xs → G ys → G (xs ++ ys)
  hotspot : ∀ addr, G (actionsOf (assertHotspot addr))
  trigger : ∀ p, G (actionsOf (feTrigger p))

namespace Composes

variable {G : List Action → Prop} (c : Composes G)
include c

theorem range {dst : Dest} {n : Nat} (turn : ∀ a i, G (actionsOf (rangeTurn dst a i n))) (a : Addr) (left : Nat) :
    G (actionsOf (rangeTurns dst n a left)) := by
  induction left generalizing a with
  | zero => exact c.nil
  | succ left ih =>
    rw [rangeTurns, actionsOf_append, actionsOf_inTurn]
    exact c.append (turn a _) (ih _)

theorem calls {cs : List (List Micro)} (h : ∀ x ∈ cs, G (actionsOf x)) (n : Nat) :
    G (actionsOf (numberCalls n cs)) := by
  induction cs generalizing n with
  | nil => exact c.nil
  | cons x xs ih =>
    rw [numberCalls, actionsOf_append, actionsOf_inStage]
    exact c.append (h x (by simp)) (ih (fun y hy => h y (by simp [hy])) _)

/-- A predicate is made of hotspots, triggers and windows of 128 bytes (R85 to R93). -/
theorem predicate (turn : ∀ k a i, G (actionsOf (rangeTurn (.buf k) a i 128))) (p : Predicate) :
    G (actionsOf p.micros) := by
  have win a k : G (actionsOf (window a k)) := c.range (turn k) a 128
  cases p <;> refine c.calls ?_ 0 <;>
    simp [isE0Calls, isE7Calls, isF4Calls, isF6Calls, isF8Calls, is2KCalls, isFECalls, win, c.hotspot, c.trigger]

theorem banks {n : Nat} (turn : ∀ a i n, G (actionsOf (rangeTurn .out a i n))) (h : Addr) (count : Nat) :
    ∀ x ∈ banksFrom n h count, G (actionsOf x) := by
  induction count generalizing h with
  | zero => simp [banksFrom]
  | succ count ih =>
    have read : G (actionsOf (readRange 0x000#12 n .out)) := c.range (turn · · n) _ n
    simpa [banksFrom, bankCalls, c.hotspot, read] using ih (h + 1#12)

/-- A plan is made of hotspots, triggers and range reads to OUT (R102 to R109). -/
theorem plan (turn : ∀ a i n, G (actionsOf (rangeTurn .out a i n))) (k : MapperKind) :
    G (actionsOf (planMicros k)) := by
  have read a n : G (actionsOf (readRange a n .out)) := c.range (turn · · n) a n
  refine c.calls ?_ 0
  cases k with
  | e0 => exact c.banks turn _ _
  | f4 => exact c.banks turn _ _
  | f6 => exact c.banks turn _ _
  | f8 => exact c.banks turn _ _
  | e7 =>
    intro x hx
    rcases List.mem_append.mp hx with hx | hx
    · exact c.banks turn _ _ x hx
    · simpa [List.mem_singleton.mp hx] using read _ _
  | fe => simp [planOf, planFE, c.trigger, read]
  | k2 => simp [planOf, plan2K, read]
  | k4 => simp [planOf, plan4K, read]

end Composes

/-- A property of single actions that all but samples and emissions have. -/
theorem composes_forall {P : Action → Prop} (cs : ∀ l, P (.cs l)) (wa : ∀ a, P (.wa a)) (dly : P .dly)
    (d5v : ∀ v, P (.d5v v)) (d5d : ∀ d, P (.d5d d)) : Composes fun xs => ∀ x ∈ xs, P x where
  nil := by simp
  append hx hy x h := (List.mem_append.mp h).elim (hx x) (hy x)
  hotspot addr := by simp [assertHotspot, Micro.plain, cs, wa, dly]
  trigger p := by simp [feTrigger, Micro.plain, cs, wa, dly, d5v, d5d]

/-- The actions of CLASSIFY are its predicates' (R95). -/
theorem classify_actions {P : Action → Prop} (h : ∀ p : Predicate, ∀ x ∈ actionsOf p.micros, P x) :
    ∀ x ∈ classifyRoutine.actions, P x := by
  intro x hx
  simp only [classifyRoutine, actions_ask, actions_finish, List.nil_append, List.append_nil, List.mem_append] at hx
  rcases hx with hx | hx | hx | hx | hx | hx <;> exact h _ x hx

/-! ### Between any two events: the bus direction, the buffers' lengths, the verdict, the fault registers -/

/-- The parts of R32 that hold at every event and that only a sample stored or a last write could break: BUS_DIR
(R45), the buffers' lengths (R18), no verdict F4 (R98). -/
def State.sound (s : State) : Prop :=
  s.busDir = .toHost ∧ (∀ k, (s.buffer k).len.toNat ≤ 128) ∧ s.kind ≠ some .f4

/-- ERR and FAULT_CMD are those of a fault exactly when there is one (R26, R117). -/
def State.faultLegal (s : State) : Prop :=
  (s.faulted = false → s.err = 0#4 ∧ s.faultCmd = 0#32) ∧ (s.faulted = true → 1 ≤ s.err.toNat ∧ s.err.toNat ≤ 5)

/-- The action stores no sample beyond a buffer's capacity. -/
def Action.fits (x : Action) : Prop := ∀ k i n, x = .rd (.cell k i n) → n ≤ 128

/-- The last write sets no length beyond a buffer's capacity and no verdict F4. -/
def WriteBack.fits (w : WriteBack) : Prop := (∀ k n, w = .length k n → n ≤ 128) ∧ w ≠ .verdict .f4

/-- So do all actions and last writes of the course. -/
def Routine.fits (r : Routine) : Prop := (∀ x ∈ r.actions, x.fits) ∧ ∀ w ∈ r.ends, w.fits

theorem setLen_len_le {n : Nat} (h : n ≤ 128) (x : Buffer) : (x.setLen n).len.toNat ≤ 128 := by
  simp only [Buffer.setLen, BitVec.toNat_ofNat]
  omega

theorem setBuffer_sound {s : State} {k : BufId} {b : Buffer} (hb : b.len.toNat ≤ 128) (h : s.sound) :
    (s.setBuffer k b).sound := by
  obtain ⟨hd, hl, hk⟩ := h
  refine ⟨by simpa using hd, fun j => ?_, by simpa using hk⟩
  rw [buffer_setBuffer]
  split
  · exact hb
  · exact hl j

theorem takeIn_sound {s : State} {into : Intake} (hx : (Action.rd into).fits) (b : Byte) (h : s.sound) :
    (s.takeIn into b).sound := by
  cases into with
  | hold => exact h
  | cell k i n =>
    simp only [State.takeIn]
    split
    · exact setBuffer_sound (setLen_len_le (hx k i n rfl) _) h
    · exact setBuffer_sound (h.2.1 k) h

/-- What is sound is told by three registers. -/
theorem sound_congr {s t : State} (hd : t.busDir = s.busDir) (hb : ∀ k, t.buffer k = s.buffer k) (hk : t.kind = s.kind)
    (h : s.sound) : t.sound := by
  simpa [State.sound, hd, hb, hk] using h

theorem issue_sound {s : State} {m : Micro} (hm : m.act.fits) (h : s.sound) : (s.issue m).sound := by
  have hp : (s.point m).sound := sound_congr rfl (by simp) rfl h
  rw [State.issue]
  cases hx : m.act with
  | rd into => exact takeIn_sound (hx ▸ hm) _ (sound_congr rfl (by simp) rfl hp)
  | cs | wa | dly | d5v | d5d | emit => exact sound_congr rfl (by simp [State.act]) rfl hp

theorem release_sound {s : State} (k : BufId) (h : s.sound) : (s.release k).sound :=
  setBuffer_sound (setLen_len_le (Nat.zero_le _) _) h

theorem releaseAll_sound (p : Predicate) {s : State} (h : s.sound) : (p.releaseAll s).sound := by
  have two {s : State} (h : s.sound) : s.releaseTwo.sound := release_sound _ (release_sound _ h)
  have four {s : State} (h : s.sound) : s.releaseFour.sound := release_sound _ (release_sound _ (two h))
  cases p with
  | isE0 | isE7 => exact four h
  | isF4 | isF6 | isF8 | is2K | isFE => exact two h

theorem writeBack_sound {s : State} {w : WriteBack} (hw : w.fits) (h : s.sound) : (s.writeBack w).complete.sound := by
  obtain ⟨hlen, hkind⟩ := hw
  cases w with
  | nothing | sample | bool | equal => exact sound_congr rfl (fun k => by cases k <;> rfl) rfl h
  | length k n => exact sound_congr rfl (fun k => by simp) rfl (setBuffer_sound (setLen_len_le (hlen k n rfl) _) h)
  | verdict k =>
    obtain ⟨hd, hl, -⟩ := h
    have hbuf j : (s.writeBack (.verdict k)).complete.buffer j = s.buffer j := by cases j <;> rfl
    exact ⟨hd, fun j => hbuf j ▸ hl j, fun hk => hkind (by cases hk; rfl)⟩

theorem run_sound {r : Routine} (hr : r.fits) {s : State} (h : s.sound) : (r.run s).sound :=
  run_keeps (fun m _ hm => issue_sound (hr.1 m.act hm)) (fun p _ => releaseAll_sound p)
    (fun w _ hw => writeBack_sound (hr.2 w hw)) h

theorem settle_sound {r : Routine} (hr : r.fits) {s : State} (h : s.sound) : (r.settle s).sound :=
  settle_keeps (fun p _ => releaseAll_sound p) (fun w _ hw => writeBack_sound (hr.2 w hw)) h

theorem accept_sound {s : State} (w : Word) (h : s.sound) : (s.accept w).sound := sound_congr rfl (by simp) rfl h

theorem raise_sound {s : State} (e : ErrCode) (h : s.sound) : (s.raise e).sound := sound_congr rfl (by simp) rfl h

theorem idle_sound {s : State} (h : s.sound) : s.idle.sound := sound_congr rfl (by simp) rfl h

theorem resetBlock_sound (s : State) : s.resetBlock.sound :=
  ⟨rfl, fun k => by cases k <;> exact Nat.zero_le _, nofun⟩

theorem code_legal (e : ErrCode) : 1 ≤ e.code.toNat ∧ e.code.toNat ≤ 5 := by cases e <;> decide

theorem raise_faultLegal (e : ErrCode) (s : State) : (s.raise e).faultLegal :=
  ⟨nofun, fun _ => code_legal e⟩

theorem resetBlock_faultLegal (s : State) : s.resetBlock.faultLegal := ⟨fun _ => ⟨rfl, rfl⟩, nofun⟩

theorem faultLegal_congr {s t : State} (h : t.faulted = s.faulted ∧ t.err = s.err ∧ t.faultCmd = s.faultCmd)
    (hs : s.faultLegal) : t.faultLegal := by
  simpa [State.faultLegal, h] using hs

/-! ### The checked courses fit -/

/-- A range read to a buffer that passed its check fits (R79). -/
theorem rdrangeCheck_none {k : BufId} {addr : Addr} {len : Len} {s : State}
    (h : checkOf (.rdrange (.buf k) addr len) s = none) : len.toNat ≤ Config.bufCap := by
  simpa [checkOf, rdrangeCheck, overCapacity, destMissing] using h

theorem composes_fits : Composes fun xs => ∀ x ∈ xs, x.fits :=
  composes_forall nofun nofun nofun nofun nofun

theorem turnBuf_fits {n : Nat} (hn : n ≤ 128) (k : BufId) (a : Addr) (i : Nat) :
    ∀ x ∈ actionsOf (rangeTurn (.buf k) a i n), x.fits := by
  simp [rangeTurn, readByte, Micro.plain, Action.fits, hn]

theorem turnOut_fits (a : Addr) (i n : Nat) : ∀ x ∈ actionsOf (rangeTurn .out a i n), x.fits := by
  simp [rangeTurn, readByte, Micro.plain, Action.fits]

theorem predicate_fits (p : Predicate) : ∀ x ∈ actionsOf p.micros, x.fits :=
  composes_fits.predicate (turnBuf_fits (Nat.le_refl 128)) p

/-- Every course fits, a range read to a buffer where its check says so. -/
theorem course_fits {i : Instr} {r : Routine} (h : IsCourse i r)
    (hlen : ∀ k addr len, i = .rdrange (.buf k) addr len → len.toNat ≤ Config.bufCap) : r.fits := by
  cases h with
  | hotspot addr =>
    exact ⟨by simpa [hotspotRoutine] using composes_fits.hotspot addr, by simp [hotspotRoutine, WriteBack.fits]⟩
  | rdbyte addr => constructor <;> simp [rdbyteRoutine, readByte, Micro.plain, Action.fits, WriteBack.fits]
  | rdrange dst addr len =>
    cases dst with
    | buf k =>
      have hl := hlen k addr len rfl
      exact ⟨by simpa [rdrangeRoutine, readRange] using composes_fits.range (turnBuf_fits hl k) addr len.toNat,
        by simpa [rdrangeRoutine, rdrangeWriteBack, WriteBack.fits, Config.bufCap] using hl⟩
    | out =>
      exact ⟨by simpa [rdrangeRoutine, readRange] using composes_fits.range (turnOut_fits · · _) addr len.toNat,
        by simp [rdrangeRoutine, rdrangeWriteBack, WriteBack.fits]⟩
  | bufeq a b len => constructor <;> simp [bufeqRoutine, WriteBack.fits]
  | fetrig p => exact ⟨by simpa [fetrigRoutine] using composes_fits.trigger p, by simp [fetrigRoutine, WriteBack.fits]⟩
  | predicate p =>
    exact ⟨by simpa [predicateRoutine] using predicate_fits p, by simp [predicateRoutine, WriteBack.fits]⟩
  | classify => exact ⟨classify_actions predicate_fits, by simp [classifyRoutine, WriteBack.fits]⟩
  | dump k | dumpk k =>
    exact ⟨by simpa [dumpRoutine] using composes_fits.plan turnOut_fits k, by simp [dumpRoutine, WriteBack.fits]⟩

/-! ### Between two commands: the lines at rest -/

/-- Chip-select is de-asserted and data line 5 released (R30). -/
def State.atRest (s : State) : Prop := s.csN = true ∧ s.d5Oe = false

/-- Lines at rest are at rest again after these actions. -/
def restsAfter (xs : List Action) : Prop :=
  csAfter true (xs.map Action.shape) = true ∧ oeAfter false (xs.map Action.shape) = false

theorem composes_restsAfter : Composes restsAfter where
  nil := ⟨rfl, rfl⟩
  append hx hy := by
    obtain ⟨hxc, hxo⟩ := hx
    obtain ⟨hyc, hyo⟩ := hy
    constructor
    · rw [List.map_append, csAfter_append, hxc, hyc]
    · rw [List.map_append, oeAfter_append, hxo, hyo]
  hotspot _ := ⟨rfl, rfl⟩
  trigger _ := ⟨rfl, rfl⟩

theorem turn_restsAfter (dst : Dest) (a : Addr) (i n : Nat) : restsAfter (actionsOf (rangeTurn dst a i n)) := by
  cases dst <;> exact ⟨rfl, rfl⟩

/-- The lines do not depend on the bytes events carry. -/
theorem csAfter_shape (l : Level) (es : List Event) : csAfter l (es.map eventShape) = csAfter l es := by
  induction es generalizing l with
  | nil => rfl
  | cons e es ih => cases e <;> exact ih _

theorem oeAfter_shape (l : Level) (es : List Event) : oeAfter l (es.map eventShape) = oeAfter l es := by
  induction es generalizing l with
  | nil => rfl
  | cons e es ih => cases e <;> exact ih _

theorem issueAll_atRest {ms : List Micro} (h : restsAfter (actionsOf ms)) {s : State} (hs : s.atRest) :
    (State.issueAll ms s).atRest := by
  obtain ⟨es, -, ⟨-, hc, ho, -⟩, hshape⟩ := issueAll_spec ms s
  have hm : (actionsOf ms).map Action.shape = es.map eventShape := by simp [hshape, actionsOf]
  rw [restsAfter, hm, csAfter_shape, oeAfter_shape] at h
  obtain ⟨hcs, hoe⟩ := hs
  exact ⟨by rw [hc, hcs, h.1], by rw [ho, hoe, h.2]⟩

/-- The course leaves lines at rest at rest. -/
def Routine.keepsRest (r : Routine) : Prop := ∀ s : State, s.atRest → (r.run s).atRest

theorem finish_keepsRest (w : WriteBack) : (Routine.finish w).keepsRest := fun s h => by
  simpa [State.atRest] using h

theorem events_keepsRest {ms : List Micro} {k : Routine} (h : restsAfter (actionsOf ms)) (hk : k.keepsRest) :
    (Routine.events ms k).keepsRest := fun s hs => by
  rw [run_events]
  exact hk _ (issueAll_atRest h hs)

theorem ask_keepsRest (p : Predicate) {yes no : Routine} (hy : yes.keepsRest) (hn : no.keepsRest) :
    (p.ask yes no).keepsRest := by
  refine events_keepsRest (composes_restsAfter.predicate (fun k a i => turn_restsAfter _ a i _) p) fun s hs => ?_
  have hp : (p.releaseAll s).atRest := by simpa [State.atRest] using hs
  rw [run_test]
  split
  · exact hy _ hp
  · exact hn _ hp

theorem course_keepsRest {i : Instr} {r : Routine} (h : IsCourse i r) : r.keepsRest := by
  have fin := finish_keepsRest
  have rests := composes_restsAfter
  cases h with
  | hotspot addr => exact events_keepsRest (rests.hotspot addr) (fin _)
  | rdbyte addr => exact events_keepsRest ⟨rfl, rfl⟩ (fin _)
  | rdrange dst addr len => exact events_keepsRest (rests.range (turn_restsAfter dst · · _) addr _) (fin _)
  | bufeq => exact fin _
  | fetrig p => exact events_keepsRest (rests.trigger p) (fin _)
  | predicate p => exact ask_keepsRest p (fin _) (fin _)
  | classify =>
    exact ask_keepsRest .isE0 (fin _) <| ask_keepsRest .isE7 (fin _) <| ask_keepsRest .isF6 (fin _) <|
      ask_keepsRest .isF8 (fin _) <| ask_keepsRest .isFE (fin _) <| ask_keepsRest .is2K (fin _) (fin _)
  | dump k | dumpk k => exact events_keepsRest (rests.plan (turn_restsAfter .out) k) (fin _)

/-! ### The invariants -/

/-- OUT_CURSOR counts the bytes emitted since reset (R24, R134; log 19). -/
def State.counted (s : State) : Prop := s.outCursor = BitVec.ofNat 32 (emittedOf s.trace).length

theorem inv_iff (s : State) : s.inv ↔ s.busy = false ∧ s.atRest ∧ s.sound ∧ s.faultLegal ∧ s.counted := by
  constructor
  · rintro ⟨hb, hc, ho, hd, hl, hn, hf, hk, ht⟩
    exact ⟨hb, ⟨hc, ho⟩, ⟨hd, hl, hk⟩, ⟨hn, hf⟩, ht⟩
  · rintro ⟨hb, ⟨hc, ho⟩, ⟨hd, hl, hk⟩, ⟨hn, hf⟩, ht⟩
    exact ⟨hb, hc, ho, hd, hl, hn, hf, hk, ht⟩

theorem issued_counted {s t : State} {es : List Event} (h : s.issued t es) (hs : s.counted) : t.counted := by
  obtain ⟨htrace, -, -, -, -, -, -, hcursor⟩ := h
  rw [State.counted, htrace, hcursor, hs, emittedOf_append, List.length_append, BitVec.ofNat_add]

/-- Settles O43: a step of an idle block resets it, does nothing, takes a fault, or runs a checked course, which keeps
its buffers within bounds, puts the lines back to rest and counts what it emits. -/
theorem stepKeepsInv : Obligations.StepKeepsInv := by
  intro s t hs ht
  obtain ⟨hb, hrest, hsound, hlegal, hcount⟩ := (inv_iff s).mp hs
  rw [inv_iff]
  rcases step_cases hb ht with ⟨-, rfl⟩ | ⟨-, rfl⟩ | ⟨-, w, ⟨e, rfl⟩ | ⟨i, r, hc, hr, rfl⟩⟩
  · exact ⟨rfl, ⟨rfl, rfl⟩, resetBlock_sound s, resetBlock_faultLegal s, rfl⟩
  · exact ⟨hb, hrest, idle_sound hsound, hlegal, hcount⟩
  · exact ⟨rfl, hrest, raise_sound e (accept_sound w hsound), raise_faultLegal e _, hcount⟩
  · have course := isCourse_of_routineOf hr
    have fits : r.fits := course_fits course fun k addr len hi => rdrangeCheck_none (hi ▸ hc)
    obtain ⟨es, hes, -⟩ := run_issued r (s.accept w)
    exact ⟨(run_ends r _).1, course_keepsRest course _ hrest, run_sound fits (accept_sound w hsound),
      faultLegal_congr (run_faultRegisters r _) hlegal, issued_counted hes hcount⟩

/-! ### A place in a course (R21) -/

/-- What follows the place in a course is what is placed after it. -/
theorem place_after {r k : Routine} {m : Micro} {n : Nat} (h : r.place n = some (m, k)) (j : Nat) :
    r.place (n + 1 + j) = k.place j := by
  induction r generalizing n with
  | finish w => cases h
  | event m' k' ih =>
    cases n with
    | zero =>
      cases h
      rw [Nat.zero_add, Nat.add_comm, Routine.place]
    | succ n =>
      rw [show n + 1 + 1 + j = n + 1 + j + 1 by omega]
      exact ih h
  | test p yes no _ ihn => exact ihn h

theorem place_lt_longest {r k : Routine} {m : Micro} {n : Nat} (h : r.place n = some (m, k)) : n < r.longest := by
  induction r generalizing n with
  | finish w => cases h
  | event m' k' ih =>
    cases n with
    | zero => exact Nat.succ_pos _
    | succ n => exact Nat.succ_lt_succ (ih h)
  | test p yes no _ ihn => exact (ihn h).trans_le (Nat.le_max_right _ _)

/-- The event at a place and the course after it are parts of the course. -/
theorem place_part {r k : Routine} {m : Micro} {n : Nat} (h : r.place n = some (m, k)) :
    m.act ∈ r.actions ∧ (∀ x ∈ k.actions, x ∈ r.actions) ∧ ∀ w ∈ k.ends, w ∈ r.ends := by
  induction r generalizing n with
  | finish w => cases h
  | event m' k' ih =>
    cases n with
    | zero =>
      cases h
      exact ⟨List.mem_cons_self, fun _ => List.mem_cons_of_mem _, fun _ hw => hw⟩
    | succ n =>
      obtain ⟨hm, ha, he⟩ := ih h
      exact ⟨List.mem_cons_of_mem _ hm, fun x hx => List.mem_cons_of_mem _ (ha x hx), he⟩
  | test p yes no _ ihn =>
    obtain ⟨hm, ha, he⟩ := ihn h
    exact ⟨List.mem_append_right _ hm, fun x hx => List.mem_append_right _ (ha x hx),
      fun w hw => List.mem_append_right _ (he w hw)⟩

/-- The event the command in progress issues next is in the course of CUR_CMD (R21). -/
theorem nextEvent_cases {s : State} {m : Micro} {k : Routine} (h : s.nextEvent = some (m, k)) :
    ∃ i r, decode s.curCmd = .command i ∧ routineOf i s.kind = some r ∧ r.place s.seqPos.toNat = some (m, k) := by
  rw [State.nextEvent] at h
  split at h
  · cases h
  next i hi =>
  split at h
  · cases h
  next r hr => exact ⟨i, r, hi, hr, h⟩

/-! ### Ticks -/

/-- ALL THAT A TICK OF A COMMAND IN PROGRESS CAN DO: one event, and what follows it without an event (R23). -/
theorem tick_busy {s t : State} (hr : s.rst = false) (hb : s.busy = true) (h : tick s = .next t) :
    ∃ m k, s.nextEvent = some (m, k) ∧ t = k.settle (s.issue m) := by
  simp only [tick, hr, hb, Bool.false_eq_true, if_false, if_true] at h
  split at h
  · cases h
  next m k hm =>
  cases h
  exact ⟨m, k, hm, rfl⟩

/-- ALL THAT ACCEPTING A WORD CAN DO BEFORE ITS FIRST EVENT (R72, R119, R125). -/
theorem beginCommand_cases (w : Word) (s : State) :
    (∃ e, s.beginCommand w = (s.accept w).raise e) ∨
      ∃ i r, decode w = .command i ∧ checkOf i (s.accept w) = none ∧ routineOf i s.kind = some r ∧
        s.beginCommand w = r.settle (s.accept w) := by
  rw [State.beginCommand]
  split
  · exact .inl ⟨_, rfl⟩
  next i hi =>
  split
  · exact .inl ⟨_, rfl⟩
  · next r hc hr => exact .inr ⟨i, r, hi, hc, hr, rfl⟩
  · exact .inl ⟨_, rfl⟩

/-- ALL THAT A TICK CAN DO (R23, R72, R127, R134). -/
theorem tick_cases {s t : State} (h : tick s = .next t) :
    t = s.resetBlock ∨ t = s.idle ∨
      (s.busy = true ∧ ∃ m k, s.nextEvent = some (m, k) ∧ t = k.settle (s.issue m)) ∨
      s.faulted = false ∧ ∃ w, t = s.beginCommand w := by
  by_cases hr : s.rst = true
  · simp only [tick, hr, if_true] at h
    cases h
    exact .inl rfl
  have hr : s.rst = false := by simpa using hr
  by_cases hb : s.busy = true
  · exact .inr (.inr (.inl ⟨hb, tick_busy hr hb h⟩))
  simp only [tick, hr, hb, Bool.false_eq_true, if_false] at h
  split at h
  · cases h
    exact .inr (.inl rfl)
  next hf =>
  split at h
  · cases h
    exact .inr (.inl rfl)
  next w ws _ =>
  cases h
  exact .inr (.inr (.inr ⟨by simpa using hf, w, rfl⟩))

/-- Settles O13: what follows an event up to the next one adds nothing to the record. -/
theorem tickIsOneEvent : Obligations.TickIsOneEvent := by
  intro s t hr hb ht
  obtain ⟨m, k, -, rfl⟩ := tick_busy hr hb ht
  obtain ⟨htrace, hseq⟩ := issue_record m s
  exact ⟨m.act.event (s.point m), by simp [State.trace, htrace], (settle_seqPos k _).trans hseq⟩

/-! ### The invariant of ticks -/

/-- A range read to a buffer that is in progress passed its check (R79, R126). -/
def State.readFits (s : State) : Prop :=
  s.busy = true → ∀ k addr len, decode s.curCmd = .command (.rdrange (.buf k) addr len) → len.toNat ≤ Config.bufCap

theorem tickInv_iff (s : State) :
    s.tickInv ↔ s.sound ∧ s.faultLegal ∧ (s.faulted = true → s.busy = false) ∧ s.readFits := by
  constructor
  · rintro ⟨hd, hl, hf, hn, hk, hr⟩
    exact ⟨⟨hd, hl, hk⟩, ⟨hn, fun h => (hf h).2⟩, fun h => (hf h).1, hr⟩
  · rintro ⟨⟨hd, hl, hk⟩, ⟨hn, hf⟩, hb, hr⟩
    exact ⟨hd, hl, fun h => ⟨hb h, hf h⟩, hn, hk, hr⟩

/-- Where a checked course goes on from a state that meets the invariant, it meets it up to the next event. -/
theorem settle_tickInv {r : Routine} (hr : r.fits) {s : State} (hsound : s.sound) (hlegal : s.faultLegal)
    (hf : s.faulted = false) (hread : s.readFits) : (r.settle s).tickInv := by
  have hfault := settle_faultRegisters r s
  rw [tickInv_iff]
  refine ⟨settle_sound hr hsound, faultLegal_congr hfault hlegal, fun h => ?_, fun h => ?_⟩
  · rw [hfault.1, hf] at h
    cases h
  · rw [settle_curCmd]
    exact hread (settle_busy h)

theorem beginCommand_tickInv {s : State} (hf : s.faulted = false) (hsound : s.sound) (hlegal : s.faultLegal)
    (w : Word) : (s.beginCommand w).tickInv := by
  rcases beginCommand_cases w s with ⟨e, h⟩ | ⟨i, r, hi, hc, hr, h⟩ <;> rw [h]
  · rw [tickInv_iff]
    exact ⟨raise_sound e (accept_sound w hsound), raise_faultLegal e _, fun _ => rfl, nofun⟩
  · have hlen : ∀ k addr len, i = .rdrange (.buf k) addr len → len.toNat ≤ Config.bufCap :=
      fun k addr len hk => rdrangeCheck_none (hk ▸ hc)
    refine settle_tickInv (course_fits (isCourse_of_routineOf hr) hlen) (accept_sound w hsound) hlegal hf
      fun _ k addr len hd => hlen k addr len ?_
    cases hi.symm.trans hd
    rfl

/-- Settles O44: a tick resets the block, does nothing, accepts a word, or issues one event of a course that fits: its
command is no range read, or one that has passed its check. -/
theorem tickKeepsInv : Obligations.TickKeepsInv := by
  intro s t hs ht
  obtain ⟨hsound, hlegal, hidle, hread⟩ := (tickInv_iff s).mp hs
  rcases tick_cases ht with rfl | rfl | ⟨hb, m, k, hm, rfl⟩ | ⟨hf, w, rfl⟩
  · rw [tickInv_iff]
    exact ⟨resetBlock_sound s, resetBlock_faultLegal s, fun _ => rfl, nofun⟩
  · rw [tickInv_iff]
    exact ⟨idle_sound hsound, hlegal, hidle, hread⟩
  · have hf : s.faulted = false := Bool.eq_false_iff.mpr fun h => by simp [hidle h] at hb
    obtain ⟨i, r, hi, hr, hplace⟩ := nextEvent_cases hm
    have fits : r.fits := course_fits (isCourse_of_routineOf hr) fun k addr len hk => hread hb k addr len (hk ▸ hi)
    obtain ⟨hact, hactions, hends⟩ := place_part hplace
    refine settle_tickInv ⟨fun x hx => fits.1 x (hactions x hx), fun w hw => fits.2 w (hends w hw)⟩
      (issue_sound (fits.1 _ hact) hsound) (faultLegal_congr (by simp) hlegal) (by simpa using hf) ?_
    simpa [State.readFits] using hread
  · exact beginCommand_tickInv hf hsound hlegal w

/-! ### A step is some number of ticks (R23) -/

/-- A comparison that answers true ends the course (R95, R96); so `Routine.place`, which goes on by the other answer,
finds every event. -/
inductive Routine.EndsWhenTrue : Routine → Prop
  | finish (w : WriteBack) : EndsWhenTrue (.finish w)
  | event (m : Micro) {k : Routine} : k.EndsWhenTrue → EndsWhenTrue (.event m k)
  | test (p : Predicate) (w : WriteBack) {no : Routine} : no.EndsWhenTrue → EndsWhenTrue (.test p (.finish w) no)

theorem events_endsWhenTrue (ms : List Micro) {k : Routine} (h : k.EndsWhenTrue) :
    (Routine.events ms k).EndsWhenTrue := by
  induction ms with
  | nil => exact h
  | cons m ms ih => exact .event m ih

theorem ask_endsWhenTrue (p : Predicate) (w : WriteBack) {no : Routine} (h : no.EndsWhenTrue) :
    (p.ask (.finish w) no).EndsWhenTrue :=
  events_endsWhenTrue p.micros (.test p w h)

theorem course_endsWhenTrue {i : Instr} {r : Routine} (h : IsCourse i r) : r.EndsWhenTrue := by
  cases h with
  | hotspot | rdbyte | rdrange | fetrig | dump | dumpk => exact events_endsWhenTrue _ (.finish _)
  | bufeq => exact .finish _
  | predicate p => exact ask_endsWhenTrue p _ (.finish _)
  | classify =>
    exact ask_endsWhenTrue .isE0 _ <| ask_endsWhenTrue .isE7 _ <| ask_endsWhenTrue .isF6 _ <|
      ask_endsWhenTrue .isF8 _ <| ask_endsWhenTrue .isFE _ <| ask_endsWhenTrue .is2K _ (.finish _)

theorem place_endsWhenTrue {r k : Routine} {m : Micro} {n : Nat} (hr : r.EndsWhenTrue)
    (h : r.place n = some (m, k)) : k.EndsWhenTrue := by
  induction hr generalizing n with
  | finish w => cases h
  | event m' hk ih =>
    cases n with
    | zero =>
      cases h
      exact hk
    | succ n => exact ih h
  | test p w _ ihn => exact ihn h

/-- The command in progress has come to the course `r`: what CUR_CMD, KIND and SEQ_POS say is left is `r` (R21). -/
def State.standsAt (s : State) (r : Routine) : Prop :=
  s.rst = false ∧ s.busy = true ∧ r.EndsWhenTrue ∧
    ∃ i r₀, decode s.curCmd = .command i ∧ routineOf i s.kind = some r₀ ∧
      ∀ j, r₀.place (s.seqPos.toNat + j) = r.place j

theorem standsAt_nextEvent {s : State} {m : Micro} {k : Routine} (h : s.standsAt (.event m k)) :
    s.nextEvent = some (m, k) := by
  obtain ⟨-, -, -, i, r₀, hi, hr, hplace⟩ := h
  simp only [State.nextEvent, hi, hr]
  exact hplace 0

/-- SEQ_POS does not wrap inside a course, so one event takes the block one place on. -/
theorem issue_standsAt {s : State} {m : Micro} {k : Routine} (hrst : s.rst = false) (hb : s.busy = true)
    (h : s.nextEvent = some (m, k)) : (s.issue m).standsAt k := by
  obtain ⟨i, r₀, hi, hr, hplace⟩ := nextEvent_cases h
  have course := isCourse_of_routineOf hr
  have hlt : s.seqPos.toNat < 131112 := (place_lt_longest hplace).trans_le (longest_course course)
  have hseq : (s.issue m).seqPos.toNat = s.seqPos.toNat + 1 := by
    rw [(issue_record m s).2, BitVec.toNat_add, BitVec.toNat_ofNat]
    omega
  refine ⟨by simpa using hrst, by simpa using hb, place_endsWhenTrue (course_endsWhenTrue course) hplace, i, r₀,
    by simpa using hi, by simpa using hr, fun j => ?_⟩
  rw [hseq]
  exact place_after hplace j

theorem accept_standsAt {s : State} {w : Word} {i : Instr} {r : Routine} (hrst : s.rst = false)
    (hi : decode w = .command i) (hr : routineOf i s.kind = some r) : (s.accept w).standsAt r :=
  ⟨hrst, rfl, course_endsWhenTrue (isCourse_of_routineOf hr), i, r, hi, hr, fun j => by simp⟩

theorem releaseAll_standsAt {s : State} {p : Predicate} {yes no : Routine} (h : s.standsAt (.test p yes no)) :
    (p.releaseAll s).standsAt no := by
  obtain ⟨hrst, hb, htrue, i, r₀, hi, hr, hplace⟩ := h
  cases htrue with
  | test _ w hno =>
  exact ⟨by simpa using hrst, by simpa using hb, hno, i, r₀, by simpa using hi, by simpa using hr,
    by rw [releaseAll_seqPos]; exact hplace⟩

theorem ticks_succ {s t : State} (h : tick s = .next t) (n : Nat) : ticks (n + 1) s = ticks n t := by
  simp [ticks, h]

theorem ticks_one {s t : State} (h : tick s = .next t) : ticks 1 s = .next t := ticks_succ h 0

/-- Ticks take a course from where it has settled to the end of its run. -/
theorem ticks_settle {r : Routine} {s : State} (h : s.standsAt r) : ∃ n, ticks n (r.settle s) = .next (r.run s) := by
  induction r generalizing s with
  | finish w => exact ⟨0, rfl⟩
  | event m k ih =>
    have hnext := standsAt_nextEvent h
    obtain ⟨hrst, hb, -, -⟩ := h
    obtain ⟨n, hn⟩ := ih (issue_standsAt hrst hb hnext)
    have htick : tick s = .next (k.settle (s.issue m)) := by simp [tick, hrst, hb, hnext]
    exact ⟨n + 1, (ticks_succ htick n).trans hn⟩
  | test p yes no _ ihn =>
    have hno := releaseAll_standsAt h
    obtain ⟨-, -, htrue, -⟩ := h
    cases htrue with
    | test _ w _ =>
    rw [Routine.settle, run_test]
    split
    · exact ⟨0, rfl⟩
    · exact ihn hno

/-- A command in progress comes to its end by ticks. -/
theorem ticks_resume {s t : State} (hrst : s.rst = false) (hb : s.busy = true) (h : s.resume = .next t) :
    ∃ n, ticks n s = .next t := by
  rw [State.resume] at h
  split at h
  · cases h
  next m k hm =>
  cases h
  obtain ⟨n, hn⟩ := ticks_settle (issue_standsAt hrst hb hm)
  have htick : tick s = .next (k.settle (s.issue m)) := by simp [tick, hrst, hb, hm]
  exact ⟨n + 1, (ticks_succ htick n).trans hn⟩

/-- A new command comes to its end by ticks. -/
theorem ticks_takeCommand {s t : State} {w : Word} (hrst : s.rst = false) (htick : tick s = .next (s.beginCommand w))
    (h : s.takeCommand w = .next t) : ∃ n, ticks n s = .next t := by
  rw [State.takeCommand] at h
  rw [State.beginCommand] at htick
  rcases hi : decode w with i | e <;> simp only [hi] at h htick
  case illegal => exact ⟨1, ticks_one (htick.trans h)⟩
  rw [exec_eq] at h
  cases h
  rcases hc : checkOf i (s.accept w) with _ | e
  · rcases hr : routineOf i s.kind with _ | r
    · exact ⟨1, ticks_one (by simpa [hc, hr] using htick)⟩
    · obtain ⟨n, hn⟩ := ticks_settle (accept_standsAt hrst hi hr)
      exact ⟨n + 1, by rw [ticks_succ (by simpa [hc, hr] using htick), hn]; simp [hr]⟩
  · exact ⟨1, ticks_one (by simpa [hc] using htick)⟩

/-- Settles O15, by induction on what is left of the course (`ticks_settle`): at every event the block stands at the
place of `Routine.place`, since only a comparison that answers false is passed. -/
theorem ticksRefineStep : Obligations.TicksRefineStep := by
  intro s t h
  rw [step, State.advance] at h
  split at h
  · next hr => exact ⟨1, ticks_one (by simpa [tick, hr] using h)⟩
  next hr =>
  have hr : s.rst = false := by simpa using hr
  split at h
  · next hb => exact ticks_resume hr hb h
  next hb =>
  split at h
  · next hf => exact ⟨1, ticks_one (by simpa [tick, hr, hb, hf] using h)⟩
  next hf =>
  split at h
  · next hw => exact ⟨1, ticks_one (by simpa [tick, hr, hb, hf, hw] using h)⟩
  · next w ws hw => exact ticks_takeCommand hr (by simp [tick, hr, hb, hf, hw]) h

/-! ### What only some commands write (R32 (g), R16, R17) -/

/-- A course without EMIT leaves the output. -/
theorem run_output {r : Routine} (h : ∀ x ∈ r.actions, x ≠ .emit) (s : State) :
    (r.run s).outRev = s.outRev ∧ (r.run s).outCursor = s.outCursor := by
  have quiet (m : Micro) (u : State) (hm : m.act ∈ r.actions) :
      (u.issue m).outRev = u.outRev ∧ (u.issue m).outCursor = u.outCursor := by
    have hne := h m.act hm
    rw [State.issue]
    cases hx : m.act with
    | emit => exact absurd hx hne
    | cs | wa | dly | rd | d5v | d5d => simp [State.act]
  exact ⟨run_field State.outRev (fun m u hm => (quiet m u hm).1) (by simp) (by simp) s,
    run_field State.outCursor (fun m u hm => (quiet m u hm).2) (by simp) (by simp) s⟩

theorem composes_noEmit : Composes fun xs => ∀ x ∈ xs, x ≠ .emit :=
  composes_forall nofun nofun nofun nofun nofun

theorem turnBuf_noEmit (k : BufId) (a : Addr) (i n : Nat) :
    ∀ x ∈ actionsOf (rangeTurn (.buf k) a i n), x ≠ .emit := by
  simp [rangeTurn, readByte, Micro.plain]

theorem predicate_noEmit (p : Predicate) : ∀ x ∈ actionsOf p.micros, x ≠ .emit :=
  composes_noEmit.predicate (turnBuf_noEmit · · · _) p

/-- Only the courses of DUMP, DUMPK and RDRANGE to OUT have an EMIT. -/
theorem course_noEmit {i : Instr} {r : Routine} (h : IsCourse i r) (hdump : i ≠ .dump)
    (hdumpk : ∀ k, i ≠ Instr.dumpk k) (hout : ∀ addr len, i ≠ .rdrange .out addr len) : ∀ x ∈ r.actions, x ≠ .emit := by
  cases h with
  | hotspot addr => simpa [hotspotRoutine] using composes_noEmit.hotspot addr
  | rdbyte addr => simp [rdbyteRoutine, readByte, Micro.plain]
  | rdrange dst addr len =>
    cases dst with
    | buf k => simpa [rdrangeRoutine, readRange] using composes_noEmit.range (turnBuf_noEmit k · · _) addr len.toNat
    | out => exact absurd rfl (hout addr len)
  | bufeq => simp [bufeqRoutine]
  | fetrig p => simpa [fetrigRoutine] using composes_noEmit.trigger p
  | predicate p => simpa [predicateRoutine] using predicate_noEmit p
  | classify => exact classify_actions predicate_noEmit
  | dump k => exact absurd rfl hdump
  | dumpk k => exact absurd rfl (hdumpk k)

/-- Settles O48: of the nine families of courses only these have an EMIT, and no last write touches the output. -/
theorem onlyDumpsEmit : Obligations.OnlyDumpsEmit := by
  intro i s t ht hdump hdumpk hout
  rcases exec_cases ht with ⟨e, rfl⟩ | ⟨r, -, hr, rfl⟩
  · exact ⟨rfl, rfl⟩
  · obtain ⟨hrev, hcursor⟩ := run_output (course_noEmit (isCourse_of_routineOf hr) hdump hdumpk hout) s
    exact ⟨out_congr hrev, hcursor⟩

/-- A course that ends with no verdict leaves KIND. -/
theorem run_kind {r : Routine} (h : ∀ w ∈ r.ends, ∀ k, w ≠ .verdict k) (s : State) : (r.run s).kind = s.kind := by
  refine run_field State.kind (by simp) (by simp) (fun w u hw => ?_) s
  cases w with
  | verdict k => exact absurd rfl (h _ hw k)
  | nothing | sample | bool | equal | length => simp [State.writeBack]

/-- Only CLASSIFY ends with a verdict. -/
theorem course_noVerdict {i : Instr} {r : Routine} (h : IsCourse i r) (hi : i ≠ .classify) :
    ∀ w ∈ r.ends, ∀ k, w ≠ .verdict k := by
  cases h with
  | classify => exact absurd rfl hi
  | rdrange dst addr len => cases dst <;> simp [rdrangeRoutine, rdrangeWriteBack]
  | hotspot | rdbyte | bufeq | fetrig | predicate | dump | dumpk =>
    simp [hotspotRoutine, rdbyteRoutine, bufeqRoutine, fetrigRoutine, predicateRoutine, dumpRoutine]

/-- Settles O49: a fault leaves KIND, and of the courses only CLASSIFY's ends with a verdict. -/
theorem onlyClassifyWritesKind : Obligations.OnlyClassifyWritesKind := by
  intro i s t ht hi
  rcases exec_cases ht with ⟨e, rfl⟩ | ⟨r, -, hr, rfl⟩
  · rfl
  · exact run_kind (course_noVerdict (isCourse_of_routineOf hr) hi) s

/-- The last write writes no RES. -/
def WriteBack.leavesRes : WriteBack → Prop
  | .nothing | .length _ _ => True
  | .sample | .bool _ | .equal _ _ _ | .verdict _ => False

theorem run_res {r : Routine} (h : ∀ w ∈ r.ends, w.leavesRes) (s : State) : (r.run s).res = s.res := by
  refine run_field State.res (by simp) (by simp) (fun w u hw => ?_) s
  cases w with
  | nothing | length => simp [State.writeBack]
  | sample | bool | equal | verdict => exact (h _ hw).elim

/-- A command that returns nothing (R17). -/
def returnsNothing (i : Instr) : Prop :=
  (∃ a, i = .hotspot a) ∨ (∃ p, i = .fetrig p) ∨ (∃ d a n, i = .rdrange d a n) ∨ i = .dump ∨ ∃ k, i = Instr.dumpk k

/-- The course of a command that returns nothing ends with nothing, or with a buffer's length (R17, R78). -/
theorem routineOf_leavesRes {i : Instr} {kind : Option MapperKind} {r : Routine} (hi : returnsNothing i)
    (hr : routineOf i kind = some r) : ∀ w ∈ r.ends, w.leavesRes := by
  rcases hi with ⟨a, rfl⟩ | ⟨p, rfl⟩ | ⟨d, a, n, rfl⟩ | rfl | ⟨k, rfl⟩
  · cases hr
    simp [hotspotRoutine, WriteBack.leavesRes]
  · cases hr
    simp [fetrigRoutine, WriteBack.leavesRes]
  · cases hr
    cases d <;> simp [rdrangeRoutine, rdrangeWriteBack, WriteBack.leavesRes]
  · obtain ⟨k, -, rfl⟩ := Option.map_eq_some_iff.mp hr
    simp [dumpRoutine, WriteBack.leavesRes]
  · cases (routineOf_dumpk k kind).symm.trans hr
    simp [dumpRoutine, WriteBack.leavesRes]

/-- Settles O50: a fault leaves RES, and these courses end with no write of it. -/
theorem resIsLeftAlone : Obligations.ResIsLeftAlone := by
  intro i s t ht hi
  rcases exec_cases ht with ⟨e, rfl⟩ | ⟨r, -, hr, rfl⟩
  · rfl
  · exact run_res (routineOf_leavesRes hi hr) s

/-! ### Without reset nothing is forgotten, and every command completes -/

/-- A checked course keeps a verdict: CLASSIFY's check allows none (R95), and no other course writes it. -/
theorem run_keepsVerdict {i : Instr} {r : Routine} {s : State} {k : MapperKind} (hc : checkOf i s = none)
    (hr : routineOf i s.kind = some r) (hk : s.kind = some k) : (r.run s).kind = some k := by
  have hi : i ≠ .classify := by
    rintro rfl
    simp [checkOf, classifyCheck, State.kindValid, hk] at hc
  rw [run_kind (course_noVerdict (isCourse_of_routineOf hr) hi), hk]

/-- The output grew by some bytes, and OUT_CURSOR by their number (R24, R47). -/
def State.outputGrew (s t : State) : Prop :=
  ∃ bs, t.out = s.out ++ bs ∧ t.outCursor = s.outCursor + BitVec.ofNat 32 bs.length

theorem outputGrew_of_eq {s t : State} (ho : t.outRev = s.outRev) (hc : t.outCursor = s.outCursor) : s.outputGrew t :=
  ⟨[], by simp [out_congr ho], by simp [hc]⟩

theorem issued_outputGrew {s t : State} {es : List Event} (h : s.issued t es) : s.outputGrew t := by
  obtain ⟨-, -, -, -, -, -, hout, hcursor⟩ := h
  exact ⟨emittedOf es, by simp [State.out, hout], hcursor⟩

/-- Settles O47: a faulted block does nothing; else a fault keeps the verdict and the output, and a course run keeps a
verdict it finds and emits what it issued. -/
theorem nothingIsForgotten : Obligations.NothingIsForgotten := by
  intro s t hs hrst ht
  have hb : s.busy = false := ((inv_iff s).mp hs).1
  rcases step_cases hb ht with ⟨hr, -⟩ | ⟨-, rfl⟩ | ⟨⟨-, -, hf⟩, w, ⟨e, rfl⟩ | ⟨i, r, hc, hr, rfl⟩⟩
  · simp [hrst] at hr
  · exact ⟨fun _ => id, outputGrew_of_eq rfl rfl, fun hf => ⟨hf, rfl, rfl, rfl⟩⟩
  · exact ⟨fun _ => id, outputGrew_of_eq rfl rfl, fun h => by simp [hf] at h⟩
  · obtain ⟨es, hes, -⟩ := run_issued r (s.accept w)
    have grew : (s.accept w).outputGrew (r.run (s.accept w)) := issued_outputGrew hes
    exact ⟨fun k hk => run_keepsVerdict hc hr hk, grew, fun h => by simp [hf] at h⟩

/-- Settles O55: a fault issues nothing, and a course issues at most its longest way; the count starts at 0 with the
acceptance, and 131112 is far below where it wraps. -/
theorem everyCommandCompletes : Obligations.EveryCommandCompletes := by
  rintro s w ws ⟨hrst, hb, hf⟩ hw
  obtain ⟨t, ht⟩ := step_answers hb
  have htail : s.cmds.tail = ws := by rw [hw]; rfl
  rcases step_cases hb ht with ⟨hr, -⟩ | ⟨hidle, -⟩ | ⟨-, w', ⟨e, rfl⟩ | ⟨i, r, -, hr, rfl⟩⟩
  · simp [hrst] at hr
  · simp [hf, hw] at hidle
  · exact ⟨_, [], ht, rfl, rfl, htail, (List.append_nil _).symm, rfl, Nat.zero_le _⟩
  · obtain ⟨es, hes, hle⟩ := run_issued r (s.accept w')
    have hlen : es.length ≤ 131112 := hle.trans (longest_course (isCourse_of_routineOf hr))
    obtain ⟨hbusy, hdone⟩ := run_ends r (s.accept w')
    obtain ⟨htrace, hseq, -⟩ := hes
    refine ⟨_, es, ht, hbusy, hdone, by simpa using htail, htrace, ?_, hlen⟩
    rw [hseq, accept_seqPos, BitVec.zero_add, BitVec.toNat_ofNat]
    omega

/-! ### Where the named cursors stand (R22; log 7) -/

/-- The last event of a run is the last to set a cursor. -/
theorem issueAll_getLast {ms : List Micro} (h : ms ≠ []) (s : State) :
    ∃ u : State, State.issueAll ms s = u.issue (ms.getLast h) := by
  refine ⟨State.issueAll ms.dropLast s, ?_⟩
  conv_lhs => rw [← List.dropLast_append_getLast h]
  rw [issueAll_append, issueAll_cons, issueAll_nil]

/-- HS_CUR after events of one bank. -/
theorem issueAll_hsCur_of_forall {ms : List Micro} {h : Addr} (hne : ms ≠ []) (hm : ∀ m ∈ ms, m.hotspot = some h)
    (s : State) : (State.issueAll ms s).hsCur = h := by
  obtain ⟨u, hu⟩ := issueAll_getLast hne s
  rw [hu, issue_hsCur, hm _ (List.getLast_mem hne), Option.getD_some]

/-- STAGE after events of one call. -/
theorem issueAll_stage_of_forall {ms : List Micro} {n : BitVec 4} (hne : ms ≠ []) (hm : ∀ m ∈ ms, m.stage = some n)
    (s : State) : (State.issueAll ms s).stage = n := by
  obtain ⟨u, hu⟩ := issueAll_getLast hne s
  rw [hu, issue_stage, hm _ (List.getLast_mem hne), Option.getD_some]

/-- The range cursors stand at the byte at `a`, with `left` bytes still to read. -/
def State.rangeAt (s : State) (a : Addr) (left : Nat) : Prop := s.aCur = a ∧ s.nLeft = BitVec.ofNat 13 left

/-- How many events a turn of a range read has (R78). -/
def turnLength : Dest → Nat
  | .buf _ => 3
  | .out => 4

theorem rangeTurn_length (dst : Dest) (a : Addr) (i n : Nat) : (rangeTurn dst a i n).length = turnLength dst := by
  cases dst <;> rfl

/-- A whole turn moves the range cursors past its byte. -/
theorem turn_rangeAt (dst : Dest) (a : Addr) (i n left : Nat) (s : State) :
    (State.issueAll ((rangeTurn dst a i n).map (Micro.inTurn a (left + 1))) s).rangeAt (a + 1#12) left := by
  have hne : (rangeTurn dst a i n).map (Micro.inTurn a (left + 1)) ≠ [] := by cases dst <;> nofun
  obtain ⟨u, hu⟩ := issueAll_getLast hne s
  rw [hu]
  cases dst <;> exact ⟨issue_aCur _ u, issue_nLeft _ u⟩

/-- After `j + 1` whole turns the cursors are past the byte of turn `j`. -/
theorem turns_rangeAt (dst : Dest) (n j : Nat) (a : Addr) (left : Nat) (h : j < left) (s : State) :
    (State.issueAll ((rangeTurns dst n a left).take (turnLength dst * (j + 1))) s).rangeAt
      (a + BitVec.ofNat 12 (j + 1)) (left - (j + 1)) := by
  induction j generalizing a left s with
  | zero =>
    obtain ⟨left, rfl⟩ : ∃ l, left = l + 1 := ⟨left - 1, by omega⟩
    rw [rangeTurns, List.take_left' (by simp [rangeTurn_length])]
    exact turn_rangeAt dst a _ n left s
  | succ j ih =>
    obtain ⟨left, rfl⟩ : ∃ l, left = l + 1 := ⟨left - 1, by omega⟩
    have hlen : turnLength dst * (j + 1 + 1) =
        ((rangeTurn dst a (n - (left + 1)) n).map (Micro.inTurn a (left + 1))).length + turnLength dst * (j + 1) := by
      rw [List.length_map, rangeTurn_length]
      ring
    have haddr : a + BitVec.ofNat 12 (j + 1 + 1) = a + 1#12 + BitVec.ofNat 12 (j + 1) := by
      rw [BitVec.add_assoc, show (1#12 : Addr) = BitVec.ofNat 12 1 from rfl, ← BitVec.ofNat_add, Nat.add_comm 1]
    rw [rangeTurns, hlen, List.take_length_add_append, issueAll_append, haddr, Nat.add_sub_add_right]
    exact ih (a + 1#12) left (by omega) _

/-- After `i` whole turns of a range read, at least one. -/
theorem readRange_rangeAt (dst : Dest) (a : Addr) {n i : Nat} (hpos : 0 < i) (hi : i ≤ n) (s : State) :
    (State.issueAll ((readRange a n dst).take (turnLength dst * i)) s).rangeAt (a + BitVec.ofNat 12 i) (n - i) := by
  obtain ⟨j, rfl⟩ : ∃ j, i = j + 1 := ⟨i - 1, by omega⟩
  exact turns_rangeAt dst n j a n (by omega) s

/-- Every event of a bank carries the bank's hotspot. -/
theorem bankCalls_hotspot (n : Nat) (h : Addr) : ∀ m ∈ (bankCalls n h).flatten, m.hotspot = some h := by
  intro m hm
  simp only [bankCalls, List.flatten_cons, List.flatten_nil, List.append_nil, ← List.map_append] at hm
  obtain ⟨m', -, rfl⟩ := List.mem_map.mp hm
  rfl

theorem bankCalls_take_ne_nil (n : Nat) (h : Addr) {j : Nat} (hj : 0 < j) : (bankCalls n h).flatten.take j ≠ [] := by
  simp [bankCalls, assertHotspot]
  omega

theorem numberCalls_append (m : Nat) (xs ys : List (List Micro)) :
    numberCalls m (xs ++ ys) = numberCalls m xs ++ numberCalls (m + xs.length) ys := by
  induction xs generalizing m with
  | nil => rfl
  | cons x xs ih =>
    rw [List.cons_append, numberCalls, numberCalls, ih, List.append_assoc, List.length_cons, Nat.add_right_comm,
      Nat.add_assoc]

/-- STAGE after a list of calls is the number of the last, if it has an event. -/
theorem numberCalls_stage (m : Nat) (cs : List (List Micro)) {c : List Micro} (hc : c ≠ []) (s : State) :
    (State.issueAll (numberCalls m (cs ++ [c])) s).stage = BitVec.ofNat 4 (m + cs.length) := by
  rw [numberCalls_append, issueAll_append]
  refine issueAll_stage_of_forall (by simpa [numberCalls] using hc) (fun x hx => ?_) _
  simp only [numberCalls, List.append_nil] at hx
  obtain ⟨y, -, rfl⟩ := List.mem_map.mp hx
  rfl

/-- Settles O16: the last event issued is the last to set a cursor, and every turn, bank and call ends with one that
sets its own. -/
theorem namedCursorsFollowTheCourse : Obligations.NamedCursorsFollowTheCourse := fun s =>
  ⟨fun a _ _ _ hpos hi => readRange_rangeAt .out a hpos hi s,
   fun k a _ _ _ hpos hi => readRange_rangeAt (.buf k) a hpos hi s,
   fun h n _ hj => issueAll_hsCur_of_forall (bankCalls_take_ne_nil n h hj)
    (fun m hm => bankCalls_hotspot n h m (List.mem_of_mem_take hm)) s,
   fun cs _ m hc => numberCalls_stage m cs hc s⟩

/-! ### Reset values and the host's read port (R27, R33) -/

/-- Settles O9, register by register. -/
theorem resetState : Obligations.ResetState := by
  have lengths (k : BufId) : (State.reset.buffer k).len = 0#8 := by cases k <;> rfl
  exact ⟨rfl, rfl, rfl, rfl, rfl, rfl, rfl, rfl, rfl, lengths, rfl, rfl, rfl, rfl, rfl, rfl, rfl, rfl, rfl⟩

/-- Settles O42: nothing has been issued, nothing is allocated, and the observer's lines are the reset lines. -/
theorem invHoldsAtReset : Obligations.InvHoldsAtReset := by
  have sound : State.reset.sound := ⟨rfl, fun k => by cases k <;> exact Nat.zero_le _, nofun⟩
  have legal : State.reset.faultLegal := ⟨fun _ => ⟨rfl, rfl⟩, nofun⟩
  refine ⟨(inv_iff _).mpr ⟨rfl, ⟨rfl, rfl⟩, sound, legal, rfl⟩, (tickInv_iff _).mpr ⟨sound, legal, nofun, nofun⟩, ?_⟩
  exact ⟨BusView.reset, rfl, rfl, rfl⟩

theorem kindBits_eq (s : State) : s.kindBits = s.kind.elim 0#3 MapperKind.code := by
  rw [State.kindBits]
  cases s.kind <;> rfl

/-- The three flags of STATUS, its lowest bits (R27). -/
theorem status_flags (s : State) :
    s.status.getLsbD 0 = s.busy ∧ s.status.getLsbD 1 = s.faulted ∧ s.status.getLsbD 2 = s.kindValid := by
  simp only [State.status, levelBit, BitVec.getLsbD_append]
  simp

/-- The fields of STATUS above the flags (R27): below each stand the lower fields of the word. -/
theorem status_fields (s : State) :
    s.status.extractLsb' 3 3 = s.kindBits ∧ s.status.extractLsb' 6 4 = s.err ∧
      s.status.extractLsb' 10 8 = s.res ∧ s.status.extractLsb' 18 14 = 0#14 := by
  simp (disch := omega) only [State.status, BitVec.extractLsb'_append_eq_of_le, Nat.reduceSub,
    BitVec.extractLsb'_append_eq_right, BitVec.extractLsb'_eq_self, and_self]

/-- Settles O11: selector 0 reads STATUS, which is packed from its fields. -/
theorem hostRegistersRead : Obligations.HostRegistersRead := by
  refine ⟨by decide, fun s => ?_⟩
  obtain ⟨hbusy, hfaulted, hvalid⟩ := status_flags s
  obtain ⟨hkind, herr, hres, hzero⟩ := status_fields s
  exact ⟨hbusy, hfaulted, hvalid, hkind.trans (kindBits_eq s), herr, hres, hzero, rfl, rfl, rfl⟩

end Sys2Proof.Machine

namespace Sys2Proof.Machine

/-! ### A safe bus (R51, R55, R56, R139, R145)

Every hotspot, trigger and turn of a range read takes an observer who finds the lines at rest over a safe bus back to
lines at rest; so do the courses made of them. -/

/-- The observer sees chip-select de-asserted and data line 5 released (R30). -/
def BusView.atRest (v : BusView) : Prop := v.csN = true ∧ v.d5Oe = false

/-- From lines at rest these events pass over a safe bus, and leave the lines at rest. -/
def safeFromRest (es : List Event) : Prop :=
  ∀ v : BusView, v.atRest → ∃ v', BusView.follow es v = some v' ∧ v'.atRest

theorem follow_append (es fs : List Event) (v : BusView) :
    BusView.follow (es ++ fs) v = (BusView.follow es v).bind (BusView.follow fs) := by
  induction es generalizing v with
  | nil => rfl
  | cons e es ih =>
    rw [List.cons_append, BusView.follow, BusView.follow]
    cases v.next e with
    | none => rfl
    | some v' => exact ih v'

theorem safeFromRest_nil : safeFromRest [] := fun v hv => ⟨v, rfl, hv⟩

theorem safeFromRest_append {es fs : List Event} (h : safeFromRest es) (g : safeFromRest fs) :
    safeFromRest (es ++ fs) := by
  intro v hv
  obtain ⟨u, hu, hrest⟩ := h v hv
  obtain ⟨w, hw, hend⟩ := g u hrest
  exact ⟨w, by rw [follow_append, hu, Option.bind_some, hw], hend⟩

theorem hotspotTrace_safeFromRest (addr : Addr) : safeFromRest (hotspotTrace addr) := fun v hv =>
  ⟨{ v with csN := true, settled := true, fresh := none }, rfl, rfl, hv.2⟩

theorem feTrace_safeFromRest (p : Level) : safeFromRest (feTrace p) := fun v _ =>
  ⟨{ v with csN := true, d5Oe := false, settled := true, fresh := none }, rfl, rfl, rfl⟩

/-- A sample after its address and a settle delay (R77). -/
theorem sample_safeFromRest (a : Addr) (b : Byte) : safeFromRest [.wa a, .dly, .rd b] := by
  rintro ⟨cs, oe, settled, fresh⟩ ⟨rfl, rfl⟩
  exact ⟨_, rfl, rfl, rfl⟩

/-- The same with its byte emitted at once (R78). -/
theorem sampleEmitted_safeFromRest (a : Addr) (b : Byte) : safeFromRest [.wa a, .dly, .rd b, .emit b] := by
  rintro ⟨cs, oe, settled, fresh⟩ ⟨rfl, rfl⟩
  exact ⟨{ csN := true, d5Oe := false, settled := true, fresh := none }, by simp [BusView.follow, BusView.next],
    rfl, rfl⟩

/-- What the block did from `s` to `t` passed over a safe bus, if the lines were at rest in `s`. -/
def State.goesSafely (s t : State) : Prop := ∃ es, s.issued t es ∧ safeFromRest es

theorem goesSafely_trans {s t u : State} (h : s.goesSafely t) (g : t.goesSafely u) : s.goesSafely u := by
  obtain ⟨es, hi, he⟩ := h
  obtain ⟨fs, gi, ge⟩ := g
  exact ⟨es ++ fs, issued_trans hi gi, safeFromRest_append he ge⟩

/-- Any run of events with these actions goes safely. -/
def runSafely (xs : List Action) : Prop :=
  ∀ ms, actionsOf ms = xs → ∀ s : State, s.goesSafely (State.issueAll ms s)

theorem composes_runSafely : Composes runSafely where
  nil ms h s := by
    obtain rfl := actionsOf_eq_nil h
    exact ⟨[], issued_refl s, safeFromRest_nil⟩
  append hx hy ms h s := by
    obtain ⟨m1, m2, rfl, h1, h2⟩ := actionsOf_eq_append h
    rw [issueAll_append]
    exact goesSafely_trans (hx m1 h1 s) (hy m2 h2 _)
  hotspot addr _ h s := ⟨_, (hotspot_spec h s).1, hotspotTrace_safeFromRest addr⟩
  trigger p _ h s := ⟨_, (feTrigger_spec h s).1, feTrace_safeFromRest p⟩

theorem readByte_runSafely (a : Addr) (into : Intake) : runSafely (actionsOf (readByte a into)) := fun _ h s => by
  obtain ⟨b, hi, -⟩ := readByte_spec h s
  exact ⟨_, hi, sample_safeFromRest a b⟩

theorem turn_runSafely (dst : Dest) (a : Addr) (i n : Nat) : runSafely (actionsOf (rangeTurn dst a i n)) := by
  cases dst with
  | buf k => exact readByte_runSafely a _
  | out =>
    intro ms h s
    obtain ⟨b, hi⟩ := turnOut_spec h s
    exact ⟨_, hi, sampleEmitted_safeFromRest a b⟩

/-- The course goes safely from every state. -/
def Routine.runsSafely (r : Routine) : Prop := ∀ s : State, s.goesSafely (r.run s)

theorem finish_runsSafely (w : WriteBack) : (Routine.finish w).runsSafely := fun s =>
  ⟨[], issued_complete.mpr ((writeBack_issued w).mpr (issued_refl s)), safeFromRest_nil⟩

theorem events_runsSafely {ms : List Micro} {k : Routine} (h : runSafely (actionsOf ms)) (hk : k.runsSafely) :
    (Routine.events ms k).runsSafely := fun s => by
  rw [run_events]
  exact goesSafely_trans (h ms rfl s) (hk _)

theorem ask_runsSafely (p : Predicate) {yes no : Routine} (hy : yes.runsSafely) (hn : no.runsSafely) :
    (p.ask yes no).runsSafely := by
  refine events_runsSafely (composes_runSafely.predicate (fun k a i => turn_runSafely _ a i _) p) fun s => ?_
  have hp : s.goesSafely (p.releaseAll s) := ⟨[], (releaseAll_issued p).mpr (issued_refl s), safeFromRest_nil⟩
  rw [run_test]
  split
  · exact goesSafely_trans hp (hy _)
  · exact goesSafely_trans hp (hn _)

theorem course_runsSafely {i : Instr} {r : Routine} (h : IsCourse i r) : r.runsSafely := by
  have fin := finish_runsSafely
  have safe := composes_runSafely
  cases h with
  | hotspot addr => exact events_runsSafely (safe.hotspot addr) (fin _)
  | rdbyte addr => exact events_runsSafely (readByte_runSafely addr _) (fin _)
  | rdrange dst addr len => exact events_runsSafely (safe.range (turn_runSafely dst · · _) addr _) (fin _)
  | bufeq => exact fin _
  | fetrig p => exact events_runsSafely (safe.trigger p) (fin _)
  | predicate p => exact ask_runsSafely p (fin _) (fin _)
  | classify =>
    exact ask_runsSafely .isE0 (fin _) <| ask_runsSafely .isE7 (fin _) <| ask_runsSafely .isF6 (fin _) <|
      ask_runsSafely .isF8 (fin _) <| ask_runsSafely .isFE (fin _) <| ask_runsSafely .is2K (fin _) (fin _)
  | dump k | dumpk k => exact events_runsSafely (safe.plan (turn_runSafely .out) k) (fin _)

/-- A safe record stays safe when the block goes safely from lines at rest to lines at rest. -/
theorem goesSafely_busSafe {s t : State} (h : s.goesSafely t) (hs : s.atRest) (ht : t.atRest) (safe : s.busSafe) :
    t.busSafe := by
  obtain ⟨es, ⟨htrace, -⟩, hes⟩ := h
  obtain ⟨v, hv, hcs, hoe⟩ := safe
  obtain ⟨v', hv', hcs', hoe'⟩ := hes v ⟨hcs.trans hs.1, hoe.trans hs.2⟩
  exact ⟨v', by rw [htrace, follow_append, hv, Option.bind_some, hv'], hcs'.trans ht.1.symm, hoe'.trans ht.2.symm⟩

/-- Settles O46: reset begins a new record; an idle block and a fault add nothing to it; a course goes safely, since
the invariant has it begin with the lines at rest. -/
theorem busStaysSafe : Obligations.BusStaysSafe := by
  intro s t hs safe ht
  obtain ⟨hb, hrest, -⟩ := (inv_iff s).mp hs
  rcases step_cases hb ht with ⟨-, rfl⟩ | ⟨-, rfl⟩ | ⟨-, w, ⟨e, rfl⟩ | ⟨i, r, -, hr, rfl⟩⟩
  · exact ⟨BusView.reset, rfl, rfl, rfl⟩
  · exact safe
  · exact safe
  · have course := isCourse_of_routineOf hr
    have hrest' : (s.accept w).atRest := hrest
    exact goesSafely_busSafe (course_runsSafely course _) hrest' (course_keepsRest course _ hrest') safe

/-! ### The effect of one event (R39 to R47) -/

/-- Settles O12: each is its event by definition; EMIT takes the byte sampled last. -/
theorem eventEffects : Obligations.EventEffects := by
  intro s b bs
  refine ⟨fun _ => rfl, fun _ => rfl, rfl, fun _ => rfl, fun _ => rfl, fun h => ?_⟩
  have hb : s.lastSample = b := by rw [State.lastSample, h]
  rw [State.act, hb]
  rfl

end Sys2Proof.Machine

namespace Sys2Proof.Machine

/-! ### A range read is restartable (R52, R83) -/

/-- The samples of a run are the answers the state listed, as far as the list goes (R46). -/
theorem issued_samples_eq {s t : State} {es : List Event} {xs ys : List Byte} (h : s.issued t es)
    (ha : s.answers = xs ++ ys) (hl : (samplesOf es).length = xs.length) : samplesOf es = xs := by
  obtain ⟨-, -, -, hp, -⟩ := h
  rw [ha, hl, List.take_left' rfl] at hp
  exact (hp.eq_of_length hl.symm).symm

/-- What a run emitted is what the output grew by (R47). -/
theorem issued_out {s t : State} {es : List Event} (h : s.issued t es) : t.out = s.out ++ emittedOf es := by
  obtain ⟨-, -, -, -, -, -, hout, -⟩ := h
  simp [State.out, hout]

/-- A command whose checks pass runs its course (R72, R125). -/
theorem exec_of_checked {i : Instr} {s : State} {r : Routine} (hc : checkOf i s = none)
    (hr : routineOf i s.kind = some r) : exec i s = .next (r.run s) := by
  rw [exec_eq, hc, hr]

/-- RDRANGE to OUT with a destination runs its course, whose samples it emits (R78, R79). -/
theorem exec_rdrangeOut (addr : Addr) (len : Len) {s : State} (h : s.outAvail = true) :
    ∃ t bs, exec (.rdrange .out addr len) s = .next t ∧ bs.length = len.toNat ∧
      s.issued t (dumpTrace addr bs) := by
  obtain ⟨bs, hl, hi⟩ := rangeOut_spec len.toNat len.toNat addr rfl s
  have hc : checkOf (.rdrange .out addr len) s = none := by simp [checkOf, rdrangeCheck, overCapacity, destMissing, h]
  have hrun := exec_of_checked hc rfl
  rw [rdrangeRoutine, run_events] at hrun
  exact ⟨_, bs, hrun, hl, issued_complete.mpr hi⟩

/-- RDRANGE to a buffer that can hold the range leaves it holding the samples of its course (R78, R79). -/
theorem exec_rdrangeBuf (k : BufId) (addr : Addr) {len : Len} (h : len.toNat ≤ 128) (s : State) :
    ∃ t bs, exec (.rdrange (.buf k) addr len) s = .next t ∧ bs.length = len.toNat ∧
      s.issued t (readTrace addr bs) ∧ (t.buffer k).holds bs := by
  obtain ⟨bs, hl, hi, -, -, hcells, -⟩ := rangeBuf_spec k len.toNat len.toNat h (Nat.le_refl _) addr rfl s
  have hc : checkOf (.rdrange (.buf k) addr len) s = none := by
    simp [checkOf, rdrangeCheck, overCapacity, destMissing, Config.bufCap, Nat.not_lt.mpr h]
  have hrun := exec_of_checked hc rfl
  rw [rdrangeRoutine, run_events] at hrun
  refine ⟨_, bs, hrun, hl, issued_complete.mpr ((writeBack_issued _).mpr hi), ?_, fun j hj => ?_⟩
  · have hfits : len.toNat % 256 = len.toNat := Nat.mod_eq_of_lt (by omega)
    simp [rdrangeWriteBack, State.writeBack, Buffer.setLen, hl, hfits]
  · simpa [rdrangeWriteBack, State.writeBack, readRange] using hcells j (hl ▸ hj)

/-- RDRANGE to OUT emits the answers listed for its samples. -/
theorem rdrangeOut_emits_answers (addr : Addr) {len : Len} {s : State} {xs ys : List Byte} (hx : xs.length = len.toNat)
    (hs : s.answers = xs ++ ys) (ho : s.outAvail = true) :
    ∃ t, exec (.rdrange .out addr len) s = .next t ∧ t.out = s.out ++ xs := by
  obtain ⟨t, bs, ht, hl, hi⟩ := exec_rdrangeOut addr len ho
  have hbs : bs = xs := by simpa using issued_samples_eq hi hs (by simp [hl, hx])
  exact ⟨t, ht, by simpa [hbs] using issued_out hi⟩

/-- RDRANGE to a buffer leaves it holding the answers listed for its samples. -/
theorem rdrangeBuf_holds_answers (k : BufId) (addr : Addr) {len : Len} {s : State} {xs ys : List Byte}
    (hx : xs.length = len.toNat) (hs : s.answers = xs ++ ys) (hlen : len.toNat ≤ 128) :
    ∃ t, exec (.rdrange (.buf k) addr len) s = .next t ∧ (t.buffer k).holds xs := by
  obtain ⟨t, bs, ht, hl, hi, hholds⟩ := exec_rdrangeBuf k addr hlen s
  have hbs : bs = xs := by simpa using issued_samples_eq hi hs (by simp [hl, hx])
  exact ⟨t, ht, hbs ▸ hholds⟩

/-- Settles O22: in each of the two runs the samples are the answers listed, which the states share. -/
theorem rangeReadIsRestartable : Obligations.RangeReadIsRestartable := by
  intro addr len s s' xs ys ys' hx hs hs'
  constructor
  · intro ho ho'
    obtain ⟨t, ht, hout⟩ := rdrangeOut_emits_answers addr hx hs ho
    obtain ⟨t', ht', hout'⟩ := rdrangeOut_emits_answers addr hx hs' ho'
    exact ⟨t, t', ht, ht', hout, hout'⟩
  · intro k k' hlen
    obtain ⟨t, ht, hholds⟩ := rdrangeBuf_holds_answers k addr hx hs hlen
    obtain ⟨t', ht', hholds'⟩ := rdrangeBuf_holds_answers k' addr hx hs' hlen
    exact ⟨t, t', ht, ht', hholds, hholds'⟩

/-! ### What the block does on its lines does not depend on the bytes it reads (R57, R100) -/

/-- From every state the course issues the events of these actions, but for the bytes they carry. -/
def Routine.issuesAlways (r : Routine) (xs : List Action) : Prop :=
  ∀ s : State, ∃ es, s.issued (r.run s) es ∧ es.map eventShape = xs.map Action.shape

theorem finish_issuesAlways (w : WriteBack) : (Routine.finish w).issuesAlways [] := fun s =>
  ⟨[], issued_complete.mpr ((writeBack_issued w).mpr (issued_refl s)), rfl⟩

theorem events_issuesAlways (ms : List Micro) {k : Routine} {xs : List Action} (h : k.issuesAlways xs) :
    (Routine.events ms k).issuesAlways (actionsOf ms ++ xs) := fun s => by
  obtain ⟨es, hi, hes⟩ := issueAll_issued ms s
  obtain ⟨fs, gi, hfs⟩ := h (State.issueAll ms s)
  rw [run_events]
  exact ⟨es ++ fs, issued_trans hi gi, by simp [hes, hfs, actionsOf]⟩

/-- A comparison chooses only between last writes. -/
theorem predicate_issuesAlways (p : Predicate) : (predicateRoutine p).issuesAlways (actionsOf p.micros ++ []) := by
  refine events_issuesAlways p.micros fun s => ?_
  have hp : s.issued (p.releaseAll s) [] := (releaseAll_issued p).mpr (issued_refl s)
  obtain ⟨b, hb⟩ : ∃ b, (Routine.test p (.finish (.bool true)) (.finish (.bool false))).run s =
      (Routine.finish (.bool b)).run (p.releaseAll s) := by
    rw [run_test]
    split
    · exact ⟨true, rfl⟩
    · exact ⟨false, rfl⟩
  obtain ⟨es, hi, hes⟩ := finish_issuesAlways (.bool b) (p.releaseAll s)
  exact ⟨es, hb ▸ issued_trans hp hi, hes⟩

/-- Every course but CLASSIFY's issues the same events on every way through it (R57). -/
theorem course_issuesAlways {i : Instr} {r : Routine} (h : IsCourse i r) (hi : i ≠ .classify) :
    ∃ xs, r.issuesAlways xs := by
  have fin := finish_issuesAlways
  cases h with
  | bufeq => exact ⟨_, fin _⟩
  | hotspot | rdbyte | rdrange | fetrig | dump | dumpk => exact ⟨_, events_issuesAlways _ (fin _)⟩
  | predicate p => exact ⟨_, predicate_issuesAlways p⟩
  | classify => exact absurd rfl hi

/-- The checks of R125 read only the verdict, the destination and the buffers' lengths. -/
theorem checkOf_congr (i : Instr) {s s' : State} (hk : s.kind = s'.kind) (ho : s.outAvail = s'.outAvail)
    (hb : ∀ k, (s.buffer k).len = (s'.buffer k).len) : checkOf i s = checkOf i s' := by
  have hv : s.kindValid = s'.kindValid := by rw [State.kindValid, State.kindValid, hk]
  have hd (dst : Dest) : destMissing dst s = destMissing dst s' := by cases dst <;> simp [destMissing, ho]
  have ht (a b : BufId) (len : Len) : tooLong a b len s = tooLong a b len s' := by simp [tooLong, hb]
  cases i <;> simp only [checkOf, rdrangeCheck, bufeqCheck, classifyCheck, dumpkCheck, hv, hd, ht]

/-- Two states that agree on what the checks read take the same fault or run the same course. -/
theorem exec_alike (i : Instr) {s s' : State} (hk : s.kind = s'.kind) (ho : s.outAvail = s'.outAvail)
    (hb : ∀ k, (s.buffer k).len = (s'.buffer k).len) :
    (∃ e, exec i s = .next (s.raise e) ∧ exec i s' = .next (s'.raise e)) ∨
      ∃ r, IsCourse i r ∧ exec i s = .next (r.run s) ∧ exec i s' = .next (r.run s') := by
  rw [exec_eq, exec_eq, ← checkOf_congr i hk ho hb, ← hk]
  split
  · exact .inl ⟨_, rfl, rfl⟩
  · next r _ hr => exact .inr ⟨r, isCourse_of_routineOf hr, rfl, rfl⟩
  · exact .inl ⟨_, rfl, rfl⟩

/-- Settles O53: the checks answer alike in both states, and what a course issues, but for the bytes, is the same from
every state. -/
theorem eventsDoNotDependOnBytes : Obligations.EventsDoNotDependOnBytes := by
  intro i s s' hi hk ho hb hf
  rcases exec_alike i hk ho hb with ⟨e, h, h'⟩ | ⟨r, hr, h, h'⟩
  · exact ⟨_, _, [], [], h, h', issued_refl s, issued_refl s', rfl, rfl⟩
  · obtain ⟨xs, hxs⟩ := course_issuesAlways hr hi
    obtain ⟨es, hes, hshape⟩ := hxs s
    obtain ⟨es', hes', hshape'⟩ := hxs s'
    refine ⟨_, _, es, es', h, h', hes, hes', hshape.trans hshape'.symm, ?_⟩
    rw [(run_faultRegisters r s).1, (run_faultRegisters r s').1, hf]

/-! ### Data line 5 (R44) -/

/-- The action touches neither the value nor the drive of data line 5. -/
def Action.leavesLine5 : Action → Prop
  | .d5v _ | .d5d _ => False
  | .cs _ | .wa _ | .dly | .rd _ | .emit => True

/-- No action of these events touches data line 5. -/
def leaveLine5 (ms : List Micro) : Prop := ∀ x ∈ actionsOf ms, x.leavesLine5

theorem assertHotspot_line5 (addr : Addr) : leaveLine5 (assertHotspot addr) := by
  simp [leaveLine5, assertHotspot, Micro.plain, Action.leavesLine5]

theorem readByte_line5 (a : Addr) (into : Intake) : leaveLine5 (readByte a into) := by
  simp [leaveLine5, readByte, Micro.plain, Action.leavesLine5]

theorem rangeTurn_line5 (dst : Dest) (a : Addr) (i n : Nat) : leaveLine5 (rangeTurn dst a i n) := by
  cases dst <;> simp [leaveLine5, rangeTurn, readByte, Micro.plain, Action.leavesLine5]

theorem rangeTurns_line5 (dst : Dest) (n : Nat) (a : Addr) (left : Nat) : leaveLine5 (rangeTurns dst n a left) := by
  induction left generalizing a with
  | zero => simp [leaveLine5, rangeTurns]
  | succ left ih =>
    rw [leaveLine5, rangeTurns, actionsOf_append, actionsOf_inTurn, List.forall_mem_append]
    exact ⟨rangeTurn_line5 dst a _ n, ih _⟩

theorem readRange_line5 (a : Addr) (n : Nat) (dst : Dest) : leaveLine5 (readRange a n dst) := rangeTurns_line5 dst n a n

theorem window_line5 (a : Addr) (k : BufId) : leaveLine5 (window a k) := readRange_line5 a _ _

theorem numberCalls_line5 {cs : List (List Micro)} (h : ∀ c ∈ cs, leaveLine5 c) (n : Nat) :
    leaveLine5 (numberCalls n cs) := by
  intro x hx
  rw [numberCalls_actions] at hx
  obtain ⟨ys, hys, hx⟩ := List.mem_flatten.mp hx
  obtain ⟨c, hc, rfl⟩ := List.mem_map.mp hys
  exact h c hc x hx

/-- Only isFE pulls the trigger (R93). -/
theorem predicate_line5 {p : Predicate} (hp : p ≠ .isFE) : leaveLine5 p.micros := by
  cases p with
  | isFE => exact absurd rfl hp
  | isE0 | isE7 | isF4 | isF6 | isF8 | is2K =>
    refine numberCalls_line5 ?_ 0
    simp [isE0Calls, isE7Calls, isF4Calls, isF6Calls, isF8Calls, is2KCalls, assertHotspot_line5, window_line5]

theorem banksFrom_line5 (n : Nat) (h : Addr) (count : Nat) : ∀ c ∈ banksFrom n h count, leaveLine5 c := by
  induction count generalizing h with
  | zero => simp [banksFrom]
  | succ count ih =>
    have hotspot : leaveLine5 ((assertHotspot h).map (Micro.inBank h)) := by
      simpa [leaveLine5] using assertHotspot_line5 h
    have read : leaveLine5 ((readRange 0x000#12 n .out).map (Micro.inBank h)) := by
      simpa [leaveLine5] using readRange_line5 0x000#12 n .out
    simpa [banksFrom, bankCalls, hotspot, read] using ih (h + 1#12)

/-- Only plan_FE pulls the trigger (R109). -/
theorem plan_line5 {k : MapperKind} (hk : k ≠ .fe) : leaveLine5 (planMicros k) := by
  refine numberCalls_line5 ?_ 0
  cases k with
  | fe => exact absurd rfl hk
  | e0 | f4 | f6 | f8 => exact banksFrom_line5 _ _ _
  | e7 => exact List.forall_mem_append.mpr ⟨banksFrom_line5 _ _ _, by simpa using readRange_line5 _ _ _⟩
  | k2 | k4 => simpa [planOf, plan2K, plan4K] using readRange_line5 _ _ _

/-- The course touches data line 5 on no way through it. -/
def Routine.leavesLine5 (r : Routine) : Prop := ∀ x ∈ r.actions, x.leavesLine5

theorem events_leavesLine5 {ms : List Micro} (h : leaveLine5 ms) (w : WriteBack) :
    (Routine.events ms (.finish w)).leavesLine5 := by
  simpa [Routine.leavesLine5, leaveLine5] using h

/-- The courses that touch data line 5 are those of FETRIG, ISFE, CLASSIFY, DUMPK.FE and DUMP of kind FE (R44). -/
theorem routineOf_leavesLine5 {i : Instr} {kind : Option MapperKind} {r : Routine} (hr : routineOf i kind = some r)
    (htrig : ∀ p, i ≠ .fetrig p) (hisfe : i ≠ .isfe) (hclassify : i ≠ .classify) (hdumpk : i ≠ .dumpkFE)
    (hdump : i = .dump → kind ≠ some .fe) : r.leavesLine5 := by
  by_cases hi : i = .dump
  · subst hi
    obtain ⟨k, hk, rfl⟩ := Option.map_eq_some_iff.mp hr
    exact events_leavesLine5 (plan_line5 fun h => hdump rfl (h ▸ hk)) _
  cases isCourse_of_routineOf hr with
  | hotspot addr => exact events_leavesLine5 (assertHotspot_line5 addr) _
  | rdbyte addr => exact events_leavesLine5 (readByte_line5 addr _) _
  | rdrange dst addr len => exact events_leavesLine5 (readRange_line5 addr _ dst) _
  | bufeq => exact List.forall_mem_nil _
  | fetrig p => exact absurd rfl (htrig p)
  | predicate p =>
    have hp : p ≠ .isFE := by rintro rfl; exact hisfe rfl
    simpa [Routine.leavesLine5, leaveLine5, predicateRoutine] using predicate_line5 hp
  | classify => exact absurd rfl hclassify
  | dump => exact absurd rfl hi
  | dumpk k => exact events_leavesLine5 (plan_line5 (by rintro rfl; exact hdumpk rfl)) _

/-- What the events of a course's actions all satisfy, an observer sees of all it issues. -/
theorem run_issued_of_actions {P : Event → Prop} {r : Routine} (h : ∀ x ∈ r.actions, ∀ u, P (x.event u))
    (s : State) : ∃ es, s.issued (r.run s) es ∧ ∀ e ∈ es, P e := by
  induction r generalizing s with
  | finish w => exact ⟨[], issued_complete.mpr ((writeBack_issued w).mpr (issued_refl s)), by simp⟩
  | event m k ih =>
    obtain ⟨hm, hk⟩ := List.forall_mem_cons.mp h
    obtain ⟨es, hi, hes⟩ := ih hk (s.issue m)
    exact ⟨_ :: es, issued_trans (issue_issued m s) hi, List.forall_mem_cons.mpr ⟨hm _, hes⟩⟩
  | test p yes no ihy ihn =>
    obtain ⟨hy, hn⟩ := List.forall_mem_append.mp h
    have hp : s.issued (p.releaseAll s) [] := (releaseAll_issued p).mpr (issued_refl s)
    rw [run_test]
    split
    · obtain ⟨es, hi, hes⟩ := ihy hy (p.releaseAll s)
      exact ⟨es, issued_trans hp hi, hes⟩
    · obtain ⟨es, hi, hes⟩ := ihn hn (p.releaseAll s)
      exact ⟨es, issued_trans hp hi, hes⟩

theorem event_leavesLine5 {x : Action} (h : x.leavesLine5) (u : State) :
    (∀ v, x.event u ≠ .d5v v) ∧ ∀ d, x.event u ≠ .d5d d := by
  cases x with
  | d5v | d5d => exact h.elim
  | cs | wa | dly | rd | emit => exact ⟨nofun, nofun⟩

/-- A course that does not touch data line 5 leaves its drive and its value. -/
theorem run_line5 {r : Routine} (h : r.leavesLine5) (s : State) :
    (r.run s).d5Oe = s.d5Oe ∧ (r.run s).d5Out = s.d5Out := by
  have quiet (m : Micro) (u : State) (hm : m.act ∈ r.actions) :
      (u.issue m).d5Oe = u.d5Oe ∧ (u.issue m).d5Out = u.d5Out := by
    have hx := h m.act hm
    rw [State.issue]
    cases hm : m.act with
    | d5v | d5d => rw [hm] at hx; exact hx.elim
    | cs | wa | dly | rd | emit => simp [State.act]
  exact ⟨run_field State.d5Oe (fun m u hm => (quiet m u hm).1) (by simp) (by simp) s,
    run_field State.d5Out (fun m u hm => (quiet m u hm).2) (by simp) (by simp) s⟩

/-- Settles O51: a fault issues nothing, and the courses of these commands hold no action on data line 5. -/
theorem line5OnlyByTriggers : Obligations.Line5OnlyByTriggers := by
  intro i s t ht htrig hisfe hclassify hdumpk hdump
  rcases exec_cases ht with ⟨e, rfl⟩ | ⟨r, -, hr, rfl⟩
  · exact ⟨rfl, rfl, [], issued_refl s, by simp⟩
  · have hquiet := routineOf_leavesLine5 hr htrig hisfe hclassify hdumpk hdump
    obtain ⟨hoe, hout⟩ := run_line5 hquiet s
    obtain ⟨es, hi, hes⟩ := run_issued_of_actions (P := fun e => (∀ v, e ≠ .d5v v) ∧ ∀ d, e ≠ .d5d d)
      (fun x hx => event_leavesLine5 (hquiet x hx)) s
    exact ⟨hoe, hout, es, hi, hes⟩

end Sys2Proof.Machine

namespace Sys2Proof

/-! ### What the decoder answers, said once for each operation code (R62 to R70) -/

/-- An operation code is one of R62's nine, or it names no operation. -/
theorem opCode_cases (c : BitVec 4) :
    (c = 0#4 ∨ 10 ≤ c.toNat) ∨ c = 1#4 ∨ c = 2#4 ∨ c = 3#4 ∨ c = 4#4 ∨ c = 5#4 ∨ c = 6#4 ∨ c = 7#4 ∨ c = 8#4 ∨
      c = 9#4 := by
  revert c
  decide

theorem decode_noOp {w : Word} (h : opField w = 0#4 ∨ 10 ≤ (opField w).toNat) : decode w = .illegal .op := by
  have hop : (opField w).toNat = 0 ∨ 10 ≤ (opField w).toNat := h.imp_left fun h => by rw [h]; rfl
  rw [decode]
  split
  case h_10 => rfl
  all_goals omega

theorem decode_hotspot {w : Word} (h : opField w = 1#4) :
    decode w = if selField w ≠ 0#3 then .illegal .sel else if lenField w ≠ 0#13 then .illegal .len
      else .command (.hotspot (addrField w)) := by
  simp only [decode, h]
  rfl

theorem decode_rdbyte {w : Word} (h : opField w = 2#4) :
    decode w = if selField w ≠ 0#3 then .illegal .sel else if lenField w ≠ 0#13 then .illegal .len
      else .command (.rdbyte (addrField w)) := by
  simp only [decode, h]
  rfl

theorem decode_rdrange_some {w : Word} {dst : Dest} (h : opField w = 3#4) (hd : Dest.ofCode (selField w) = some dst) :
    decode w = if Config.rangeMax < (lenField w).toNat then .illegal .len
      else .command (.rdrange dst (addrField w) (lenField w)) := by
  simp only [decode, h, hd, ← Nat.not_le, ite_not]
  rfl

theorem decode_rdrange_none {w : Word} (h : opField w = 3#4) (hd : Dest.ofCode (selField w) = none) :
    decode w = .illegal .sel := by
  simp only [decode, h, hd]
  rfl

theorem decode_bufeq {w : Word} (h : opField w = 4#4) :
    decode w = if (selField w).getLsbD 2 then .illegal .sel
      else if (addrField w).extractLsb' 2 10 ≠ 0#10 then .illegal .addr
      else .command (.bufeq (BufId.ofCode ((selField w).extractLsb' 0 2)) (BufId.ofCode ((addrField w).extractLsb' 0 2))
        (lenField w)) := by
  simp only [decode, h]
  rfl

theorem decode_fetrig {w : Word} (h : opField w = 5#4) :
    decode w = if (selField w).extractLsb' 1 2 ≠ 0#2 then .illegal .sel
      else noLenNoAddr (lenField w) (addrField w) (.fetrig ((selField w).getLsbD 0)) := by
  simp only [decode, h]
  rfl

theorem decode_predicate_some {w : Word} {i : Instr} (h : opField w = 6#4)
    (hi : Instr.ofPredicateCode (selField w) = some i) : decode w = noLenNoAddr (lenField w) (addrField w) i := by
  simp only [decode, h, hi]
  rfl

theorem decode_predicate_none {w : Word} (h : opField w = 6#4) (hi : Instr.ofPredicateCode (selField w) = none) :
    decode w = .illegal .sel := by
  simp only [decode, h, hi]
  rfl

theorem decode_classify {w : Word} (h : opField w = 7#4) :
    decode w = if selField w ≠ 0#3 then .illegal .sel else noLenNoAddr (lenField w) (addrField w) .classify := by
  simp only [decode, h]
  rfl

theorem decode_dump {w : Word} (h : opField w = 8#4) :
    decode w = if selField w ≠ 0#3 then .illegal .sel else noLenNoAddr (lenField w) (addrField w) .dump := by
  simp only [decode, h]
  rfl

theorem decode_dumpk {w : Word} (h : opField w = 9#4) :
    decode w = noLenNoAddr (lenField w) (addrField w) (Instr.dumpk (MapperKind.ofCode (selField w))) := by
  simp only [decode, h]
  rfl

/-! Each of these answers tests fields and then is a command: it is a command when every test passes, and illegal when
one does not. -/

theorem guard_eq_command {c : Prop} [Decidable c] {r : Reject} {d : Decoded} {i : Instr} :
    (if c then .illegal r else d) = .command i ↔ ¬c ∧ d = .command i := by
  split <;> simp_all

theorem guard_eq_illegal {c : Prop} [Decidable c] {r : Reject} {d : Decoded} :
    (∃ r', (if c then .illegal r else d) = .illegal r') ↔ c ∨ ∃ r', d = .illegal r' := by
  split <;> simp_all

theorem noLenNoAddr_eq_command {len : Len} {addr : Addr} {i j : Instr} :
    noLenNoAddr len addr i = .command j ↔ len = 0#13 ∧ addr = 0#12 ∧ i = j := by
  simp only [noLenNoAddr, guard_eq_command, not_not, Decoded.command.injEq]

theorem noLenNoAddr_eq_illegal {len : Len} {addr : Addr} {i : Instr} :
    (∃ r, noLenNoAddr len addr i = .illegal r) ↔ len ≠ 0#13 ∨ addr ≠ 0#12 := by
  simp only [noLenNoAddr, guard_eq_illegal, reduceCtorEq, exists_false, or_false]

/-! ### The codes of SEL and of BUFEQ's second buffer -/

theorem Dest.ofCode_eq_none_iff {c : BitVec 3} : Dest.ofCode c = none ↔ 5 ≤ c.toNat := by
  revert c
  decide

theorem Instr.ofPredicateCode_eq_none_iff {c : BitVec 3} : Instr.ofPredicateCode c = none ↔ c = 7#3 := by
  revert c
  decide

/-- A predicate's code stands in its word, and nothing else but OP does (R64). -/
theorem Instr.encode_of_ofPredicateCode {c : BitVec 3} {i : Instr} (h : Instr.ofPredicateCode c = some i) :
    i.wellFormed = true ∧ encode i = packWord 6#4 c 0#13 0#12 := by
  have all_codes : ∀ c : BitVec 3, ∀ i ∈ Instr.ofPredicateCode c,
      i.wellFormed = true ∧ encode i = packWord 6#4 c 0#13 0#12 := by decide
  exact all_codes c i h

/-- So does a kind's (R63). -/
theorem Instr.encode_dumpk (k : MapperKind) :
    (Instr.dumpk k).wellFormed = true ∧ encode (Instr.dumpk k) = packWord 9#4 k.code 0#13 0#12 := by
  cases k <;> exact ⟨rfl, rfl⟩

/-- A first buffer's code fills SEL but for its high bit (R65). -/
theorem sel_eq_append_index {c : BitVec 3} : 0#1 ++ c.extractLsb' 0 2 = c ↔ c.getLsbD 2 = false := by
  revert c
  decide

theorem addr_bits (a : Addr) : a.extractLsb' 2 10 ++ a.extractLsb' 0 2 = a :=
  (BitVec.extractLsb'_append_extractLsb'_eq_extractLsb' rfl).trans BitVec.extractLsb'_eq_self

/-- The second buffer's code fills ADDR but for its ten high bits (R65). -/
theorem addr_eq_append_index {a : Addr} : 0#10 ++ a.extractLsb' 0 2 = a ↔ a.extractLsb' 2 10 = 0#10 :=
  ⟨fun h => ((BitVec.append_left_inj _).mp (h.trans (addr_bits a).symm)).symm, fun h => h ▸ addr_bits a⟩

/-- FETRIG's polarity fills SEL but for its two high bits (R66). -/
theorem sel_eq_append_bit {c : BitVec 3} : 0#2 ++ BitVec.ofBool (c.getLsbD 0) = c ↔ c.extractLsb' 1 2 = 0#2 := by
  revert c
  decide

/-! ### Decode and encode are inverse -/

theorem packWord_eq_iff {op : BitVec 4} {sel : BitVec 3} {len : Len} {addr : Addr} {w : Word} :
    packWord op sel len addr = w ↔ opField w = op ∧ selField w = sel ∧ lenField w = len ∧ addrField w = addr := by
  constructor
  · rintro rfl
    simp
  · rintro ⟨rfl, rfl, rfl, rfl⟩
    exact packWord_fields w

/-- Settles O2: the fields of a command's word are those it was packed from,
and each code decodes to what it stands for. -/
theorem decodeOfEncode : Obligations.DecodeOfEncode := by
  intro i h
  cases i with
  | hotspot => simp [encode, decode_hotspot]
  | rdbyte => simp [encode, decode_rdbyte]
  | rdrange dst addr len =>
    have hlen : len.toNat ≤ Config.rangeMax := by simpa [Instr.wellFormed] using h
    rw [encode, decode_rdrange_some (dst := dst) (by simp) (by simp)]
    simpa using hlen
  | bufeq a b len =>
    rw [encode, decode_bufeq (by simp)]
    cases a <;> cases b <;> simp [BufId.code, BufId.ofCode]
  | fetrig p =>
    rw [encode, decode_fetrig (by simp)]
    cases p <;> simp [noLenNoAddr]
  | ise0 | ise7 | isf4 | isf6 | isf8 | is2k | isfe | classify | dump => decide
  | dumpkE0 | dumpkE7 | dumpkF4 | dumpkF6 | dumpkF8 | dumpkFE | dumpk2K | dumpk4K => decide

/-- Settles O3: the decoder rejects every word with a bit its command does not carry, so the word's fields are those its
command is packed from. -/
theorem encodeOfDecode : Obligations.EncodeOfDecode := by
  intro w i h
  rcases opCode_cases (opField w) with ho | ho | ho | ho | ho | ho | ho | ho | ho | ho
  · simp [decode_noOp ho] at h
  · simp only [decode_hotspot ho, guard_eq_command, not_not, Decoded.command.injEq] at h
    obtain ⟨hs, hl, rfl⟩ := h
    exact ⟨rfl, packWord_eq_iff.mpr ⟨ho, hs, hl, rfl⟩⟩
  · simp only [decode_rdbyte ho, guard_eq_command, not_not, Decoded.command.injEq] at h
    obtain ⟨hs, hl, rfl⟩ := h
    exact ⟨rfl, packWord_eq_iff.mpr ⟨ho, hs, hl, rfl⟩⟩
  · rcases hd : Dest.ofCode (selField w) with _ | dst
    · simp [decode_rdrange_none ho hd] at h
    · simp only [decode_rdrange_some ho hd, guard_eq_command, not_lt, Decoded.command.injEq] at h
      obtain ⟨hl, rfl⟩ := h
      exact ⟨decide_eq_true hl, packWord_eq_iff.mpr ⟨ho, (Dest.code_of_ofCode hd).symm, rfl, rfl⟩⟩
  · simp only [decode_bufeq ho, guard_eq_command, not_not, Bool.not_eq_true, Decoded.command.injEq] at h
    obtain ⟨hs, ha, rfl⟩ := h
    refine ⟨rfl, packWord_eq_iff.mpr ⟨ho, ?_, rfl, ?_⟩⟩
    · rw [BufId.code_ofCode, sel_eq_append_index.mpr hs]
    · rw [BufId.code_ofCode, addr_eq_append_index.mpr ha]
  · simp only [decode_fetrig ho, guard_eq_command, not_not, noLenNoAddr_eq_command] at h
    obtain ⟨hs, hl, ha, rfl⟩ := h
    exact ⟨rfl, packWord_eq_iff.mpr ⟨ho, (sel_eq_append_bit.mpr hs).symm, hl, ha⟩⟩
  · rcases hp : Instr.ofPredicateCode (selField w) with _ | j
    · simp [decode_predicate_none ho hp] at h
    · rw [decode_predicate_some ho hp, noLenNoAddr_eq_command] at h
      obtain ⟨hl, ha, rfl⟩ := h
      obtain ⟨hwf, henc⟩ := Instr.encode_of_ofPredicateCode hp
      exact ⟨hwf, henc ▸ packWord_eq_iff.mpr ⟨ho, rfl, hl, ha⟩⟩
  · simp only [decode_classify ho, guard_eq_command, not_not, noLenNoAddr_eq_command] at h
    obtain ⟨hs, hl, ha, rfl⟩ := h
    exact ⟨rfl, packWord_eq_iff.mpr ⟨ho, hs, hl, ha⟩⟩
  · simp only [decode_dump ho, guard_eq_command, not_not, noLenNoAddr_eq_command] at h
    obtain ⟨hs, hl, ha, rfl⟩ := h
    exact ⟨rfl, packWord_eq_iff.mpr ⟨ho, hs, hl, ha⟩⟩
  · rw [decode_dumpk ho, noLenNoAddr_eq_command] at h
    obtain ⟨hl, ha, rfl⟩ := h
    obtain ⟨hwf, henc⟩ := Instr.encode_dumpk (MapperKind.ofCode (selField w))
    exact ⟨hwf, henc ▸ packWord_eq_iff.mpr ⟨ho, (MapperKind.code_ofCode _).symm, hl, ha⟩⟩

/-- A word is a command exactly when it is the word of that command (R69). -/
theorem decode_eq_command_iff {w : Word} {i : Instr} :
    decode w = .command i ↔ i.wellFormed = true ∧ encode i = w :=
  ⟨encodeOfDecode w i, fun ⟨hwf, hw⟩ => hw ▸ decodeOfEncode i hwf⟩

/-! ### R62's table -/

/-- Masking a word masks its fields. -/
theorem packWord_and (op op' : BitVec 4) (sel sel' : BitVec 3) (len len' : Len) (addr addr' : Addr) :
    packWord op sel len addr &&& packWord op' sel' len' addr' =
      packWord (op &&& op') (sel &&& sel') (len &&& len') (addr &&& addr') :=
  BitVec.and_append.trans (congrArg (· ++ _) (BitVec.and_append.trans (congrArg (· ++ _) BitVec.and_append)))

theorem and_packWord_eq_iff {w : Word} {op op' : BitVec 4} {sel sel' : BitVec 3} {len len' : Len}
    {addr addr' : Addr} :
    w &&& packWord op sel len addr = packWord op' sel' len' addr' ↔
      opField w &&& op = op' ∧ selField w &&& sel = sel' ∧ lenField w &&& len = len' ∧
        addrField w &&& addr = addr' := by
  conv_lhs => rw [← packWord_fields w, packWord_and, packWord_eq_iff]
  simp [eq_comm]

/-- A stretch of bits of a field is a stretch of bits of the word. -/
theorem extractLsb'_field {n : Nat} (w : BitVec n) {start len i k : Nat} (h : i + k ≤ len) :
    (w.extractLsb' start len).extractLsb' i k = w.extractLsb' (start + i) k := by
  ext j hj
  simp [show i + j < len by omega, Nat.add_assoc]

theorem selField_extractLsb' (w : Word) {i k : Nat} (h : i + k ≤ 3) :
    (selField w).extractLsb' i k = w.extractLsb' (25 + i) k :=
  extractLsb'_field w h

theorem addrField_extractLsb' (w : Word) {i k : Nat} (h : i + k ≤ 12) :
    (addrField w).extractLsb' i k = w.extractLsb' i k :=
  (extractLsb'_field w h).trans (by rw [Nat.zero_add])

theorem selField_getLsbD (w : Word) {i : Nat} (h : i < 3) : (selField w).getLsbD i = w.getLsbD (25 + i) := by
  simp [selField, h]

/-- A row with no operand: one word (R62). -/
theorem decode_eq_command_iff_eq {w v : Word} {i : Instr} (hwf : i.wellFormed = true) (hv : encode i = v) :
    decode w = .command i ↔ w = v := by
  rw [decode_eq_command_iff, hv, eq_comm (a := v)]
  exact and_iff_right hwf

/-- A row with any ADDR (R62). -/
theorem packWord_addrField_eq_iff {w : Word} {op : BitVec 4} {sel : BitVec 3} {len : Len} :
    packWord op sel len (addrField w) = w ↔ w &&& 0xFFFFF000#32 = packWord op sel len 0#12 := by
  rw [show 0xFFFFF000#32 = packWord (.allOnes 4) (.allOnes 3) (.allOnes 13) 0#12 from rfl, packWord_eq_iff,
    and_packWord_eq_iff]
  simp only [BitVec.and_allOnes, BitVec.and_zero, and_true]

theorem decode_hotspot_row (w : Word) :
    decode w = .command (.hotspot (addrField w)) ↔ w &&& 0xFFFFF000#32 = 0x10000000#32 := by
  rw [decode_eq_command_iff]
  exact (and_iff_right rfl).trans packWord_addrField_eq_iff

theorem decode_rdbyte_row (w : Word) :
    decode w = .command (.rdbyte (addrField w)) ↔ w &&& 0xFFFFF000#32 = 0x20000000#32 := by
  rw [decode_eq_command_iff]
  exact (and_iff_right rfl).trans packWord_addrField_eq_iff

theorem Dest.exists_code (c : BitVec 3) : (∃ d : Dest, d.code = c) ↔ c.toNat ≤ 4 := by
  rw [← Nat.lt_succ_iff, ← Nat.not_le, ← Dest.ofCode_eq_none_iff, ← ne_eq, Option.ne_none_iff_exists']
  exact exists_congr fun d => ⟨fun h => h ▸ Dest.ofCode_code d, Dest.code_of_ofCode⟩

theorem decode_rdrange_row (w : Word) :
    (∃ dst : Dest, dst.code = selField w ∧ decode w = .command (.rdrange dst (addrField w) (lenField w))) ↔
      w &&& 0xF0000000#32 = 0x30000000#32 ∧ (selField w).toNat ≤ 4 ∧ (lenField w).toNat ≤ 4096 := by
  rw [show 0xF0000000#32 = packWord (.allOnes 4) 0#3 0#13 0#12 from rfl,
    show 0x30000000#32 = packWord 3#4 0#3 0#13 0#12 from rfl, and_packWord_eq_iff, ← Dest.exists_code]
  simp only [decode_eq_command_iff, encode, packWord_eq_iff, BitVec.and_allOnes, BitVec.and_zero, and_true]
  constructor
  · rintro ⟨dst, hs, hl, ho, -⟩
    exact ⟨ho, ⟨dst, hs⟩, of_decide_eq_true hl⟩
  · rintro ⟨ho, ⟨dst, hs⟩, hl⟩
    exact ⟨dst, hs, decide_eq_true hl, ho, hs.symm⟩

theorem sel_and_four {c : BitVec 3} : c &&& 4#3 = 0#3 ↔ c.getLsbD 2 = false := by
  revert c
  decide

theorem sel_and_six {c : BitVec 3} : c &&& 6#3 = 0#3 ↔ c.extractLsb' 1 2 = 0#2 := by
  revert c
  decide

theorem addr_and_0xFFC {a : Addr} : a &&& 0xFFC#12 = 0#12 ↔ a.extractLsb' 2 10 = 0#10 := by
  have h : a &&& 0xFFC#12 = a.extractLsb' 2 10 ++ 0#2 := by
    conv_lhs => rw [← addr_bits a, show 0xFFC#12 = BitVec.allOnes 10 ++ 0#2 from rfl]
    exact BitVec.and_append.trans (by rw [BitVec.and_allOnes, BitVec.and_zero])
  rw [h]
  exact BitVec.append_left_inj (s₂ := 0#10) _

theorem decode_bufeq_row (w : Word) :
    (∃ a b : BufId, a.code = w.extractLsb' 25 2 ∧ b.code = w.extractLsb' 0 2 ∧
        decode w = .command (.bufeq a b (lenField w))) ↔ w &&& 0xF8000FFC#32 = 0x40000000#32 := by
  rw [show 0xF8000FFC#32 = packWord (.allOnes 4) 4#3 0#13 0xFFC#12 from rfl,
    show 0x40000000#32 = packWord 4#4 0#3 0#13 0#12 from rfl, and_packWord_eq_iff, sel_and_four, addr_and_0xFFC,
    ← sel_eq_append_index, ← addr_eq_append_index]
  have hs : (selField w).extractLsb' 0 2 = w.extractLsb' 25 2 := selField_extractLsb' w (i := 0) (by decide)
  have ha : (addrField w).extractLsb' 0 2 = w.extractLsb' 0 2 := addrField_extractLsb' w (by decide)
  simp only [decode_eq_command_iff, encode, packWord_eq_iff, hs, ha, BitVec.and_allOnes, BitVec.and_zero]
  constructor
  · rintro ⟨a, b, hac, hbc, -, ho, hsel, -, haddr⟩
    exact ⟨ho, by rw [← hac, hsel], trivial, by rw [← hbc, haddr]⟩
  · rintro ⟨ho, hsel, -, haddr⟩
    exact ⟨.ofCode _, .ofCode _, BufId.code_ofCode _, BufId.code_ofCode _, rfl, ho,
      by rw [BufId.code_ofCode, hsel], trivial, by rw [BufId.code_ofCode, haddr]⟩

theorem decode_fetrig_row (w : Word) :
    decode w = .command (.fetrig (w.getLsbD 25)) ↔ w &&& 0xFDFFFFFF#32 = 0x50000000#32 := by
  have hp : (selField w).getLsbD 0 = w.getLsbD 25 := selField_getLsbD w (i := 0) (by decide)
  rw [show 0xFDFFFFFF#32 = packWord (.allOnes 4) 6#3 (.allOnes 13) (.allOnes 12) from rfl,
    show 0x50000000#32 = packWord 5#4 0#3 0#13 0#12 from rfl, and_packWord_eq_iff, sel_and_six, ← sel_eq_append_bit,
    decode_eq_command_iff, encode, packWord_eq_iff, ← hp, eq_comm (a := selField w)]
  simp only [BitVec.and_allOnes]
  exact and_iff_right rfl

/-- Settles O4, row by row: the five with operands, then the seventeen that are one word each. -/
theorem decoderMatchesTheTable : Obligations.DecoderMatchesTheTable := by
  intro w
  refine ⟨decode_hotspot_row w, decode_rdbyte_row w, decode_rdrange_row w, decode_bufeq_row w, decode_fetrig_row w,
    ?_, ?_, ?_, ?_, ?_, ?_, ?_, ?_, ?_, ?_, ?_, ?_, ?_, ?_, ?_, ?_, ?_⟩ <;> exact decode_eq_command_iff_eq rfl rfl

/-! ### R68's list -/

/-- Settles O5, operation by operation: each tests the fields R68 lists for it, and its codes as above. -/
theorem illegalWordsExactly : Obligations.IllegalWordsExactly := by
  intro w
  have h27 : w.getLsbD 27 = (selField w).getLsbD 2 := (selField_getLsbD w (i := 2) (by decide)).symm
  have h26 : w.extractLsb' 26 2 = (selField w).extractLsb' 1 2 := (selField_extractLsb' w (i := 1) (by decide)).symm
  have h2 : w.extractLsb' 2 10 = (addrField w).extractLsb' 2 10 := (addrField_extractLsb' w (by decide)).symm
  rw [h27, h26, h2]
  rcases opCode_cases (opField w) with ho | ho | ho | ho | ho | ho | ho | ho | ho | ho
  · exact iff_of_true ⟨.op, decode_noOp ho⟩ (or_assoc.mp (.inl ho))
  · rw [decode_hotspot ho, guard_eq_illegal, guard_eq_illegal]
    simp [ho]
  · rw [decode_rdbyte ho, guard_eq_illegal, guard_eq_illegal]
    simp [ho]
  · rcases hd : Dest.ofCode (selField w) with _ | dst
    · simp [decode_rdrange_none ho hd, ho, Dest.ofCode_eq_none_iff.mp hd]
    · have hs : ¬5 ≤ (selField w).toNat := fun h => by simp [Dest.ofCode_eq_none_iff.mpr h] at hd
      rw [decode_rdrange_some ho hd, guard_eq_illegal]
      simp [ho, hs, Config.rangeMax]
  · rw [decode_bufeq ho, guard_eq_illegal, guard_eq_illegal]
    simp [ho]
  · rw [decode_fetrig ho, guard_eq_illegal, noLenNoAddr_eq_illegal]
    simp [ho]
  · rcases hp : Instr.ofPredicateCode (selField w) with _ | i
    · simp [decode_predicate_none ho hp, ho, Instr.ofPredicateCode_eq_none_iff.mp hp]
    · have hs : selField w ≠ 7#3 := fun h => by simp [Instr.ofPredicateCode_eq_none_iff.mpr h] at hp
      rw [decode_predicate_some ho hp, noLenNoAddr_eq_illegal]
      simp [ho, hs]
  · rw [decode_classify ho, guard_eq_illegal, noLenNoAddr_eq_illegal]
    simp [ho]
  · rw [decode_dump ho, guard_eq_illegal, noLenNoAddr_eq_illegal]
    simp [ho]
  · rw [decode_dumpk ho, noLenNoAddr_eq_illegal]
    simp [ho]

/-- Settles O1, word by word. -/
theorem writtenOutWordsDecode : Obligations.WrittenOutWordsDecode := by
  unfold Obligations.WrittenOutWordsDecode
  decide

end Sys2Proof

namespace Sys2Proof.Machine

/-! ### The command port (R72) -/

/-- Neither machine reaches the port of a faulted block, nor takes a word where none waits. -/
theorem step_tick_idle {s : State} (hr : s.rst = false) (hb : s.busy = false) (h : s.faulted = true ∨ s.cmds = []) :
    step s = .next s.idle ∧ tick s = .next s.idle := by
  rcases h with h | h <;> simp [step, State.advance, tick, hr, hb, h]

/-- Settles O8: an idle step is the end of the `done` pulse. -/
theorem idleOrFaultedBlockDoesNothing : Obligations.IdleOrFaultedBlockDoesNothing :=
  fun _ hr hb h => step_tick_idle hr hb h

/-- Settles O6: a ready block reaches the port and accepts the word first there. -/
theorem stepRunsTheDecodedCommand : Obligations.StepRunsTheDecodedCommand := by
  rintro s w ws i ⟨hr, hb, hf⟩ hw hi
  rw [← accept_eq hw]
  simp only [step, State.advance, State.takeCommand, hr, hb, hf, hw, hi, Bool.false_eq_true, if_false]

/-! ### While a command goes on (R72, R27) -/

/-- A field no release touches is as before where a command has not ended: only its end could write it. -/
theorem settle_field_of_busy {α : Type} (f : State → α) (hrelease : ∀ (p : Predicate) s, f (p.releaseAll s) = f s)
    {r : Routine} {s : State} (hb : (r.settle s).busy = true) : f (r.settle s) = f s :=
  settle_keeps (I := fun u => u.busy = true → f u = f s) (fun p u h hb => (hrelease p u).trans (h (by simpa using hb)))
    (fun _ _ _ _ => nofun) (fun _ => rfl) hb

/-- Settles O14: an event touches none of these registers, nor does a release, and a command that goes on has not
reached its last writes. -/
theorem resultsAreWrittenAtTheEnd : Obligations.ResultsAreWrittenAtTheEnd := by
  intro s t hr hb ht hbt
  obtain ⟨m, k, -, rfl⟩ := tick_busy hr hb ht
  have keeps {α : Type} (f : State → α) (hissue : ∀ m s, f (s.issue m) = f s)
      (hrelease : ∀ (p : Predicate) s, f (p.releaseAll s) = f s) : f (k.settle (s.issue m)) = f s :=
    (settle_field_of_busy f hrelease hbt).trans (hissue m s)
  exact ⟨keeps State.kind issue_kind releaseAll_kind, keeps State.res issue_res releaseAll_res,
    keeps State.faulted issue_faulted releaseAll_faulted, keeps State.err issue_err releaseAll_err,
    keeps State.faultCmd issue_faultCmd releaseAll_faultCmd, keeps State.curCmd issue_curCmd releaseAll_curCmd,
    keeps State.cmds issue_cmds releaseAll_cmds⟩

/-! ### A step of a ready block whose command completes -/

@[simp] theorem run_outAvail (r : Routine) (s : State) : (r.run s).outAvail = s.outAvail :=
  run_field State.outAvail (by simp) (by simp) (by simp) s

@[simp] theorem run_rst (r : Routine) (s : State) : (r.run s).rst = s.rst :=
  run_field State.rst (by simp) (by simp) (by simp) s

/-- A ready block runs the course of a command that passes its checks, and is ready for the next word (log 24). -/
theorem step_runs {s : State} {i : Instr} {ws : List Word} {r : Routine} (hs : s.ready) (hw : s.cmds = encode i :: ws)
    (hwf : i.wellFormed = true) (hc : checkOf i (s.accepted (encode i) ws) = none) (hr : routineOf i s.kind = some r) :
    step s = .next (r.run (s.accepted (encode i) ws)) ∧ (r.run (s.accepted (encode i) ws)).ready ∧
      (r.run (s.accepted (encode i) ws)).cmds = ws := by
  obtain ⟨hrst, hb, hf⟩ := hs
  refine ⟨?_, ⟨?_, (run_ends r _).1, ?_⟩, run_cmds r _⟩
  · rw [stepRunsTheDecodedCommand s _ ws i ⟨hrst, hb, hf⟩ hw (decodeOfEncode i hwf)]
    exact exec_of_checked hc hr
  · exact (run_rst r _).trans hrst
  · exact (run_faultRegisters r _).1.trans hf

/-- A ready block takes the fault of a command that does not. -/
theorem step_faults {s : State} {i : Instr} {ws : List Word} {e : ErrCode} (hs : s.ready) (hw : s.cmds = encode i :: ws)
    (hwf : i.wellFormed = true) (hc : checkOf i (s.accepted (encode i) ws) = some e) :
    step s = .next ((s.accepted (encode i) ws).raise e) := by
  rw [stepRunsTheDecodedCommand s _ ws i hs hw (decodeOfEncode i hwf), exec_eq, hc]

/-! ### QUERY (R74) -/

theorem hotspotRoutine_issued (addr : Addr) (s : State) :
    s.issued ((hotspotRoutine addr).run s) (hotspotTrace addr) := by
  obtain ⟨hi, -⟩ := hotspot_spec (ms := assertHotspot addr) rfl s
  rw [hotspotRoutine, run_plain]
  exact issued_complete.mpr hi

theorem rdbyteRoutine_issued (addr : Addr) (s : State) :
    ∃ b, s.issued ((rdbyteRoutine addr).run s) [.wa addr, .dly, .rd b] ∧ ((rdbyteRoutine addr).run s).res = b := by
  obtain ⟨b, hi, hb, -⟩ := readByte_spec (ms := readByte addr .hold) rfl s
  rw [rdbyteRoutine, run_events, run_finish]
  exact ⟨b, issued_complete.mpr ((writeBack_issued _).mpr hi), hb⟩

/-- Settles O41: HOTSPOT leaves the block ready for RDBYTE, and each issues its own events. -/
theorem queryReadsTheByte : Obligations.QueryReadsTheByte := by
  intro s addr ws hs hw
  obtain ⟨ht, htready, htcmds⟩ := step_runs hs hw rfl rfl rfl
  obtain ⟨hu, huready, hucmds⟩ := step_runs htready htcmds rfl rfl rfl
  obtain ⟨htrace, -⟩ := hotspotRoutine_issued addr (s.accepted (encode (.hotspot addr)) (encode (.rdbyte addr) :: ws))
  obtain ⟨b, ⟨hutrace, -⟩, hres⟩ := rdbyteRoutine_issued addr _
  exact ⟨_, _, b, ht, hu, huready, hucmds, hutrace.trans (congrArg (· ++ _) htrace), hres⟩

/-! ### SESSION (R73) -/

/-- CLASSIFY's longest way is past all six predicates (R96, R148). -/
theorem classifyRoutine_longest : classifyRoutine.longest = 6208 := by
  simp [classifyRoutine, Predicate.ask, Routine.longest, Predicate.micros, numberCalls_length, isE0Calls, isE7Calls,
    isF6Calls, isF8Calls, is2KCalls, isFECalls, window, readRange, rangeTurns_length, assertHotspot, feTrigger,
    Config.nCompares]

/-- CLASSIFY ends with a verdict, and it is not F4 (R95, R98): until its last write the command is in progress. -/
theorem classifyRoutine_kind {s : State} (hb : s.busy = true) :
    ∃ k, (classifyRoutine.run s).kind = some k ∧ k ≠ .f4 := by
  have verdict : ∀ w ∈ classifyRoutine.ends, ∃ k, w = .verdict k ∧ k ≠ .f4 := by simp [classifyRoutine]
  refine run_keeps (I := fun u => u.busy = false → ∃ k, u.kind = some k ∧ k ≠ .f4) (by simp) (by simp) ?_
    (by simp [hb]) (run_ends classifyRoutine s).1
  intro w u hw _ _
  obtain ⟨k, rfl, hk⟩ := verdict w hw
  exact ⟨k, rfl, hk⟩

/-- The block emits one byte with every EMIT it issues (R47). -/
theorem issueAll_out_length (ms : List Micro) (s : State) :
    (State.issueAll ms s).out.length = s.out.length + (actionsOf ms).count .emit := by
  induction ms generalizing s with
  | nil => rfl
  | cons m ms ih =>
    have hm : (s.issue m).out.length = s.out.length + if m.act = .emit then 1 else 0 := by
      rw [State.issue]
      cases m.act <;> simp [State.act, State.out]
    rw [issueAll_cons, ih, hm, actionsOf_cons, List.count_cons, Nat.add_assoc, Nat.add_comm (List.count _ _)]
    simp only [beq_iff_eq]

theorem numberCalls_emits (n : Nat) (cs : List (List Micro)) :
    (actionsOf (numberCalls n cs)).count .emit = (cs.map fun c => (actionsOf c).count .emit).sum := by
  rw [numberCalls_actions, List.count_flatten, List.map_map]
  rfl

theorem rangeOut_emits (n left : Nat) (a : Addr) : (actionsOf (rangeTurns .out n a left)).count .emit = left := by
  induction left generalizing a with
  | zero => rfl
  | succ left ih =>
    rw [rangeTurns, actionsOf_append, actionsOf_inTurn, List.count_append, ih]
    simp [rangeTurn, readByte, Micro.plain, Nat.add_comm]

theorem assertHotspot_emits (addr : Addr) : (actionsOf (assertHotspot addr)).count .emit = 0 := rfl

theorem feTrigger_emits (p : Level) : (actionsOf (feTrigger p)).count .emit = 0 := rfl

theorem banksFrom_emits (n : Nat) (h : Addr) (count : Nat) :
    ((banksFrom n h count).map fun c => (actionsOf c).count .emit).sum = count * n := by
  induction count generalizing h with
  | zero => simp [banksFrom]
  | succ count ih =>
    simp [banksFrom, bankCalls, readRange, rangeOut_emits, assertHotspot_emits, ih]
    ring

/-- A plan emits as many bytes as the kind's dump has (R110). -/
theorem planMicros_emits (k : MapperKind) : (actionsOf (planMicros k)).count .emit = dumpSize k := by
  rw [planMicros, numberCalls_emits]
  cases k <;> simp [planOf, plan2K, plan4K, planE0, planE7, planF4, planF6, planF8, planFE, banksFrom_emits, dumpSize,
    readRange, rangeOut_emits, feTrigger_emits]

theorem dumpRoutine_longest (k : MapperKind) : (dumpRoutine k).longest = (planCount k).1 := by
  rw [dumpRoutine, longest_events, planMicros_length]
  rfl

/-- A dump emits its kind's bytes after those already there (R100, R110). -/
theorem dumpRoutine_out (k : MapperKind) (s : State) :
    s.out <+: ((dumpRoutine k).run s).out ∧ ((dumpRoutine k).run s).out.length = s.out.length + dumpSize k := by
  obtain ⟨es, hi, -⟩ := run_issued (dumpRoutine k) s
  refine ⟨⟨emittedOf es, (issued_out hi).symm⟩, ?_⟩
  rw [dumpRoutine, run_plain, ← planMicros_emits]
  exact issueAll_out_length (planMicros k) s

theorem dumpRoutine_kind (k : MapperKind) (s : State) : ((dumpRoutine k).run s).kind = s.kind :=
  run_kind (by simp [dumpRoutine]) s

theorem classifyRoutine_output (s : State) :
    (classifyRoutine.run s).out = s.out ∧ (classifyRoutine.run s).outCursor = s.outCursor := by
  obtain ⟨hrev, hcursor⟩ := run_output (course_noEmit .classify nofun (fun k => by cases k <;> nofun) nofun) s
  exact ⟨out_congr hrev, hcursor⟩

theorem run_trace_length {r : Routine} {n : Nat} (hn : r.longest = n) (s : State) :
    (r.run s).trace.length ≤ s.trace.length + n := by
  obtain ⟨es, ⟨htrace, -⟩, hlen⟩ := run_issued r s
  rw [htrace, List.length_append]
  exact Nat.add_le_add_left (hlen.trans_eq hn) _

/-- CLASSIFY with no verdict completes, emits nothing, and leaves the block ready with a verdict that is not F4 (R95,
R98, R148). -/
theorem step_classify {s : State} {ws : List Word} (hs : s.ready) (hw : s.cmds = encode .classify :: ws)
    (hk : s.kind = none) :
    ∃ t, step s = .next t ∧ t.ready ∧ t.cmds = ws ∧ (∃ k, t.kind = some k ∧ k ≠ .f4) ∧ t.outAvail = s.outAvail ∧
      t.out = s.out ∧ t.outCursor = s.outCursor ∧ t.trace.length ≤ s.trace.length + 6208 := by
  have hc : checkOf .classify (s.accepted (encode .classify) ws) = none := by
    simp [checkOf, classifyCheck, State.kindValid, State.accepted, hk]
  obtain ⟨ht, hready, hcmds⟩ := step_runs hs hw rfl hc rfl
  obtain ⟨hout, hcursor⟩ := classifyRoutine_output (s.accepted (encode .classify) ws)
  exact ⟨_, ht, hready, hcmds, classifyRoutine_kind rfl, run_outAvail _ _, hout, hcursor,
    run_trace_length classifyRoutine_longest _⟩

/-- DUMP with a verdict and a destination ends well (R101, R115, R148). -/
theorem step_dump {s : State} {ws : List Word} {k : MapperKind} (hs : s.ready) (hw : s.cmds = encode .dump :: ws)
    (hk : s.kind = some k) (ho : s.outAvail = true) :
    ∃ t, step s = .next t ∧ s.endedWell t ∧ t.cmds = ws ∧ t.trace.length ≤ s.trace.length + (planCount k).1 := by
  have hc : checkOf .dump (s.accepted (encode .dump) ws) = none := by
    simp [checkOf, dumpkCheck, destMissing, State.kindValid, State.accepted, hk, ho]
  obtain ⟨ht, ⟨-, hb, hf⟩, hcmds⟩ := step_runs hs hw rfl hc (congrArg (Option.map dumpRoutine) hk)
  obtain ⟨hpre, hlen⟩ := dumpRoutine_out k (s.accepted (encode .dump) ws)
  exact ⟨_, ht, ⟨hb, hf, k, (dumpRoutine_kind k _).trans hk, hpre, hlen⟩, hcmds,
    run_trace_length (dumpRoutine_longest k) _⟩

/-- No plan but F4's has more events than E7's (R148). -/
theorem planCount_le {k : MapperKind} (hk : k ≠ .f4) : (planCount k).1 ≤ 65571 := by
  cases k with
  | f4 => exact absurd rfl hk
  | e0 | e7 | f6 | f8 | fe | k2 | k4 => decide

/-- Settles O40: CLASSIFY leaves the block ready for DUMP, which runs its plan or faults at its check; a CLASSIFY that
faults leaves a block that accepts nothing. -/
theorem sessionEndsWell : Obligations.SessionEndsWell := by
  intro s ws hs hw
  have hw : s.cmds = encode .classify :: encode .dump :: ws := hw
  refine ⟨fun hk ho => ?_, fun hk ho => ?_, fun hk => ?_⟩
  · obtain ⟨t, ht, hready, hcmds, ⟨k, hkind, hf4⟩, hoa, -, -, htlen⟩ := step_classify hs hw hk
    obtain ⟨u, hu, hwell, hucmds, hulen⟩ := step_dump hready hcmds hkind (hoa.trans ho)
    have hplan := planCount_le hf4
    exact ⟨t, u, ht, hu, hwell, hucmds, by omega⟩
  · obtain ⟨t, ht, hready, hcmds, ⟨k, hkind, -⟩, hoa, hout, hcursor, -⟩ := step_classify hs hw hk
    have hc : checkOf .dump (t.accepted (encode .dump) ws) = some .noDest := by
      simp [checkOf, dumpkCheck, destMissing, State.kindValid, State.accepted, hkind, hoa, ho]
    have hu := step_faults hready hcmds rfl hc
    obtain ⟨-, -, hf⟩ := hready
    exact ⟨t, _, ht, hu, hf, by simp [hkind], hout, rfl, rfl, rfl, rfl, rfl, rfl, rfl, hout, hcursor⟩
  · have hc : checkOf .classify (s.accepted (encode .classify) (encode .dump :: ws)) = some .reclassify := by
      simpa [checkOf, classifyCheck, State.kindValid, State.accepted, Option.isSome_iff_ne_none] using hk
    have ht := step_faults hs hw rfl hc
    have hrst : ((s.accepted (encode .classify) (encode .dump :: ws)).raise .reclassify).rst = false := hs.1
    obtain ⟨hu, -⟩ := step_tick_idle hrst rfl (.inl rfl)
    exact ⟨_, _, ht, hu, rfl, rfl, rfl, rfl⟩

end Sys2Proof.Machine

namespace Sys2Proof.Machine

/-! ### All that a course leaves behind

What the events of a run do to the lines, and which fields no course writes, are said once for every course. A
command's frame is then this lemma with the fields it does not write put back. -/

/-- The bus registers follow all the events of a course's run. -/
theorem run_linesFollow {r : Routine} {s : State} {es : List Event} (h : s.issued (r.run s) es) :
    s.linesFollow (r.run s) es := by
  suffices ∃ fs, s.issued (r.run s) fs ∧ s.linesFollow (r.run s) fs by
    obtain ⟨fs, hi, hl⟩ := this
    exact issued_unique hi h ▸ hl
  clear h
  induction r generalizing s with
  | finish w =>
    exact ⟨[], issued_complete.mpr ((writeBack_issued w).mpr (issued_refl s)), by
      simp [State.linesFollow, addrAfter, csAfter, oeAfter, outAfter]⟩
  | event m k ih =>
    obtain ⟨fs, hi, hl⟩ := ih (s := s.issue m)
    exact ⟨_ :: fs, issued_trans (issue_issued m s) hi, linesFollow_trans (issue_linesFollow m s) hl⟩
  | test p yes no ihy ihn =>
    have hp : s.issued (p.releaseAll s) [] := (releaseAll_issued p).mpr (issued_refl s)
    have hl : s.linesFollow (p.releaseAll s) [] := (releaseAll_linesFollow p).mpr (linesFollow_refl s)
    rw [run_test]
    split
    · obtain ⟨fs, gi, gl⟩ := ihy (s := p.releaseAll s)
      exact ⟨fs, issued_trans hp gi, linesFollow_trans hl gl⟩
    · obtain ⟨fs, gi, gl⟩ := ihn (s := p.releaseAll s)
      exact ⟨fs, issued_trans hp gi, linesFollow_trans hl gl⟩

/-- `s` after a command that issued `es`: the lines stand where the events left them, and the verdict, RES, the compare
buffers, the named cursors and the output are those of `t`. -/
def State.ranTo (s t : State) (es : List Event) : State :=
  { s.endedAs t with
    kind := t.kind
    res := t.res
    b0 := t.b0
    b1 := t.b1
    b2 := t.b2
    b3 := t.b3
    a := addrAfter s.a es
    csN := csAfter s.csN es
    d5Oe := oeAfter s.d5Oe es
    d5Out := outAfter s.d5Out es
    hsCur := t.hsCur
    aCur := t.aCur
    nLeft := t.nLeft
    stage := t.stage
    outCursor := t.outCursor
    outRev := t.outRev }

/-- The frame of every course (R16, R17, R26, R45, R72, R124). -/
theorem run_eq_ranTo {r : Routine} {s : State} {es : List Event} (h : s.issued (r.run s) es) :
    r.run s = s.ranTo (r.run s) es := by
  obtain ⟨ha, hcs, hoe, hout⟩ := run_linesFollow h
  obtain ⟨hbusy, hdone⟩ := run_ends r s
  obtain ⟨hf, he, hc⟩ := run_faultRegisters r s
  have hdir : (r.run s).busDir = s.busDir := run_field State.busDir (by simp) (by simp) (by simp) s
  have hcur : (r.run s).curCmd = s.curCmd := run_field State.curCmd (by simp) (by simp) (by simp) s
  have hses : (r.run s).earlierSessions = s.earlierSessions :=
    run_field State.earlierSessions (by simp) (by simp) (by simp) s
  ext1 <;> simp [State.ranTo, State.endedAs, *]

/-- The same four buffers, by field. -/
theorem fields_of_buffer {s t : State} (h : ∀ k, t.buffer k = s.buffer k) :
    t.b0 = s.b0 ∧ t.b1 = s.b1 ∧ t.b2 = s.b2 ∧ t.b3 = s.b3 :=
  ⟨h .b0, h .b1, h .b2, h .b3⟩

/-- A last write that sets no buffer's length leaves the buffers. -/
theorem writeBack_buffer {w : WriteBack} (h : ∀ k n, w ≠ .length k n) (s : State) (k : BufId) :
    (s.writeBack w).buffer k = s.buffer k := by
  cases w with
  | length j n => exact absurd rfl (h j n)
  | nothing | sample | bool | equal | verdict => cases k <;> rfl

/-- A course of events that take no sample into a buffer, and that ends without setting a length, leaves the buffers. -/
theorem events_buffer {ms : List Micro} {w : WriteBack} (hcell : ∀ x ∈ actionsOf ms, ∀ k i n, x ≠ .rd (.cell k i n))
    (hw : ∀ k n, w ≠ .length k n) (s : State) (k : BufId) :
    ((Routine.events ms (.finish w)).run s).buffer k = s.buffer k := by
  rw [run_events, run_finish, complete_buffer, writeBack_buffer hw, issueAll_buffer hcell]

/-- Events that belong to no call of a predicate or a plan leave STAGE and HS_CUR (R22). -/
theorem events_cursors {ms : List Micro} (h : ∀ m ∈ ms, m.hotspot = none ∧ m.stage = none) (w : WriteBack) (s : State) :
    ((Routine.events ms (.finish w)).run s).hsCur = s.hsCur ∧
      ((Routine.events ms (.finish w)).run s).stage = s.stage := by
  simp [issueAll_hsCur fun m hm => (h m hm).1, issueAll_stage fun m hm => (h m hm).2]

/-- Events outside a range read leave A_CUR and N_LEFT too. -/
theorem events_range {ms : List Micro} (h : ∀ m ∈ ms, m.range = none) (w : WriteBack) (s : State) :
    ((Routine.events ms (.finish w)).run s).aCur = s.aCur ∧
      ((Routine.events ms (.finish w)).run s).nLeft = s.nLeft := by
  simpa using issueAll_range h s

/-- A command whose check fails takes that fault (R124, R125). -/
theorem exec_of_failedCheck {i : Instr} {s : State} {e : ErrCode} (hc : checkOf i s = some e) :
    exec i s = .next (s.faultedWith e.code) := by
  simp only [exec_eq, hc, raise_eq]

/-! ### HOTSPOT, RDBYTE and FETRIG (R76, R77, R82) -/

/-- A course of events that move no named cursor, take no sample into a buffer and emit nothing, and that ends with
nothing or with its sample in RES, changes only the lines and RES. -/
theorem plainCourse_frame {r : Routine} {ms : List Micro} {w : WriteBack} {s : State} {es : List Event} {b : Byte}
    (hr : r = Routine.events ms (.finish w)) (hplain : ∀ m ∈ ms, m.hotspot = none ∧ m.stage = none ∧ m.range = none)
    (hact : ∀ x ∈ actionsOf ms, (∀ k i n, x ≠ .rd (.cell k i n)) ∧ x ≠ .emit) (hw : w = .nothing ∨ w = .sample)
    (hi : s.issued (r.run s) es) (hres : (r.run s).res = b) :
    r.run s = { s.endedAs (r.run s) with
      a := addrAfter s.a es, csN := csAfter s.csN es, d5Oe := oeAfter s.d5Oe es, d5Out := outAfter s.d5Out es,
      res := b } := by
  subst hr
  have hlen : ∀ k n, w ≠ .length k n := by rcases hw with rfl | rfl <;> nofun
  have hkind := run_kind (r := Routine.events ms (.finish w)) (by rcases hw with rfl | rfl <;> simp) s
  obtain ⟨hhs, hstage⟩ := events_cursors (fun m hm => ⟨(hplain m hm).1, (hplain m hm).2.1⟩) w s
  obtain ⟨hacur, hleft⟩ := events_range (fun m hm => (hplain m hm).2.2) w s
  obtain ⟨hrev, hcursor⟩ := run_output (r := Routine.events ms (.finish w)) (by simpa using fun x hx => (hact x hx).2) s
  obtain ⟨h0, h1, h2, h3⟩ := fields_of_buffer (events_buffer (fun x hx => (hact x hx).1) hlen s)
  refine (run_eq_ranTo hi).trans ?_
  rw [State.ranTo, hkind, hres, hhs, hstage, hacur, hleft, hrev, hcursor, h0, h1, h2, h3]
  rfl

/-- Settles O17: after HOTSPOT's five events the lines stand where R76 says. -/
theorem hotspotResult : Obligations.HotspotResult := by
  intro addr s
  have hi := hotspotRoutine_issued addr s
  have hres : ((hotspotRoutine addr).run s).res = s.res := run_res (by simp [hotspotRoutine, WriteBack.leavesRes]) s
  exact ⟨rfl, _, exec_of_checked rfl rfl, hi,
    plainCourse_frame rfl (assertHotspot_plain addr) (by simp [assertHotspot, Micro.plain]) (.inl rfl) hi hres⟩

/-- Settles O18: RDBYTE's last write is its sample. -/
theorem rdbyteResult : Obligations.RdbyteResult := by
  intro addr s
  obtain ⟨b, hi, hres⟩ := rdbyteRoutine_issued addr s
  exact ⟨rfl, _, b, exec_of_checked rfl rfl, hi,
    plainCourse_frame rfl (readByte_plain addr .hold) (by simp [readByte, Micro.plain]) (.inr rfl) hi hres⟩

theorem fetrigRoutine_issued (p : Level) (s : State) : s.issued ((fetrigRoutine p).run s) (feTrace p) := by
  obtain ⟨hi, -⟩ := feTrigger_spec (ms := feTrigger p) rfl s
  rw [fetrigRoutine, run_plain]
  exact issued_complete.mpr hi

/-- Settles O24: after FETRIG's twelve events the lines stand where R82 says. -/
theorem fetrigResult : Obligations.FetrigResult := by
  intro p s
  have hi := fetrigRoutine_issued p s
  have hres : ((fetrigRoutine p).run s).res = s.res := run_res (by simp [fetrigRoutine, WriteBack.leavesRes]) s
  have hsel : encode (.fetrig p) = packWord 5#4 (if p then 1#3 else 0#3) 0#13 0#12 := by cases p <;> rfl
  exact ⟨hsel, _, exec_of_checked rfl rfl, hi,
    plainCourse_frame rfl (feTrigger_plain p) (by simp [feTrigger, Micro.plain]) (.inl rfl) hi hres⟩

/-! ### RDRANGE (R78, R79) -/

/-- RDRANGE to a buffer fails its check exactly for a length beyond the buffer's capacity. -/
theorem checkOf_rdrangeBuf (k : BufId) (addr : Addr) (len : Len) (s : State) :
    checkOf (.rdrange (.buf k) addr len) s = if 128 < len.toNat then some .bufLen else none := by
  by_cases h : 128 < len.toNat <;> simp [checkOf, rdrangeCheck, overCapacity, destMissing, Config.bufCap, h]

/-- RDRANGE to OUT fails its check exactly where there is no destination. -/
theorem checkOf_rdrangeOut (addr : Addr) (len : Len) (s : State) :
    checkOf (.rdrange .out addr len) s = if s.outAvail then none else some .noDest := by
  cases h : s.outAvail <;> simp [checkOf, rdrangeCheck, overCapacity, destMissing, h]

/-- Settles O21: each destination has its one check. -/
theorem rdrangeFaults : Obligations.RdrangeFaults := fun addr len s =>
  ⟨fun k h => exec_of_failedCheck (e := .bufLen) (by rw [checkOf_rdrangeBuf, if_pos h]),
   fun h => exec_of_failedCheck (e := .noDest) (by rw [checkOf_rdrangeOut, h]; rfl)⟩

/-- RDRANGE that passes its check changes only the lines, the buffers, A_CUR and N_LEFT, and the output. -/
theorem rdrangeRoutine_frame {dst : Dest} {addr : Addr} {len : Len} {s : State} {es : List Event}
    (hi : s.issued ((rdrangeRoutine dst addr len).run s) es) :
    (rdrangeRoutine dst addr len).run s =
      { s.ranTo ((rdrangeRoutine dst addr len).run s) es with
        kind := s.kind, res := s.res, hsCur := s.hsCur, stage := s.stage } := by
  have hkind := run_kind (course_noVerdict (.rdrange dst addr len) nofun) s
  have hres := run_res (routineOf_leavesRes (kind := s.kind) (.inr (.inr (.inl ⟨dst, addr, len, rfl⟩))) rfl) s
  obtain ⟨hhs, hstage⟩ := events_cursors (rangeTurns_plain dst len.toNat addr len.toNat) (rdrangeWriteBack dst len) s
  rw [← hkind, ← hres, ← hhs, ← hstage]
  exact run_eq_ranTo hi

/-- OUT_CURSOR counts the bytes a run emitted (R24). -/
theorem issued_outCursor {s t : State} {es : List Event} (h : s.issued t es) :
    t.outCursor = s.outCursor + BitVec.ofNat 32 (emittedOf es).length := by
  obtain ⟨-, -, -, -, -, -, -, hcursor⟩ := h
  exact hcursor

/-- A range read to a buffer leaves the other three (R78). -/
theorem rdrangeBuf_otherBuffers {k j : BufId} (hj : j ≠ k) (addr : Addr) {len : Len} (hlen : len.toNat ≤ 128)
    (s : State) : ((rdrangeRoutine (.buf k) addr len).run s).buffer j = s.buffer j := by
  obtain ⟨bs, -, -, hother, -⟩ := rangeBuf_spec k len.toNat len.toNat hlen (Nat.le_refl _) addr rfl s
  simpa [rdrangeRoutine, rdrangeWriteBack, State.writeBack, buffer_setBuffer, hj, readRange] using hother j hj

/-- Settles O19: the buffer holds its samples (`exec_rdrangeBuf`); no other buffer and no output is written, and a
range read names no line but A. -/
theorem rdrangeToBuffer : Obligations.RdrangeToBuffer := by
  intro k addr len s hlen
  have hc : checkOf (.rdrange (.buf k) addr len) s = none := by rw [checkOf_rdrangeBuf, if_neg (by omega)]
  obtain ⟨t, bs, ht, hl, hi, hholds⟩ := exec_rdrangeBuf k addr hlen s
  cases (exec_of_checked hc rfl).symm.trans ht
  have hdumpk (j : MapperKind) : Instr.rdrange (.buf k) addr len ≠ .dumpk j := by cases j <;> simp [Instr.dumpk]
  obtain ⟨hrev, hcursor⟩ := run_output (course_noEmit (.rdrange (.buf k) addr len) nofun hdumpk (by simp)) s
  refine ⟨_, bs, ht, hl, hi, hholds, fun j hj => rdrangeBuf_otherBuffers hj addr hlen s, ?_⟩
  refine (rdrangeRoutine_frame hi).trans ?_
  rw [State.ranTo, hrev, hcursor, readTrace_addr, readTrace_cs, readTrace_oe, readTrace_d5Out, hl]
  rfl

/-- Settles O20: a range read to OUT emits its samples, writes no buffer, and names no line but A. -/
theorem rdrangeToOut : Obligations.RdrangeToOut := by
  intro addr len s ho
  have hc : checkOf (.rdrange .out addr len) s = none := by rw [checkOf_rdrangeOut, if_pos ho]
  obtain ⟨t, bs, ht, hl, hi⟩ := exec_rdrangeOut addr len ho
  cases (exec_of_checked hc rfl).symm.trans ht
  obtain ⟨h0, h1, h2, h3⟩ := fields_of_buffer (t := (rdrangeRoutine .out addr len).run s)
    (events_buffer (w := .nothing) (rangeOut_noCell len.toNat len.toNat addr) nofun s)
  refine ⟨_, bs, ht, hl, hi, by simpa using issued_out hi, by simpa [hl] using issued_outCursor hi, ?_⟩
  refine (rdrangeRoutine_frame hi).trans ?_
  rw [State.ranTo, h0, h1, h2, h3, dumpTrace_addr, dumpTrace_cs, dumpTrace_oe, dumpTrace_d5Out, hl]
  rfl

/-! ### BUFEQ (R80, R81) -/

/-- BUFEQ's check (R81). -/
theorem checkOf_bufeq (a b : BufId) (len : Len) (s : State) :
    checkOf (.bufeq a b len) s =
      if (s.buffer a).len.toNat < len.toNat ∨ (s.buffer b).len.toNat < len.toNat then some .bufLen else none := by
  simp [checkOf, bufeqCheck, tooLong]

theorem buffersEqual_iff (s : State) (a b : BufId) (n : Nat) :
    s.buffersEqual a b n = true ↔ ∀ i, i < n → (s.buffer a).cells[i]? = (s.buffer b).cells[i]? := by
  simp [State.buffersEqual, cellsEqual_iff]

/-- Settles O23: BUFEQ's check is the two lengths, and its course has no event and ends with the comparison. -/
theorem bufeqResult : Obligations.BufeqResult := by
  intro a b len s
  refine ⟨rfl, fun ha hb => ⟨s.buffersEqual a b len.toNat, ?_, buffersEqual_iff s a b len.toNat⟩, fun h => ?_⟩
  · have hc : checkOf (.bufeq a b len) s = none := by rw [checkOf_bufeq, if_neg (by omega)]
    exact exec_of_checked hc rfl
  · exact exec_of_failedCheck (e := .bufLen) (by rw [checkOf_bufeq, if_pos h])

end Sys2Proof.Machine

namespace Sys2Proof.Machine

/-! ### What a predicate's events come to (R87 to R93)

The level each line is left at, and the events and settle delays, are told by the predicate alone: its windows have
128 bytes each, whatever the bytes are. -/

@[simp] theorem delaysOf_append (xs ys : List Event) : delaysOf (xs ++ ys) = delaysOf xs + delaysOf ys := by
  induction xs with
  | nil => simp [delaysOf]
  | cons x xs ih => cases x <;> simp [delaysOf, ih, Nat.add_right_comm]

@[simp] theorem hotspotTrace_delays (a : Addr) : delaysOf (hotspotTrace a) = 2 := rfl

@[simp] theorem feTrace_delays (p : Level) : delaysOf (feTrace p) = 4 := rfl

/-- A range read waits once for every byte (R78). -/
@[simp] theorem readTrace_delays (a : Addr) (bs : List Byte) : delaysOf (readTrace a bs) = bs.length := by
  induction bs generalizing a with
  | nil => rfl
  | cons b bs ih => simp [readTrace, delaysOf, ih]

/-- A after a predicate: the last byte of its last window. -/
def Predicate.addrEnd : Predicate → Addr
  | .isE0 => 0xC7F#12
  | .isE7 | .is2K => 0x87F#12
  | .isF4 | .isF6 | .isF8 | .isFE => 0x07F#12

/-- CS_N after a predicate that finds it at `l`: only is2K selects nothing (R92). -/
def Predicate.csEnd (p : Predicate) (l : Level) : Level :=
  match p with
  | .is2K => l
  | .isE0 | .isE7 | .isF4 | .isF6 | .isF8 | .isFE => true

/-- D5_OE and D5_OUT after a predicate that finds them at `l`: only isFE drives data line 5, low at last (R93). -/
def Predicate.d5End (p : Predicate) (l : Level) : Level :=
  match p with
  | .isFE => false
  | .isE0 | .isE7 | .isF4 | .isF6 | .isF8 | .is2K => l

/-- The events and the settle delays of a predicate (R87 to R93, R148). -/
def Predicate.counts : Predicate → Nat × Nat
  | .isE0 | .isE7 => (1546, 516)
  | .isF4 | .isF6 | .isF8 => (778, 260)
  | .is2K => (768, 256)
  | .isFE => (792, 264)

/-- The windows of a predicate that reads four. -/
theorem fits_of_four {p : Predicate} {w : Windows} (h : p.windowCount = 4) (hw : p.fits w) :
    w.w0.length = 128 ∧ w.w1.length = 128 ∧ w.w2.length = 128 ∧ w.w3.length = 128 := by
  simpa only [Predicate.fits, if_pos h] using hw

/-- The windows of a predicate that reads two. -/
theorem fits_of_two {p : Predicate} {w : Windows} (h : p.windowCount = 2) (hw : p.fits w) :
    ∃ x y, w = ⟨x, y, [], []⟩ ∧ x.length = 128 ∧ y.length = 128 := by
  obtain ⟨x, y, w2, w3⟩ := w
  obtain ⟨hx, hy, hrest⟩ := hw
  rw [if_neg (by omega)] at hrest
  obtain ⟨rfl, rfl⟩ := hrest
  exact ⟨x, y, rfl, hx, hy⟩

theorem windowCount_cases (p : Predicate) : p.windowCount = 4 ∨ p.windowCount = 2 := by
  cases p <;> decide

theorem seen_addr {p : Predicate} {w : Windows} (h : p.fits w) (a : Addr) : addrAfter a (p.seen w) = p.addrEnd := by
  cases p with
  | isE0 | isE7 =>
    obtain ⟨-, -, -, h3⟩ := fits_of_four rfl h
    simp [Predicate.seen, h3, lastAddr, Predicate.addrEnd]
  | isF4 | isF6 | isF8 | is2K | isFE =>
    obtain ⟨-, h1, -⟩ := h
    simp [Predicate.seen, h1, lastAddr, Predicate.addrEnd]

theorem seen_csEnd (p : Predicate) (w : Windows) (l : Level) : csAfter l (p.seen w) = p.csEnd l := by
  cases p <;> simp [Predicate.seen, Predicate.csEnd]

theorem seen_oeEnd (p : Predicate) (w : Windows) (l : Level) : oeAfter l (p.seen w) = p.d5End l := by
  cases p <;> simp [Predicate.seen, Predicate.d5End]

theorem seen_outEnd (p : Predicate) (w : Windows) (l : Level) : outAfter l (p.seen w) = p.d5End l := by
  cases p <;> simp [Predicate.seen, Predicate.d5End]

theorem seen_counts {p : Predicate} {w : Windows} (h : p.fits w) :
    ((p.seen w).length, delaysOf (p.seen w)) = p.counts := by
  cases p with
  | isE0 | isE7 =>
    obtain ⟨h0, h1, h2, h3⟩ := fits_of_four rfl h
    simp [Predicate.seen, h0, h1, h2, h3, Predicate.counts]
  | isF4 | isF6 | isF8 | is2K | isFE =>
    obtain ⟨h0, h1, -⟩ := h
    simp [Predicate.seen, h0, h1, Predicate.counts]

/-! ### The run of a course of the classifier -/

/-- Every compare buffer is released (R19). -/
def State.allReleased (s : State) : Prop := ∀ k, (s.buffer k).len = 0#8

/-- After a predicate every buffer it filled is released, and the others are as they were (R86). -/
theorem allReleased_of_ask {p : Predicate} {s u : State} (hu : u = p.releaseAll (State.issueAll p.micros s))
    (hkeep : p.windowCount = 2 → u.b2 = s.b2 ∧ u.b3 = s.b3) (h : s.allReleased ∨ p.windowCount = 4) :
    u.allReleased := by
  obtain ⟨h0, h1, h23⟩ := releaseAll_lengths p (State.issueAll p.micros s)
  rw [← hu] at h0 h1 h23
  have rest : u.b2.len = 0#8 ∧ u.b3.len = 0#8 := by
    rcases windowCount_cases p with h4 | h2
    · exact h23 h4
    · obtain ⟨e2, e3⟩ := hkeep h2
      have hs : s.allReleased := h.resolve_right (by omega)
      exact ⟨e2 ▸ hs .b2, e3 ▸ hs .b3⟩
  intro k
  cases k with
  | b0 => exact h0
  | b1 => exact h1
  | b2 => exact rest.1
  | b3 => exact rest.2

/-- A run that emits nothing and names no bank changes only the verdict, RES, the lines, the compare buffers, A_CUR,
N_LEFT and STAGE: the frame of every command of the classifier. -/
theorem classifier_frame {r : Routine} {s : State} {es : List Event} (hr : ∀ x ∈ r.actions, x ≠ .emit)
    (hi : s.issued (r.run s) es) (hh : (r.run s).hsCur = s.hsCur) :
    r.run s = { s.ranTo (r.run s) es with hsCur := s.hsCur, outCursor := s.outCursor, outRev := s.outRev } := by
  obtain ⟨hrev, hcursor⟩ := run_output hr s
  rw [← hrev, ← hcursor, ← hh]
  exact run_eq_ranTo hi

/-! ### The predicate commands (R94) -/

/-- ALL THAT A PREDICATE COMMAND DOES, from every state (R85 to R94). -/
theorem exec_predicate (p : Predicate) (s : State) :
    ∃ w t, exec p.instr s = .next t ∧ p.fits w ∧ s.issued t (p.seen w) ∧
      t.b0.len = 0#8 ∧ t.b1.len = 0#8 ∧ (p.windowCount = 4 → t.allReleased) ∧
      (p.windowCount = 2 → t.b2 = s.b2 ∧ t.b3 = s.b3) ∧
      t = { s.endedAs t with
            a := p.addrEnd, csN := p.csEnd s.csN, d5Oe := p.d5End s.d5Oe, d5Out := p.d5End s.d5Out,
            res := boolByte (p.truth w), b0 := t.b0, b1 := t.b1, b2 := t.b2, b3 := t.b3,
            aCur := t.aCur, nLeft := t.nLeft, stage := t.stage } := by
  obtain ⟨w, u, hw, hi, -, hu, hh, hkeep, hrun⟩ := ask_spec p (.finish (.bool true)) (.finish (.bool false)) s
  have hrel := allReleased_of_ask hu hkeep
  have hend : (predicateRoutine p).run s = (u.writeBack (.bool (p.truth w))).complete := by
    rw [predicateRoutine, hrun]
    cases p.truth w <;> rfl
  obtain ⟨h0, h1, -⟩ := releaseAll_lengths p (State.issueAll p.micros s)
  rw [← hu] at h0 h1
  have hexec : exec p.instr s = .next ((predicateRoutine p).run s) := by cases p <;> rfl
  have hkind : ((predicateRoutine p).run s).kind = s.kind := run_kind (by simp [predicateRoutine]) s
  have hi' : s.issued ((predicateRoutine p).run s) (p.seen w) := hend ▸ hi
  have hframe := classifier_frame (by simpa [predicateRoutine] using predicate_noEmit p) hi' (hend ▸ hh)
  refine ⟨w, _, hexec, hw, hi', hend ▸ h0, hend ▸ h1, fun h4 => hend ▸ hrel (.inr h4), fun h2 => hend ▸ hkeep h2, ?_⟩
  have hres : ((predicateRoutine p).run s).res = boolByte (p.truth w) := hend ▸ rfl
  refine hframe.trans ?_
  rw [State.ranTo, hkind, hres, seen_addr hw, seen_csEnd, seen_oeEnd, seen_outEnd]
  rfl

/-- RES holds a decided condition as R17 says. -/
theorem boolByte_decide (P : Prop) [Decidable P] : boolByte (decide P) = if P then 0x01#8 else 0x00#8 := by
  simp [boolByte]

/-- ISE0 and ISE7: RES tells whether the first window changed and the second did not (R87, R88). -/
theorem exec_fourWindow {p : Predicate} (hp : p = .isE0 ∨ p = .isE7) (s : State) :
    ∃ w t, exec p.instr s = .next t ∧
      w.w0.length = 128 ∧ w.w1.length = 128 ∧ w.w2.length = 128 ∧ w.w3.length = 128 ∧
      s.issued t (p.seen w) ∧ (∀ k, (t.buffer k).len = 0#8) ∧
      t = { s.endedAs t with
            a := p.addrEnd, csN := true, res := if w.w0 ≠ w.w2 ∧ w.w1 = w.w3 then 0x01#8 else 0x00#8,
            b0 := t.b0, b1 := t.b1, b2 := t.b2, b3 := t.b3,
            aCur := t.aCur, nLeft := t.nLeft, stage := t.stage } := by
  obtain ⟨w, t, ht, hw, hi, -, -, hrel, -, hframe⟩ := exec_predicate p s
  have h4 : p.windowCount = 4 := by rcases hp with rfl | rfl <;> rfl
  have htruth : p.truth w = decide (w.w0 ≠ w.w2 ∧ w.w1 = w.w3) := by
    rcases hp with rfl | rfl <;> exact (Bool.decide_and ..).symm
  obtain ⟨l0, l1, l2, l3⟩ := fits_of_four h4 hw
  refine ⟨w, t, ht, l0, l1, l2, l3, hi, hrel h4, hframe.trans ?_⟩
  rw [htruth, boolByte_decide]
  rcases hp with rfl | rfl <;> rfl

/-- Settles O25: both are the one four-window procedure, with hotspots and window addresses of their own. -/
theorem fourWindowPredicates : Obligations.FourWindowPredicates := fun s =>
  ⟨exec_fourWindow (.inl rfl) s, exec_fourWindow (.inr rfl) s⟩

/-- A predicate of two windows, true of them as `P` says, leaves B2 and B3, and its events are counted (R89 to R93). -/
theorem exec_twoWindow {p : Predicate} {P : List Byte → List Byte → Prop} [DecidableRel P] (hp : p.windowCount = 2)
    (hP : ∀ x y, p.truth ⟨x, y, [], []⟩ = decide (P x y)) (s : State) :
    ∃ x y es t, exec p.instr s = .next t ∧ x.length = 128 ∧ y.length = 128 ∧ es = p.seen ⟨x, y, [], []⟩ ∧
      s.issued t es ∧ es.length = p.counts.1 ∧ delaysOf es = p.counts.2 ∧
      t.b0.len = 0#8 ∧ t.b1.len = 0#8 ∧
      t = { s.endedAs t with
            a := p.addrEnd, csN := p.csEnd s.csN, d5Oe := p.d5End s.d5Oe, d5Out := p.d5End s.d5Out,
            res := if P x y then 0x01#8 else 0x00#8, b0 := t.b0, b1 := t.b1,
            aCur := t.aCur, nLeft := t.nLeft, stage := t.stage } := by
  obtain ⟨w, t, ht, hw, hi, h0, h1, -, hkeep, hframe⟩ := exec_predicate p s
  obtain ⟨hlen, hdelays⟩ := Prod.mk.inj (seen_counts hw)
  obtain ⟨x, y, rfl, hx, hy⟩ := fits_of_two hp hw
  obtain ⟨e2, e3⟩ := hkeep hp
  rw [e2, e3, hP, boolByte_decide] at hframe
  exact ⟨x, y, _, t, ht, hx, hy, rfl, hi, hlen, hdelays, h0, h1, hframe⟩

/-- Settles O26: the three are one two-window procedure at three pairs of hotspots. -/
theorem hotspotPairPredicates : Obligations.HotspotPairPredicates := by
  intro s i word h h' hm
  simp only [List.mem_cons, Prod.mk.injEq, List.not_mem_nil, or_false] at hm
  rcases hm with ⟨rfl, rfl, rfl, rfl⟩ | ⟨rfl, rfl, rfl, rfl⟩ | ⟨rfl, rfl, rfl, rfl⟩
  · exact ⟨rfl, exec_twoWindow (p := .isF4) (P := (· ≠ ·)) rfl (fun _ _ => rfl) s⟩
  · exact ⟨rfl, exec_twoWindow (p := .isF6) (P := (· ≠ ·)) rfl (fun _ _ => rfl) s⟩
  · exact ⟨rfl, exec_twoWindow (p := .isF8) (P := (· ≠ ·)) rfl (fun _ _ => rfl) s⟩

/-- Settles O27: is2K is the two-window procedure that asks for equality and leaves CS_N as it finds it. -/
theorem is2kResult : Obligations.Is2kResult :=
  ⟨rfl, exec_twoWindow (p := .is2K) (P := (· = ·)) rfl fun _ _ => rfl⟩

/-- Settles O28: isFE is the two-window procedure whose switches are triggers, so that data line 5 ends released. -/
theorem isfeResult : Obligations.IsfeResult :=
  ⟨rfl, exec_twoWindow (p := .isFE) (P := (· ≠ ·)) rfl fun _ _ => rfl⟩

/-! ### CLASSIFY (R95 to R98) -/

/-- What follows a list of events piece by piece, and follows each predicate's events as `turn` says, follows a
chain's as its predicates do in turn. -/
theorem chainSeen_fold {α : Type} {after : α → List Event → α} {turn : Predicate → α → α}
    (hnil : ∀ x, after x [] = x) (happend : ∀ x es fs, after x (es ++ fs) = after (after x es) fs)
    (hseen : ∀ {p : Predicate} {w : Windows}, p.fits w → ∀ x, after x (p.seen w) = turn p x)
    {c : List (Predicate × Bool)} {ws : List Windows} (h : chainHolds c ws) (x : α) :
    after x (chainSeen c ws) = c.foldl (fun y q => turn q.1 y) x := by
  induction c generalizing ws x with
  | nil => exact hnil x
  | cons q c ih =>
    cases ws with
    | nil => exact h.elim
    | cons w ws =>
      obtain ⟨hw, -, hc⟩ := h
      rw [chainSeen, happend, hseen hw, ih hc, List.foldl_cons]

/-- The course `r`, run from `s`, asks the predicates of the chain `c`, in order and with the answers it lists, reading
the windows `ws`, and ends with the verdict `k`. -/
structure Routine.Decides (r : Routine) (s : State) (k : MapperKind) (c : List (Predicate × Bool))
    (ws : List Windows) : Prop where
  chain : chainHolds c ws
  issued : s.issued (r.run s) (chainSeen c ws)
  kind : (r.run s).kind = some k
  res : (r.run s).res = kindByte k
  hsCur : (r.run s).hsCur = s.hsCur
  released : s.allReleased ∨ (∃ q ∈ c, q.1.windowCount = 4) → (r.run s).allReleased

/-- The course ends, from every state, in one of these verdicts, by the chain listed with it. -/
def Routine.decidesAmong (r : Routine) (cs : List (MapperKind × List (Predicate × Bool))) : Prop :=
  ∀ s, ∃ k c ws, (k, c) ∈ cs ∧ r.Decides s k c ws

theorem verdict_decides (k : MapperKind) (s : State) : (Routine.finish (.verdict k)).Decides s k [] [] where
  chain := trivial
  issued := issued_complete.mpr ((writeBack_issued _).mpr (issued_refl s))
  kind := rfl
  res := rfl
  hsCur := rfl
  released h := h.elim id (by simp)

/-- The predicate asked first, then what the course decides by from there. -/
theorem ask_decides {p : Predicate} {yes no : Routine} {s u : State} {w : Windows} {b : Bool} {r : Routine}
    {k : MapperKind} {c : List (Predicate × Bool)} {ws : List Windows} (hw : p.fits w) (hb : p.truth w = b)
    (hi : s.issued u (p.seen w)) (hh : u.hsCur = s.hsCur)
    (hrel : s.allReleased ∨ p.windowCount = 4 → u.allReleased) (hrun : (p.ask yes no).run s = r.run u)
    (h : r.Decides u k c ws) : (p.ask yes no).Decides s k ((p, b) :: c) (w :: ws) where
  chain := ⟨hw, hb, h.chain⟩
  issued := hrun ▸ issued_trans hi h.issued
  kind := hrun ▸ h.kind
  res := hrun ▸ h.res
  hsCur := hrun ▸ h.hsCur.trans hh
  released hs := by
    rw [hrun]
    apply h.released
    simp only [List.mem_cons, exists_eq_or_imp] at hs
    rcases hs with hs | h4 | hc
    · exact .inl (hrel (.inl hs))
    · exact .inl (hrel (.inr h4))
    · exact .inr hc

/-- One link of the chain (R95): the predicate's kind if it is true, else what the rest decides. -/
theorem ask_decidesAmong (p : Predicate) (k : MapperKind) {no : Routine}
    {cs : List (MapperKind × List (Predicate × Bool))} (hno : no.decidesAmong cs) :
    (p.ask (.finish (.verdict k)) no).decidesAmong
      ((k, [(p, true)]) :: cs.map fun x => (x.1, (p, false) :: x.2)) := by
  intro s
  obtain ⟨w, u, hw, hi, -, hu, hh, hkeep, hrun⟩ := ask_spec p (.finish (.verdict k)) no s
  have hrel := allReleased_of_ask hu hkeep
  cases hb : p.truth w with
  | true =>
    rw [hb, if_pos rfl] at hrun
    exact ⟨k, _, _, List.mem_cons_self, ask_decides hw hb hi hh hrel hrun (verdict_decides k u)⟩
  | false =>
    rw [hb, if_neg Bool.false_ne_true] at hrun
    obtain ⟨k', c, ws, hm, h⟩ := hno u
    exact ⟨k', _, _, List.mem_cons_of_mem _ (List.mem_map_of_mem hm), ask_decides hw hb hi hh hrel hrun h⟩

/-- CLASSIFY's course ends in a verdict by that verdict's chain (R95 to R97), which begins with isE0. -/
theorem classifyRoutine_decides (s : State) :
    ∃ k ws, k ≠ .f4 ∧ classifyRoutine.Decides s k (chainOf k) ws := by
  have hlast : (Routine.finish (.verdict .k4)).decidesAmong [(.k4, [])] := fun s =>
    ⟨.k4, [], [], List.mem_singleton_self _, verdict_decides .k4 s⟩
  obtain ⟨k, c, ws, hm, h⟩ := (ask_decidesAmong .isE0 .e0 <| ask_decidesAmong .isE7 .e7 <|
    ask_decidesAmong .isF6 .f6 <| ask_decidesAmong .isF8 .f8 <| ask_decidesAmong .isFE .fe <|
    ask_decidesAmong .is2K .k2 hlast) s
  obtain ⟨hk, rfl⟩ : k ≠ .f4 ∧ c = chainOf k := by
    simp only [List.map_cons, List.map_nil, List.mem_cons, List.not_mem_nil, or_false, Prod.mk.injEq] at hm
    rcases hm with ⟨rfl, rfl⟩ | ⟨rfl, rfl⟩ | ⟨rfl, rfl⟩ | ⟨rfl, rfl⟩ | ⟨rfl, rfl⟩ | ⟨rfl, rfl⟩ | ⟨rfl, rfl⟩ <;>
      exact ⟨by decide, rfl⟩
  exact ⟨k, ws, hk, h⟩

theorem exec_classify {s : State} (hs : s.kind = none) : exec .classify s = .next (classifyRoutine.run s) :=
  exec_of_checked (by simp [checkOf, classifyCheck, State.kindValid, hs]) rfl

/-- Settles O29: the frame is every classifier command's, and the lines follow the chain. -/
theorem classifyVerdict : Obligations.ClassifyVerdict := by
  refine ⟨rfl, fun s hs => ?_⟩
  obtain ⟨k, ws, hk, hchain, hi, hkind, hres, hh, hrel⟩ := classifyRoutine_decides s
  have hfour : ∃ q ∈ chainOf k, q.1.windowCount = 4 := by
    cases k with
    | f4 => exact absurd rfl hk
    | e0 | e7 | f6 | f8 | fe | k2 | k4 => exact ⟨_, List.mem_cons_self, rfl⟩
  have hframe := classifier_frame (classify_actions predicate_noEmit) hi hh
  refine ⟨k, ws, _, exec_classify hs, hk, hchain, hi, hrel (.inr hfour), ?_⟩
  -- `rfl` below compares records field by field and must not evaluate the run itself.
  generalize classifyRoutine.run s = t at *
  refine hframe.trans ?_
  rw [State.ranTo, hkind, hres,
    chainSeen_fold (fun _ => rfl) addrAfter_append (turn := fun p _ => p.addrEnd) seen_addr hchain,
    chainSeen_fold (fun _ => rfl) csAfter_append (fun _ => seen_csEnd _ _) hchain,
    chainSeen_fold (fun _ => rfl) oeAfter_append (fun _ => seen_oeEnd _ _) hchain,
    chainSeen_fold (fun _ => rfl) outAfter_append (fun _ => seen_outEnd _ _) hchain]
  cases k with
  | f4 => exact absurd rfl hk
  | e0 | e7 | f6 | f8 | fe | k2 | k4 => rfl

/-- Counts of events and settle delays, after some more events. -/
def countsAfter (n : Nat × Nat) (es : List Event) : Nat × Nat := (n.1 + es.length, n.2 + delaysOf es)

/-- R96's table is the sum over each verdict's chain. -/
theorem chainOf_counts (k : MapperKind) :
    (chainOf k).foldl (fun n q => (n.1 + q.1.counts.1, n.2 + q.1.counts.2)) (0, 0) = classifyCount k := by
  cases k <;> rfl

/-- The events and settle delays of a verdict's chain. -/
theorem chainSeen_counts {k : MapperKind} {ws : List Windows} (h : chainHolds (chainOf k) ws) :
    ((chainSeen (chainOf k) ws).length, delaysOf (chainSeen (chainOf k) ws)) = classifyCount k := by
  have hfold := chainSeen_fold (after := countsAfter) (turn := fun p n => (n.1 + p.counts.1, n.2 + p.counts.2))
    (fun _ => rfl) (by simp [countsAfter, Nat.add_assoc])
    (fun hw n => by simp [countsAfter, ← seen_counts hw]) h (0, 0)
  simpa [countsAfter, chainOf_counts] using hfold

/-- Settles O30: CLASSIFY's events are its verdict's chain's. -/
theorem classifyEventCounts : Obligations.ClassifyEventCounts := by
  intro s hs
  obtain ⟨k, ws, -, h⟩ := classifyRoutine_decides s
  exact ⟨k, _, _, exec_classify hs, h.kind, h.issued, chainSeen_counts h.chain⟩

end Sys2Proof.Machine

namespace Sys2Proof.Machine

/-! ### DUMPK and DUMP: the check, and all that a dump leaves behind (R100, R101, R111) -/

theorem checkOf_dumpk (k : MapperKind) (s : State) :
    checkOf (.dumpk k) s = if s.outAvail then none else some .noDest := by
  have hcheck : checkOf (.dumpk k) s = dumpkCheck s := by cases k <;> rfl
  rw [hcheck]
  cases h : s.outAvail <;> simp [dumpkCheck, destMissing, h]

/-- DUMP's check: the verdict first, then the destination (R101, R125). -/
theorem checkOf_dump (s : State) :
    checkOf .dump s = if s.kind = none then some .noKind else if s.outAvail then none else some .noDest := by
  cases hk : s.kind <;> cases ho : s.outAvail <;> simp [checkOf, dumpkCheck, destMissing, State.kindValid, hk, ho]

/-- DUMPK with a destination runs its kind's plan (R111). -/
theorem exec_dumpk (k : MapperKind) {s : State} (ho : s.outAvail = true) :
    exec (.dumpk k) s = .next ((dumpRoutine k).run s) :=
  exec_of_checked (by rw [checkOf_dumpk, if_pos ho]) (routineOf_dumpk k s.kind)

/-- So does DUMP with the verdict of that kind (R101). -/
theorem exec_dump {k : MapperKind} {s : State} (hk : s.kind = some k) (ho : s.outAvail = true) :
    exec .dump s = .next ((dumpRoutine k).run s) :=
  exec_of_checked (by simp [checkOf_dump, hk, ho]) (congrArg (Option.map dumpRoutine) hk)

/-- Settles O37: the destination is DUMPK's one check, and no verdict enters it. -/
theorem dumpkFaults : Obligations.DumpkFaults := fun s k h =>
  exec_of_failedCheck (e := .noDest) (by rw [checkOf_dumpk, h]; rfl)

theorem dumpRoutine_res (k : MapperKind) (s : State) : ((dumpRoutine k).run s).res = s.res :=
  run_res (by simp [dumpRoutine, WriteBack.leavesRes]) s

theorem dumpRoutine_buffer (k : MapperKind) (s : State) (j : BufId) :
    ((dumpRoutine k).run s).buffer j = s.buffer j := by
  rw [dumpRoutine, run_plain, complete_buffer, plan_buffer]

/-- Settles O36: DUMP's checks are `checkOf_dump`, and past them its course is the one DUMPK of that kind has. -/
theorem dumpResult : Obligations.DumpResult := by
  refine ⟨rfl, fun s => ⟨fun hk => ?_, fun k hk ho => ?_, fun k hk ho => ?_⟩⟩
  · exact exec_of_failedCheck (e := .noKind) (by simp [checkOf_dump, hk])
  · exact exec_of_failedCheck (e := .noDest) (by simp [checkOf_dump, hk, ho])
  · obtain ⟨-, hlen⟩ := dumpRoutine_out k s
    exact ⟨_, exec_dump hk ho, exec_dumpk k ho, hlen, (dumpRoutine_kind k s).trans hk, dumpRoutine_res k s,
      dumpRoutine_buffer k s, (run_faultRegisters _ s).1⟩

/-- ALL THAT A DUMP LEAVES BEHIND, whatever its events: the lines stand where they left them, the output and the named
cursors moved, and nothing else changed (R16, R17, R19, R100). -/
theorem dump_completes (k : MapperKind) {s : State} {es : List Event} (ho : s.outAvail = true)
    (hi : s.issued ((dumpRoutine k).run s) es) :
    ∃ t, exec (.dumpk k) s = .next t ∧ s.issued t es ∧ t.out = s.out ++ emittedOf es ∧
      ((∀ m ∈ planMicros k, m.hotspot = none) → t.hsCur = s.hsCur) ∧
      t = { s.endedAs t with
            a := addrAfter s.a es, csN := csAfter s.csN es, d5Oe := oeAfter s.d5Oe es, d5Out := outAfter s.d5Out es,
            outCursor := t.outCursor, outRev := t.outRev,
            hsCur := t.hsCur, aCur := t.aCur, nLeft := t.nLeft, stage := t.stage } := by
  obtain ⟨h0, h1, h2, h3⟩ := fields_of_buffer (dumpRoutine_buffer k s)
  have hframe := run_eq_ranTo hi
  rw [State.ranTo, dumpRoutine_kind, dumpRoutine_res, h0, h1, h2, h3] at hframe
  refine ⟨_, exec_dumpk k ho, hi, issued_out hi, fun hm => ?_, hframe⟩
  rw [dumpRoutine, run_plain]
  exact issueAll_hsCur hm s

/-! ### What an observer sees of each plan (R102 to R109) -/

/-- A dump issues the events of its plan and no other (R100). -/
theorem dumpRoutine_issued {k : MapperKind} {s : State} {es : List Event} :
    s.issued ((dumpRoutine k).run s) es ↔ s.issued (State.issueAll (planMicros k) s) es := by
  rw [dumpRoutine, run_plain]
  exact issued_complete

theorem planMicros_actions (k : MapperKind) :
    actionsOf (planMicros k) = ((planOf k).map actionsOf).flatten := numberCalls_actions 0 (planOf k)

/-- A plan of one range read (R102, R103). -/
theorem plainPlan_issued {k : MapperKind} {addr : Addr} {n : Nat} (hk : planOf k = [readRange addr n .out]) (s : State) :
    ∃ bs, bs.length = n ∧ s.issued ((dumpRoutine k).run s) (dumpTrace addr bs) := by
  have g := planMicros_actions k
  simp only [hk, List.map_cons, List.map_nil, List.flatten_cons, List.flatten_nil, List.append_nil] at g
  obtain ⟨bs, hl, hi⟩ := rangeOut_spec n n addr g s
  exact ⟨bs, hl, dumpRoutine_issued.mpr hi⟩

/-- A plan of banks alone (R104, R106, R107, R108). -/
theorem bankedPlan_issued {k : MapperKind} {h : Addr} {n count : Nat} (hk : planOf k = banksFrom n h count)
    (s : State) :
    ∃ banks : List (List Byte), banks.length = count ∧ (∀ bs ∈ banks, bs.length = n) ∧
      s.issued ((dumpRoutine k).run s) (bankTrace h banks) := by
  obtain ⟨banks, hc, hb, hi⟩ := banks_spec n count h (hk ▸ planMicros_actions k) s
  exact ⟨banks, hc, hb, dumpRoutine_issued.mpr hi⟩

/-- E7: seven banks, then the static range (R105). -/
theorem planE7_issued (s : State) :
    ∃ (banks : List (List Byte)) (last : List Byte), banks.length = 7 ∧ (∀ bs ∈ banks, bs.length = 2048) ∧
      last.length = 2048 ∧
      s.issued ((dumpRoutine .e7).run s) (bankTrace 0xFE0#12 banks ++ dumpTrace 0x800#12 last) := by
  have g := planMicros_actions .e7
  simp only [planOf, planE7, List.map_append, List.flatten_append, List.map_cons, List.map_nil, List.flatten_cons,
    List.flatten_nil, List.append_nil] at g
  obtain ⟨m1, m2, hm, g1, g2⟩ := actionsOf_eq_append g
  obtain ⟨banks, hc, hb, i1⟩ := banks_spec _ _ _ g1 s
  obtain ⟨last, hl, i2⟩ := rangeOut_spec _ _ _ g2 (State.issueAll m1 s)
  refine ⟨banks, last, hc, hb, hl, dumpRoutine_issued.mpr ?_⟩
  rw [hm, issueAll_append]
  exact issued_trans i1 i2

/-- A trigger, then 4096 bytes from address 0 (R109). -/
theorem triggerThenRead_issued {m1 m2 : List Micro} {p : Level} (g1 : actionsOf m1 = actionsOf (feTrigger p))
    (g2 : actionsOf m2 = actionsOf (readRange 0x000#12 0x1000 .out)) (s : State) :
    ∃ bs, bs.length = 4096 ∧ s.issued (State.issueAll (m1 ++ m2) s) (feTrace p ++ dumpTrace 0x000#12 bs) := by
  obtain ⟨i1, -⟩ := feTrigger_spec g1 s
  obtain ⟨bs, hl, i2⟩ := rangeOut_spec _ _ _ g2 (State.issueAll m1 s)
  rw [issueAll_append]
  exact ⟨bs, hl, issued_trans i1 i2⟩

/-- FE: the high trigger's bytes, then the low trigger's (R109). -/
theorem planFE_issued (s : State) :
    ∃ high low : List Byte, high.length = 4096 ∧ low.length = 4096 ∧
      s.issued ((dumpRoutine .fe).run s)
        (feTrace true ++ dumpTrace 0x000#12 high ++ feTrace false ++ dumpTrace 0x000#12 low) := by
  have g := planMicros_actions .fe
  simp only [planOf, planFE, List.map_cons, List.map_nil, List.flatten_cons, List.flatten_nil, List.append_nil] at g
  rw [← List.append_assoc] at g
  obtain ⟨m, m', hm, g, g'⟩ := actionsOf_eq_append g
  obtain ⟨m1, m2, rfl, g1, g2⟩ := actionsOf_eq_append g
  obtain ⟨m3, m4, rfl, g3, g4⟩ := actionsOf_eq_append g'
  obtain ⟨high, hhigh, i1⟩ := triggerThenRead_issued g1 g2 s
  obtain ⟨low, hlow, i2⟩ := triggerThenRead_issued g3 g4 (State.issueAll (m1 ++ m2) s)
  refine ⟨high, low, hhigh, hlow, dumpRoutine_issued.mpr ?_⟩
  rw [hm, issueAll_append, List.append_assoc (_ ++ _)]
  exact issued_trans i1 i2

/-! ### Counts and lines of a plan's events -/

/-- A range read waits once for every byte (R78). -/
@[simp] theorem dumpTrace_delays (a : Addr) (bs : List Byte) : delaysOf (dumpTrace a bs) = bs.length := by
  induction bs generalizing a with
  | nil => rfl
  | cons b bs ih => simp [dumpTrace, delaysOf, ih]

theorem bankTrace_delays (h : Addr) {n : Nat} {banks : List (List Byte)} (hb : ∀ bs ∈ banks, bs.length = n) :
    delaysOf (bankTrace h banks) = banks.length * (2 + n) := by
  induction banks generalizing h with
  | nil => simp [bankTrace, delaysOf]
  | cons bs rest ih =>
    obtain ⟨hbs, hrest⟩ := List.forall_mem_cons.mp hb
    simp only [bankTrace, delaysOf_append, hotspotTrace_delays, dumpTrace_delays, hbs, ih _ hrest, List.length_cons]
    rw [Nat.add_mul, Nat.one_mul, Nat.add_comm]

theorem lastAddr_of_pos (old addr : Addr) {n : Nat} (h : 0 < n) :
    lastAddr old addr n = addr + BitVec.ofNat 12 (n - 1) := by
  obtain ⟨m, rfl⟩ : ∃ m, n = m + 1 := ⟨n - 1, by omega⟩
  rfl

/-- The plans without banks move no hotspot cursor (R22). -/
theorem plan_hotspot {k : MapperKind} (hk : k = .k2 ∨ k = .k4 ∨ k = .fe) : ∀ m ∈ planMicros k, m.hotspot = none := by
  have read : ∀ a n, ∀ m ∈ readRange a n .out, m.hotspot = none := fun a n m hm => (rangeTurns_plain _ _ _ _ m hm).1
  have trigger : ∀ p, ∀ m ∈ feTrigger p, m.hotspot = none := fun p m hm => (feTrigger_plain p m hm).1
  refine numberCalls_hotspot ?_ 0
  rcases hk with rfl | rfl | rfl
  · simpa [planOf, plan2K] using read _ _
  · simpa [planOf, plan4K] using read _ _
  · simp only [planOf, planFE, List.forall_mem_cons]
    exact ⟨trigger _, read _ _, trigger _, read _ _, by simp⟩

/-! ### The plans, kind by kind -/

/-- DUMPK of a kind whose plan is one range read from address 0. -/
theorem exec_plainPlan {k : MapperKind} {n : Nat} (hk : planOf k = [readRange 0x000#12 n .out])
    (hm : ∀ m ∈ planMicros k, m.hotspot = none) (hn : 0 < n) {s : State} (ho : s.outAvail = true) :
    ∃ (bs : List Byte) (es : List Event) (t : State), exec (.dumpk k) s = .next t ∧ bs.length = n ∧
      es = dumpTrace 0x000#12 bs ∧ s.issued t es ∧ es.length = 4 * n ∧ delaysOf es = n ∧
      t.out = s.out ++ bs ∧
      t = { s.endedAs t with
            a := BitVec.ofNat 12 (n - 1), outCursor := t.outCursor, outRev := t.outRev,
            aCur := t.aCur, nLeft := t.nLeft, stage := t.stage } := by
  obtain ⟨bs, hl, hi⟩ := plainPlan_issued hk s
  obtain ⟨t, ht, hi, hout, hhs, hframe⟩ := dump_completes k ho hi
  refine ⟨bs, _, t, ht, hl, rfl, hi, by simp [hl], by simp [hl], by simpa using hout, hframe.trans ?_⟩
  rw [hhs hm, dumpTrace_addr, dumpTrace_cs, dumpTrace_oe, dumpTrace_d5Out, hl, lastAddr_of_pos _ _ hn, BitVec.zero_add]
  rfl

/-- Settles O32: both plans are one range read from address 0. -/
theorem plainPlans : Obligations.PlainPlans := by
  intro s i word n hm ho
  simp only [List.mem_cons, Prod.mk.injEq, List.not_mem_nil, or_false] at hm
  rcases hm with ⟨rfl, rfl, rfl⟩ | ⟨rfl, rfl, rfl⟩
  · exact ⟨rfl, exec_plainPlan (k := .k2) rfl (plan_hotspot (by simp)) (by omega) ho⟩
  · exact ⟨rfl, exec_plainPlan (k := .k4) rfl (plan_hotspot (by simp)) (by omega) ho⟩

/-- DUMPK of a kind whose plan is `count` banks of `n` bytes, from hotspot `h` on. -/
theorem exec_bankedPlan {k : MapperKind} {h : Addr} {count n : Nat} (hk : planOf k = banksFrom n h count)
    (hc : 0 < count) (hn : 0 < n) {s : State} (ho : s.outAvail = true) :
    ∃ (banks : List (List Byte)) (es : List Event) (t : State), exec (.dumpk k) s = .next t ∧
      banks.length = count ∧ (∀ bs ∈ banks, bs.length = n) ∧
      es = bankTrace h banks ∧ s.issued t es ∧ es.length = count * (5 + 4 * n) ∧ delaysOf es = count * (2 + n) ∧
      t.out = s.out ++ banks.flatten ∧
      t = { s.endedAs t with
            a := BitVec.ofNat 12 (n - 1), csN := true, outCursor := t.outCursor, outRev := t.outRev,
            hsCur := t.hsCur, aCur := t.aCur, nLeft := t.nLeft, stage := t.stage } := by
  obtain ⟨banks, hl, hb, hi⟩ := bankedPlan_issued hk s
  obtain ⟨t, ht, hi, hout, -, hframe⟩ := dump_completes k ho hi
  have hne : banks ≠ [] := List.ne_nil_of_length_pos (hl ▸ hc)
  refine ⟨banks, _, t, ht, hl, hb, rfl, hi, by rw [bankTrace_length h hb, hl], by rw [bankTrace_delays h hb, hl],
    by simpa using hout, hframe.trans ?_⟩
  rw [bankTrace_addr _ h hn hb hne, bankTrace_cs _ h hne, bankTrace_oe, bankTrace_d5Out]
  rfl

/-- Settles O33: the four plans are banks alone, at four hotspots and of two sizes. -/
theorem bankedPlans : Obligations.BankedPlans := by
  intro s i word h count n hm ho
  simp only [List.mem_cons, Prod.mk.injEq, List.not_mem_nil, or_false] at hm
  rcases hm with ⟨rfl, rfl, rfl, rfl, rfl⟩ | ⟨rfl, rfl, rfl, rfl, rfl⟩ | ⟨rfl, rfl, rfl, rfl, rfl⟩ |
    ⟨rfl, rfl, rfl, rfl, rfl⟩
  · exact ⟨rfl, exec_bankedPlan (k := .e0) rfl (by omega) (by omega) ho⟩
  · exact ⟨rfl, exec_bankedPlan (k := .f4) rfl (by omega) (by omega) ho⟩
  · exact ⟨rfl, exec_bankedPlan (k := .f6) rfl (by omega) (by omega) ho⟩
  · exact ⟨rfl, exec_bankedPlan (k := .f8) rfl (by omega) (by omega) ho⟩

/-- Settles O34: the banks' events, then the static range's, which name no line but A. -/
theorem planE7Result : Obligations.PlanE7 := by
  refine ⟨rfl, fun s ho => ?_⟩
  obtain ⟨banks, last, hc, hb, hl, hi⟩ := planE7_issued s
  obtain ⟨t, ht, hi, hout, -, hframe⟩ := dump_completes .e7 ho hi
  have hne : banks ≠ [] := List.ne_nil_of_length_pos (by omega)
  refine ⟨banks, last, _, t, ht, hc, hb, hl, rfl, hi, ?_, ?_, by simpa using hout, hframe.trans ?_⟩
  · simp [bankTrace_length _ hb, hc, hl]
  · simp [bankTrace_delays _ hb, hc, hl]
  · simp only [addrAfter_append, csAfter_append, oeAfter_append, outAfter_append, dumpTrace_addr, dumpTrace_cs,
      dumpTrace_oe, dumpTrace_d5Out, bankTrace_oe, bankTrace_d5Out, bankTrace_cs _ _ hne, hl]
    rfl

/-- Settles O35: both triggers leave chip-select and data line 5 released, the low one last. -/
theorem planFEResult : Obligations.PlanFE := by
  refine ⟨rfl, fun s ho => ?_⟩
  obtain ⟨high, low, hh, hl, hi⟩ := planFE_issued s
  obtain ⟨t, ht, hi, hout, hhs, hframe⟩ := dump_completes .fe ho hi
  refine ⟨high, low, _, t, ht, hh, hl, rfl, hi, ?_, ?_, by simpa using hout, hframe.trans ?_⟩
  · simp [hh, hl]
  · simp [hh, hl]
  · rw [hhs (plan_hotspot (by simp))]
    simp only [addrAfter_append, csAfter_append, oeAfter_append, outAfter_append, dumpTrace_addr, dumpTrace_cs,
      dumpTrace_oe, dumpTrace_d5Out, feTrace_cs, feTrace_oe, feTrace_d5Out, hl]
    rfl

/-! ### Sizes, and what is emitted, for every kind (R110, R112, R148) -/

/-- The events of a kind's dump are as many as R148 says, and emit their samples. -/
def isDumpOf (k : MapperKind) (es : List Event) : Prop :=
  emittedOf es = samplesOf es ∧ (es.length, delaysOf es) = planCount k

theorem plainPlan_isDump {k : MapperKind} {n : Nat} (hk : planOf k = [readRange 0x000#12 n .out])
    (hn : (4 * n, n) = planCount k) (s : State) : ∃ es, s.issued ((dumpRoutine k).run s) es ∧ isDumpOf k es := by
  obtain ⟨bs, hl, hi⟩ := plainPlan_issued hk s
  exact ⟨_, hi, by simp, by simpa [hl] using hn⟩

theorem bankedPlan_isDump {k : MapperKind} {n count : Nat} {h : Addr} (hk : planOf k = banksFrom n h count)
    (hn : (count * (5 + 4 * n), count * (2 + n)) = planCount k) (s : State) :
    ∃ es, s.issued ((dumpRoutine k).run s) es ∧ isDumpOf k es := by
  obtain ⟨banks, hl, hb, hi⟩ := bankedPlan_issued hk s
  exact ⟨_, hi, by simp, by rw [bankTrace_length h hb, bankTrace_delays h hb, hl, hn]⟩

/-- Every dump, by the form of its kind's plan. -/
theorem dumpRoutine_isDump (k : MapperKind) (s : State) :
    ∃ es, s.issued ((dumpRoutine k).run s) es ∧ isDumpOf k es := by
  cases k with
  | k2 => exact plainPlan_isDump rfl rfl s
  | k4 => exact plainPlan_isDump rfl rfl s
  | e0 => exact bankedPlan_isDump rfl rfl s
  | f4 => exact bankedPlan_isDump rfl rfl s
  | f6 => exact bankedPlan_isDump rfl rfl s
  | f8 => exact bankedPlan_isDump rfl rfl s
  | e7 =>
    obtain ⟨banks, last, hc, hb, hl, hi⟩ := planE7_issued s
    exact ⟨_, hi, by simp, by simp [bankTrace_length _ hb, bankTrace_delays _ hb, hc, hl, planCount]⟩
  | fe =>
    obtain ⟨high, low, hh, hl, hi⟩ := planFE_issued s
    exact ⟨_, hi, by simp, by simp [hh, hl, planCount]⟩

/-- Settles O38: the events are counted plan by plan, and the bytes are those the output grew by. -/
theorem planSizes : Obligations.PlanSizes := by
  intro s k ho
  obtain ⟨es, hi, -, hcount⟩ := dumpRoutine_isDump k s
  obtain ⟨-, hlen⟩ := dumpRoutine_out k s
  rw [issued_out hi, List.length_append] at hlen
  exact ⟨_, es, exec_dumpk k ho, hi, Nat.add_left_cancel hlen, hcount⟩

/-- Settles O39: a plan's samples are all taken by range reads to OUT, each of which emits what it samples. -/
theorem dumpEmitsWhatItSamples : Obligations.DumpEmitsWhatItSamples := by
  intro s k ho
  obtain ⟨es, hi, hemit, -⟩ := dumpRoutine_isDump k s
  exact ⟨_, es, exec_dumpk k ho, hi, hemit, hemit ▸ issued_out hi⟩

end Sys2Proof.Machine

namespace Sys2Proof.Machine

/-! ### Faults: ERR_BADCMD at the port, the other four at a command's checks (R117, R119, R121, R124) -/

/-- Only the port answers ERR_BADCMD: no check of an accepted command does (R119, R125). -/
theorem checkOf_ne_badCmd (i : Instr) (s : State) : checkOf i s ≠ some .badCmd := by
  have hdumpk : dumpkCheck s ≠ some .badCmd := by rw [dumpkCheck]; split <;> nofun
  cases i with
  | rdrange dst addr len =>
    rw [checkOf, rdrangeCheck]
    split
    · nofun
    · split <;> nofun
  | bufeq a b len => rw [checkOf_bufeq]; split <;> nofun
  | classify => rw [checkOf, classifyCheck]; split <;> nofun
  | dump =>
    rw [checkOf]
    split
    · exact hdumpk
    · nofun
  | dumpkE0 | dumpkE7 | dumpkF4 | dumpkF6 | dumpkF8 | dumpkFE | dumpk2K | dumpk4K => exact hdumpk
  | hotspot | rdbyte | fetrig | ise0 | ise7 | isf4 | isf6 | isf8 | is2k | isfe => nofun

/-- The codes of every fault but ERR_BADCMD (R117). -/
theorem ErrCode.code_of_ne_badCmd {e : ErrCode} (h : e ≠ .badCmd) :
    e.code = 2#4 ∨ e.code = 3#4 ∨ e.code = 4#4 ∨ e.code = 5#4 := by
  cases e with
  | badCmd => exact absurd rfl h
  | noDest | noKind | reclassify | bufLen => decide

/-- A command that ends faulted took the fault of a check: its course leaves FAULTED as it was (R124, R126). -/
theorem exec_faulted {i : Instr} {s t : State} (h : exec i s = .next t) (hs : s.faulted = false)
    (ht : t.faulted = true) : ∃ e ≠ ErrCode.badCmd, t = s.raise e := by
  rw [exec_eq] at h
  cases h
  revert ht
  split
  · next e hc => exact fun _ => ⟨e, fun he => checkOf_ne_badCmd i s (he ▸ hc), rfl⟩
  · next r _ _ =>
    obtain ⟨hf, -, -⟩ := run_faultRegisters r s
    simp [hf, hs]
  · exact fun _ => ⟨.noKind, nofun, rfl⟩

/-- Settles O52: a fault is all such a command did, and its code is not that of the port's. -/
theorem faultsArePrecise : Obligations.FaultsArePrecise := by
  intro i s t h hs ht
  obtain ⟨e, he, rfl⟩ := exec_faulted h hs ht
  exact ⟨rfl, ErrCode.code_of_ne_badCmd he, raise_eq e s⟩

/-- A ready block takes the first waiting word (R72). -/
theorem step_of_ready {s : State} {w : Word} {ws : List Word} (hs : s.ready) (hw : s.cmds = w :: ws) :
    step s = s.takeCommand w := by
  obtain ⟨hrst, hb, hf⟩ := hs
  simp [step, State.advance, hrst, hb, hf, hw]

/-- Settles O7: the port accepts the word and raises ERR_BADCMD for it, with no command to run. -/
theorem illegalWordFaults : Obligations.IllegalWordFaults := by
  intro s w ws r hs hw hi
  rw [step_of_ready hs hw, State.takeCommand, hi, accept_eq hw]
  rfl

/-- Settles O31: CLASSIFY's check asks only whether there is a verdict. -/
theorem reclassifyFaults : Obligations.ReclassifyFaults := fun _ _ hk =>
  exec_of_failedCheck (e := .reclassify) (by simp [checkOf, classifyCheck, State.kindValid, hk])

end Sys2Proof.Machine

namespace Sys2Proof.Machine

/-! ### Reset at any time (R134, R136), and no step of an idle block stops (R150) -/

/-- While `rst` is asserted both machines answer the reset block, whatever goes on (R134). -/
theorem step_tick_reset {s : State} (h : s.rst = true) :
    step s = .next s.resetBlock ∧ tick s = .next s.resetBlock := by
  simp only [step, State.advance, tick, h, if_true, and_self]

/-- The reset block's registers are those of R33's state, `resetState`. -/
theorem resetBlock_hasResetValues (s : State) : s.resetBlock.hasResetValues := resetState

/-- The first sample after a reset that has no listed answer is free in all that the environment saw (R136; log 1). -/
theorem resetBlock_lineByte {s : State} (h : s.answers = []) :
    s.resetBlock.lineByte = Config.dataLines s.samplesTaken [] (s.traceRev :: s.earlierSessions) := by
  simp [State.lineByte, State.resetBlock, h, State.reset]

/-- Settles O10: both machines answer the reset block, which keeps OUT. -/
theorem resetInput : Obligations.ResetInput := by
  intro s hs
  obtain ⟨hstep, htick⟩ := step_tick_reset hs
  exact ⟨_, hstep, htick, resetBlock_hasResetValues s, rfl⟩

/-- Settles O56: the reset block keeps what is not the block's own. -/
theorem resetKeepsTheEnvironment : Obligations.ResetKeepsTheEnvironment := by
  intro s hs
  obtain ⟨hstep, htick⟩ := step_tick_reset hs
  exact ⟨_, hstep, htick, rfl, rfl, rfl, rfl, rfl, rfl, rfl, rfl, resetBlock_lineByte⟩

/-- Settles O45: a state of the invariant is idle, and only a command in progress can have no position. -/
theorem stepNeverStops : Obligations.StepNeverStops := by
  intro s hs
  obtain ⟨hidle, -⟩ := (inv_iff s).mp hs
  exact step_answers hidle

end Sys2Proof.Machine

namespace Sys2Proof.Machine

/-! ### No plan's hotspot is stale under chip-select (R141)

A bank switch leaves its hotspot on the bus, and the range read after it takes it away before chip-select is asserted
again: a range read asserts it never, and ends at an address that is no plan's hotspot. So the pieces are a whole
predicate, a whole bank, a trigger and a range read, and they compose. -/

@[simp] theorem neverStale_append (a : Addr) (xs ys : List Event) :
    neverStale a (xs ++ ys) = (neverStale a xs && neverStale (addrAfter a xs) ys) := by
  induction xs generalizing a with
  | nil => rfl
  | cons x xs ih => cases x <;> simp [neverStale, addrAfter, ih, Bool.and_assoc]

@[simp] theorem hotspotTrace_neverStale (a h : Addr) : neverStale a (hotspotTrace h) = !planHotspot a := by
  simp [hotspotTrace, neverStale]

@[simp] theorem feTrace_neverStale (a : Addr) (p : Level) : neverStale a (feTrace p) = !planHotspot a := by
  simp [feTrace, neverStale]

/-- A range read names no chip-select. -/
@[simp] theorem readTrace_neverStale (old a : Addr) (bs : List Byte) : neverStale old (readTrace a bs) = true := by
  induction bs generalizing old a with
  | nil => rfl
  | cons b bs ih => exact ih a (a + 1#12)

@[simp] theorem dumpTrace_neverStale (old a : Addr) (bs : List Byte) : neverStale old (dumpTrace a bs) = true := by
  induction bs generalizing old a with
  | nil => rfl
  | cons b bs ih => exact ih a (a + 1#12)

/-- From a bus without a plan's hotspot, no event asserts chip-select over one, and the bus carries none at the end. -/
def staysFresh (es : List Event) : Prop :=
  ∀ a, planHotspot a = false → neverStale a es = true ∧ planHotspot (addrAfter a es) = false

theorem staysFresh_nil : staysFresh [] := fun _ h => ⟨rfl, h⟩

theorem staysFresh_append {es fs : List Event} (h : staysFresh es) (g : staysFresh fs) : staysFresh (es ++ fs) := by
  intro a ha
  obtain ⟨hes, hmid⟩ := h a ha
  obtain ⟨hfs, hend⟩ := g _ hmid
  rw [neverStale_append, addrAfter_append, hes, hfs]
  exact ⟨rfl, hend⟩

/-! #### The events of the rules -/

theorem feTrace_staysFresh (p : Level) : staysFresh (feTrace p) := fun a ha => by
  rw [feTrace_neverStale, feTrace_addr, ha]
  decide

/-- A range read whose last address is no plan's hotspot. -/
theorem dumpTrace_staysFresh {addr : Addr} {bs : List Byte} {n : Nat} (hl : bs.length = n) (hpos : 0 < n)
    (hend : planHotspot (addr + BitVec.ofNat 12 (n - 1)) = false) : staysFresh (dumpTrace addr bs) := fun a _ => by
  rw [dumpTrace_neverStale, dumpTrace_addr, hl, lastAddr_of_pos a addr hpos]
  exact ⟨rfl, hend⟩

/-- A bank switch and the range read that takes its hotspot off the bus (R104). -/
theorem bank_staysFresh (h : Addr) {addr : Addr} {bs : List Byte} {n : Nat} (hl : bs.length = n) (hpos : 0 < n)
    (hend : planHotspot (addr + BitVec.ofNat 12 (n - 1)) = false) :
    staysFresh (hotspotTrace h ++ dumpTrace addr bs) := fun a ha => by
  rw [neverStale_append, addrAfter_append, hotspotTrace_neverStale, dumpTrace_neverStale, dumpTrace_addr, hl,
    lastAddr_of_pos _ addr hpos, ha]
  exact ⟨rfl, hend⟩

theorem bankTrace_staysFresh (h : Addr) {banks : List (List Byte)} {n : Nat} (hb : ∀ bs ∈ banks, bs.length = n)
    (hpos : 0 < n) (hend : planHotspot (0x000#12 + BitVec.ofNat 12 (n - 1)) = false) :
    staysFresh (bankTrace h banks) := by
  induction banks generalizing h with
  | nil => exact staysFresh_nil
  | cons bs rest ih =>
    rw [List.forall_mem_cons] at hb
    obtain ⟨hbs, hrest⟩ := hb
    exact staysFresh_append (bank_staysFresh h hbs hpos hend) (ih (h + 1#12) hrest)

/-- A predicate's windows before its second bank switch or trigger end where those after it end, off every plan's
hotspot (R87 to R93). -/
theorem seen_staysFresh {p : Predicate} {w : Windows} (hw : p.fits w) : staysFresh (p.seen w) := by
  intro a ha
  have hend : planHotspot p.addrEnd = false := by cases p <;> decide
  refine ⟨?_, (seen_addr hw a).symm ▸ hend⟩
  obtain ⟨h0, h1, -⟩ := hw
  cases p with
  | isE0 | isE7 => simpa [Predicate.seen, Predicate.addrEnd, ha, h1, lastAddr] using hend
  | isF4 | isF6 | isF8 | isFE => simpa [Predicate.seen, Predicate.addrEnd, ha, h0, lastAddr] using hend
  | is2K => simp [Predicate.seen]

theorem chainSeen_staysFresh {c : List (Predicate × Bool)} {ws : List Windows} (h : chainHolds c ws) :
    staysFresh (chainSeen c ws) := by
  induction c generalizing ws with
  | nil => exact staysFresh_nil
  | cons q c ih =>
    cases ws with
    | nil => exact h.elim
    | cons w ws =>
      obtain ⟨hw, -, hc⟩ := h
      exact staysFresh_append (seen_staysFresh hw) (ih hc)

/-! #### Courses -/

/-- The events of the course, run from any state, are such. -/
def Routine.keepsBusFresh (r : Routine) : Prop := ∀ s : State, ∃ es, s.issued (r.run s) es ∧ staysFresh es

theorem classifyRoutine_keepsBusFresh : classifyRoutine.keepsBusFresh := fun s =>
  have ⟨_, _, _, h⟩ := classifyRoutine_decides s
  ⟨_, h.issued, chainSeen_staysFresh h.chain⟩

theorem plainPlan_keepsBusFresh {k : MapperKind} {n : Nat} (hk : planOf k = [readRange 0x000#12 n .out])
    (hpos : 0 < n) (hend : planHotspot (0x000#12 + BitVec.ofNat 12 (n - 1)) = false) :
    (dumpRoutine k).keepsBusFresh := fun s =>
  have ⟨_, hl, hi⟩ := plainPlan_issued hk s
  ⟨_, hi, dumpTrace_staysFresh hl hpos hend⟩

theorem bankedPlan_keepsBusFresh {k : MapperKind} {h : Addr} {n count : Nat} (hk : planOf k = banksFrom n h count)
    (hpos : 0 < n) (hend : planHotspot (0x000#12 + BitVec.ofNat 12 (n - 1)) = false) :
    (dumpRoutine k).keepsBusFresh := fun s =>
  have ⟨_, _, hb, hi⟩ := bankedPlan_issued hk s
  ⟨_, hi, bankTrace_staysFresh h hb hpos hend⟩

/-- Every dump, by the form of its kind's plan: its reads end at 0x3FF, 0x7FF or 0xFFF. -/
theorem dumpRoutine_keepsBusFresh (k : MapperKind) : (dumpRoutine k).keepsBusFresh := by
  cases k with
  | k2 => exact plainPlan_keepsBusFresh rfl (by decide) (by decide)
  | k4 => exact plainPlan_keepsBusFresh rfl (by decide) (by decide)
  | e0 => exact bankedPlan_keepsBusFresh rfl (by decide) (by decide)
  | f4 => exact bankedPlan_keepsBusFresh rfl (by decide) (by decide)
  | f6 => exact bankedPlan_keepsBusFresh rfl (by decide) (by decide)
  | f8 => exact bankedPlan_keepsBusFresh rfl (by decide) (by decide)
  | e7 =>
    intro s
    obtain ⟨banks, last, -, hb, hl, hi⟩ := planE7_issued s
    exact ⟨_, hi, staysFresh_append (bankTrace_staysFresh _ hb (by decide) (by decide))
      (dumpTrace_staysFresh hl (by decide) (by decide))⟩
  | fe =>
    intro s
    obtain ⟨high, low, hhigh, hlow, hi⟩ := planFE_issued s
    have read {bs : List Byte} (hl : bs.length = 4096) : staysFresh (dumpTrace 0x000#12 bs) :=
      dumpTrace_staysFresh hl (by decide) (by decide)
    exact ⟨_, hi, staysFresh_append (staysFresh_append (staysFresh_append (feTrace_staysFresh true) (read hhigh))
      (feTrace_staysFresh false)) (read hlow)⟩

theorem routineOf_keepsBusFresh {i : Instr} {kind : Option MapperKind} {r : Routine}
    (hi : i = .classify ∨ i = .dump ∨ ∃ k, i = Instr.dumpk k) (hr : routineOf i kind = some r) :
    r.keepsBusFresh := by
  rcases hi with rfl | rfl | ⟨k, rfl⟩
  · cases hr
    exact classifyRoutine_keepsBusFresh
  · obtain ⟨k, -, rfl⟩ := Option.map_eq_some_iff.mp hr
    exact dumpRoutine_keepsBusFresh k
  · cases (routineOf_dumpk k kind).symm.trans hr
    exact dumpRoutine_keepsBusFresh k

/-- Settles O54: a fault of the checks issues nothing and leaves the bus; a course keeps it fresh, and A follows its
events. -/
theorem noStaleHotspot : Obligations.NoStaleHotspot := by
  intro i s t hi ha ht
  rcases exec_cases ht with ⟨e, rfl⟩ | ⟨r, -, hr, rfl⟩
  · exact ⟨ha, [], issued_refl s, rfl⟩
  · obtain ⟨es, hes, hfresh⟩ := routineOf_keepsBusFresh hi hr s
    obtain ⟨haddr, -⟩ := run_linesFollow hes
    obtain ⟨hnever, hend⟩ := hfresh s.a ha
    exact ⟨haddr ▸ hend, es, hes, hnever⟩

end Sys2Proof.Machine
